-- ==== Sys2Proof/Word.lean ====
section
/-!
DEFINITION. The words of the machine, and the values of binary64.

A slot, a command word and a half register are 32 bits; `OPA`, `OPB` and `RES` are 64 bits
(00_scope R6, 10_state R20, R25); a DMA byte is 8 bits (20_memory R45).
-/
namespace Sys2Proof

/-- A byte of the DMA space (20_memory R45). -/
abbrev Byte := BitVec 8

/-- A 32-bit word: a slot of `SB` (10_state R20), a command word, one access of the register port. -/
abbrev Word := BitVec 32

/-- A 64-bit word: `OPA`, `OPB`, `RES` (10_state R25). -/
abbrev DWord := BitVec 64

/-- A binary64 VALUE (00_scope R9), as against the 64-bit pattern that encodes it.
`fin neg mag` is the number `mag * 2^-1074`, negated when `neg`; every finite binary64 value is such a
number, and the two zeros are `fin false 0` and `fin true 0`. Not-a-number is one value. -/
inductive F64 where
  | nan
  | inf (neg : Bool)
  | fin (neg : Bool) (mag : Nat)
deriving DecidableEq, Repr

end Sys2Proof
end

