-- ==== Sys2Proof/Config.lean ====
section
/-!
DEFINITION. The platform's OPEN parameters as plain data (00_scope R6), and the free values: constants
with no body, so that no proof can lean on what they are.
-/
namespace Sys2Proof

/-- A range of DMA byte addresses, `base` to `base + size - 1`. -/
structure Region where
  base : Nat
  size : Nat
deriving DecidableEq, Repr

/-- The platform around the block (00_scope R6): `REG_BASE`, `ADDR_W`, and the admission predicate of
the launch memory (20_memory R48) written as the list of regions that are writable memory. -/
structure Platform where
  regBase    : Nat
  addrW      : Nat
  dmaRegions : List Region
deriving DecidableEq, Repr

/-- FREE VALUE (DESIGN CHOICE of form, log entry 4; safe). The word the entropy port delivers when
nothing in `State.entropy` says which: a draw under no law (10_state R33, 93 I6). -/
opaque Config.entropyWord : Nat → Word

/-- FREE VALUE (DEDUCED, log entry 10; safe). How many bytes a stuck `BYTES` had written when a reset
aborted it (70_reset R230: "DMA bytes already written stay written"). -/
opaque Config.stuckProgress : Nat → Nat

/-- FREE VALUE (DESIGN CHOICE of form, log entry 12; safe). The sign and payload bits of the pattern of a
not-a-number result. No command ever writes one to `RES` (91_not_in_source N7). -/
opaque Config.nanPayload : DWord

end Sys2Proof
end

