-- ==== Sys2Proof/Syntax.lean ====
section
/-!
DEFINITION. What a host can say to the block: the 17 commands (30_encoding R62), the fields of a command
word (R60), and the register accesses and resets that reach the block (20_memory R41, R42; 70_reset R230).
-/
namespace Sys2Proof

/-- The 17 commands of 30_encoding R62, one constructor per row of spec/opcode_table.json. A command has
no operand field: its operands are in `OPA` and `OPB` (R60, R64). -/
inductive Instr where
  /-- `SEED`, HNH `create(seed)`; 40_initializer R106. -/
  | seed
  /-- `SEEDR`, HNH `create()`; 40_initializer R107. -/
  | seedr
  /-- `RAW`, HNH `internalSample()`; 41_engine R127. -/
  | raw
  /-- `UNIT`, HNH `sample()` and `nextDouble()`; 42_sampler R141. -/
  | unit
  /-- `NEXT`; 42_sampler R143. -/
  | next
  /-- `NEXT.MIN`; 42_sampler R144. -/
  | nextMin
  /-- `NEXT.MAX`; 42_sampler R145. -/
  | nextMax
  /-- `NEXT.MM`; 42_sampler R146. -/
  | nextMm
  /-- `NEXTI`; 42_sampler R147. -/
  | nexti
  /-- `NEXTI.MIN`; 42_sampler R148. -/
  | nextiMin
  /-- `NEXTI.MAX`; 42_sampler R149. -/
  | nextiMax
  /-- `NEXTI.MM`; 42_sampler R150. -/
  | nextiMm
  /-- `BYTES`, HNH `nextBytes(buffer)`; 43_wide R171. -/
  | bytes
  /-- `LONG`; 43_wide R173. -/
  | long
  /-- `LONG.MIN`; 43_wide R174. -/
  | longMin
  /-- `LONG.MAX`; 43_wide R175. -/
  | longMax
  /-- `LONG.MM`; 43_wide R176. -/
  | longMm
deriving DecidableEq, Repr

/-- The fields of a command word (30_encoding R60): `OP` 3:0, `HASMIN` 4, `HASMAX` 5, `RSV` 31:6. -/
structure CmdFields where
  rsv    : BitVec 26
  hasMax : Bool
  hasMin : Bool
  op     : BitVec 4
deriving DecidableEq, Repr

/-- The operations of 30_encoding R62: the values of `OP` that are not reserved. -/
inductive Op where
  | seed | seedr | raw | unit | next | nexti | bytes | long
deriving DecidableEq, Repr

/-- What a register access does; a write carries its 32 bits of data. -/
inductive AccessKind where
  | read
  | write (data : Word)
deriving DecidableEq, Repr

/-- One access of the host bus: a byte address, a size in bytes, a read or a write. -/
structure Access where
  kind : AccessKind
  addr : Nat
  size : Nat
deriving DecidableEq, Repr

/-- What can reach the block from outside: a register access (20_memory R51), or its reset input
(70_reset R230). -/
inductive BusEvent where
  | access (a : Access)
  | reset
deriving DecidableEq, Repr

/-- The named registers of the port (20_memory R41), one per 32-bit word that has a name. -/
inductive Reg where
  | cmd | status | opaLo | opaHi | opbLo | opbHi | resLo | resHi
deriving DecidableEq, Repr

end Sys2Proof
end

