-- ==== Sys2Proof/WellFormed.lean ====
section
/-!
DEFINITION. The checks on what comes from outside the block: the fields of a command word
(30_encoding R61), a register access (20_memory R42), the platform's parameters (00_scope R6, 20_memory R41).
An `Instr` carries no operand, so every `Instr` is well-formed; the check is on the word it comes from.
-/
namespace Sys2Proof

/-- `OP` is one of the values 30_encoding R62 lists: 0x1 to 0x8. -/
def CmdFields.opListed (f : CmdFields) : Bool :=
  1 ≤ f.op.toNat && f.op.toNat ≤ 8

/-- `OP` is a shaped operation: `NEXT` 0x5, `NEXTI` 0x6 or `LONG` 0x8 (30_encoding R61). -/
def CmdFields.opShaped (f : CmdFields) : Bool :=
  f.op == 5#4 || f.op == 6#4 || f.op == 8#4

/-- A command word is legal unless one of the three conditions of 30_encoding R61 holds. -/
def CmdFields.legal (f : CmdFields) : Bool :=
  f.rsv == 0#26 && f.opListed && (f.opShaped || !(f.hasMin || f.hasMax))

/-- The access falls in the 64-byte register window at `base` (20_memory R40, R41). -/
def Access.inWindow (base : Nat) (a : Access) : Bool :=
  base ≤ a.addr && a.addr < base + 64

/-- The register port accepts the access: 32 bits, at an offset that is a multiple of 4 (20_memory R42). -/
def Access.accepted (base : Nat) (a : Access) : Bool :=
  a.size == 4 && (a.addr - base) % 4 == 0

/-- An access that the block gives a meaning to (20_memory R41, R42). -/
def Access.wellFormed (base : Nat) (a : Access) : Bool :=
  a.inWindow base && a.accepted base

/-- `REG_BASE` is aligned to 64 bytes (20_memory R41), and 1 ≤ `ADDR_W` ≤ 64 (00_scope R6). -/
def Platform.wellFormed (p : Platform) : Bool :=
  p.regBase % 64 == 0 && 1 ≤ p.addrW && p.addrW ≤ 64

end Sys2Proof
end

