-- ==== Sys2Proof/Decode.lean ====
section
/-!
DEFINITION. Decoding a command word, a total function of its 32 bits (30_encoding R61), and after it the
encoder (R60, R62).
-/
namespace Sys2Proof

/-- Why a word is illegal: the three conditions of 30_encoding R61. All three end with `ERR_ILLEGAL`
(60_exceptions R202); the name is for a reader. -/
inductive DecodeError where
  /-- A bit of `RSV` (31:6) is set. -/
  | reservedBits
  /-- `OP` is 0x0 or 0x9 to 0xF. -/
  | reservedOp
  /-- `SHAPE` is not 0 on `SEED`, `SEEDR`, `RAW`, `UNIT` or `BYTES`. -/
  | shapeOnUnshaped
deriving DecidableEq, Repr

/-- The fields of a word (30_encoding R60). -/
def cmdFields (w : Word) : CmdFields :=
  { rsv    := w.extractLsb' 6 26
    hasMax := w.getLsbD 5
    hasMin := w.getLsbD 4
    op     := w.extractLsb' 0 4 }

/-- The operation of an `OP` value, where 30_encoding R62 lists one. -/
def opOf (op : BitVec 4) : Option Op :=
  match op.toNat with
  | 1 => some .seed
  | 2 => some .seedr
  | 3 => some .raw
  | 4 => some .unit
  | 5 => some .next
  | 6 => some .nexti
  | 7 => some .bytes
  | 8 => some .long
  | _ => none

/-- The command of an operation and its shape, the bits `HASMIN` and `HASMAX` (30_encoding R60, R62). -/
def commandOf (o : Op) (hasMin hasMax : Bool) : Except DecodeError Instr :=
  match o, hasMin, hasMax with
  | .seed,  false, false => .ok .seed
  | .seedr, false, false => .ok .seedr
  | .raw,   false, false => .ok .raw
  | .unit,  false, false => .ok .unit
  | .bytes, false, false => .ok .bytes
  | .next,  false, false => .ok .next
  | .next,  true,  false => .ok .nextMin
  | .next,  false, true  => .ok .nextMax
  | .next,  true,  true  => .ok .nextMm
  | .nexti, false, false => .ok .nexti
  | .nexti, true,  false => .ok .nextiMin
  | .nexti, false, true  => .ok .nextiMax
  | .nexti, true,  true  => .ok .nextiMm
  | .long,  false, false => .ok .long
  | .long,  true,  false => .ok .longMin
  | .long,  false, true  => .ok .longMax
  | .long,  true,  true  => .ok .longMm
  | .seed,  _, _ => .error .shapeOnUnshaped
  | .seedr, _, _ => .error .shapeOnUnshaped
  | .raw,   _, _ => .error .shapeOnUnshaped
  | .unit,  _, _ => .error .shapeOnUnshaped
  | .bytes, _, _ => .error .shapeOnUnshaped

/-- Decoding on the fields of a word (30_encoding R61). -/
def decodeFields (f : CmdFields) : Except DecodeError Instr :=
  if f.rsv ≠ 0#26 then .error .reservedBits
  else match opOf f.op with
    | none => .error .reservedOp
    | some o => commandOf o f.hasMin f.hasMax

/-- The command a word written to `CMD` selects, or why it is illegal (30_encoding R61). -/
def decode (w : Word) : Except DecodeError Instr :=
  decodeFields (cmdFields w)

/-- `OP`, `HASMIN` and `HASMAX` of each command (30_encoding R62); `RSV` is 0 in all of them (R60). -/
def fieldsOf (i : Instr) : CmdFields :=
  match i with
  | .seed     => ⟨0#26, false, false, 0x1#4⟩
  | .seedr    => ⟨0#26, false, false, 0x2#4⟩
  | .raw      => ⟨0#26, false, false, 0x3#4⟩
  | .unit     => ⟨0#26, false, false, 0x4#4⟩
  | .next     => ⟨0#26, false, false, 0x5#4⟩
  | .nextMin  => ⟨0#26, false, true,  0x5#4⟩
  | .nextMax  => ⟨0#26, true,  false, 0x5#4⟩
  | .nextMm   => ⟨0#26, true,  true,  0x5#4⟩
  | .nexti    => ⟨0#26, false, false, 0x6#4⟩
  | .nextiMin => ⟨0#26, false, true,  0x6#4⟩
  | .nextiMax => ⟨0#26, true,  false, 0x6#4⟩
  | .nextiMm  => ⟨0#26, true,  true,  0x6#4⟩
  | .bytes    => ⟨0#26, false, false, 0x7#4⟩
  | .long     => ⟨0#26, false, false, 0x8#4⟩
  | .longMin  => ⟨0#26, false, true,  0x8#4⟩
  | .longMax  => ⟨0#26, true,  false, 0x8#4⟩
  | .longMm   => ⟨0#26, true,  true,  0x8#4⟩

/-- The word of a set of fields: the concatenation of 30_encoding R60, high field first. -/
def packFields (f : CmdFields) : Word :=
  f.rsv ++ BitVec.ofBool f.hasMax ++ BitVec.ofBool f.hasMin ++ f.op

/-- The word of a command (30_encoding R62). -/
def encode (i : Instr) : Word :=
  packFields (fieldsOf i)

/-- The command the decoder reads from an instruction of `nbits` bits `w`. A command is one 32-bit word,
never longer (30_encoding R60, R67); a shorter `w` has zeros above it. -/
def decodeTableWord (nbits w : Nat) : Option Instr :=
  if nbits ≤ 32 then
    match decode (BitVec.ofNat 32 (w % 2 ^ nbits)) with
    | .ok i => some i
    | .error _ => none
  else none

end Sys2Proof
end

