-- ==== Sys2Proof/Machine/Params.lean ====
section
/-!
DEFINITION. The algorithm's constants, verbatim (00_scope R3), and the register map (20_memory R41).
-/
namespace Sys2Proof.Machine

/-- `M` = 2^31 − 1 (00_scope R3). -/
def M : Nat := 2147483647

/-- `M` as a 32-bit word. -/
def mWord : Word := BitVec.ofNat 32 M

/-- `MAGIC` (00_scope R3). -/
def magic : Word := 161803398#32

/-- The number of live slots, 1..55: what `ii` and `n` are reduced by (40_initializer R100). -/
def liveSlots : Nat := 55

/-- `N_SLOTS`: a cursor that reaches it wraps to 1 (00_scope R3, 41_engine R120). -/
def nSlots : Nat := 56

/-- `SCRAMBLE_STEP` (00_scope R3). -/
def scrambleStep : Nat := 21

/-- `MIX_OFFSET` (00_scope R3). -/
def mixOffset : Nat := 30

/-- `MIX_PASSES` (00_scope R3). -/
def mixPasses : Nat := 4

/-- `CA_INIT`: §4.1 wins over §3 (00_scope R3, 40_initializer R104, 90_conflicts C1). -/
def caInit : Fin 56 := 0

/-- `CB_INIT` (00_scope R3, 40_initializer R104). -/
def cbInit : Fin 56 := 21

/-- The number of draws of a wide value (43_wide R172). -/
def wideBytes : Nat := 8

/-- The byte offset from `REG_BASE` of each named register (20_memory R41). -/
def regOffset (r : Reg) : Nat :=
  match r with
  | .cmd    => 0x00
  | .status => 0x04
  | .opaLo  => 0x08
  | .opaHi  => 0x0C
  | .opbLo  => 0x10
  | .opbHi  => 0x14
  | .resLo  => 0x18
  | .resHi  => 0x1C

/-- The register at a word offset; `none` for the reserved offsets 0x20 to 0x3C (20_memory R41). -/
def regAt (offset : Nat) : Option Reg :=
  match offset with
  | 0x00 => some .cmd
  | 0x04 => some .status
  | 0x08 => some .opaLo
  | 0x0C => some .opaHi
  | 0x10 => some .opbLo
  | 0x14 => some .opbHi
  | 0x18 => some .resLo
  | 0x1C => some .resHi
  | _    => none

end Sys2Proof.Machine
end

