-- ==== Sys2Proof/Machine/State.lean ====
section
/-!
DEFINITION. The state of the block (10_state), as plain data; why a step can stop; the state after reset.
-/
namespace Sys2Proof.Machine

/-- The completion codes of `STATUS.ERR` (60_exceptions R201). Codes 6 to 15 are reserved, "never
written", so no constructor stands for them. -/
inductive ErrCode where
  /-- 0: the command completed. -/
  | ok
  /-- 1: `ERR_ILLEGAL`, R202. -/
  | illegal
  /-- 2: `ERR_UNSEEDED`, R203. -/
  | unseeded
  /-- 3: `ERR_OPERAND`, R204. -/
  | operand
  /-- 4: `ERR_RANGE`, R205. -/
  | range
  /-- 5: `ERR_ADDR`, R206. -/
  | addr
deriving DecidableEq, Repr

/-- The engine state of a constructed generator (10_state R20 to R22). -/
structure Engine where
  /-- The seed buffer `SB`: 56 slots, each a signed 32-bit integer; slot 0 is never read or written
  (R20) and is held at 0 (DESIGN CHOICE, log entry 3; safe). -/
  sb : Vector Word 56
  /-- The cursor `CA`, an index into `SB` (R21). -/
  ca : Fin 56
  /-- The cursor `CB`, an index into `SB` (R22). -/
  cb : Fin 56
deriving DecidableEq, Repr

/-- `SEEDED`, with `SB`, `CA` and `CB` where they have a value. While `SEEDED = 0` they are "no value"
(10_state R23, R31): the spec's own state, in which a model "holds them as "no value"" (70_reset R231). -/
inductive Generator where
  /-- `SEEDED = 0`. -/
  | unseeded
  /-- `SEEDED = 1`. -/
  | seeded (e : Engine)
deriving DecidableEq, Repr

/-- The DMA space: the bytes that hold a value, addresses strictly rising. An address that is not listed
has no value (DESIGN CHOICE, log entry 8; safe). -/
abbrev Memory := List Host.Cell

/-- Everything the spec gives the machine (10_state), the platform's parameters (00_scope R6), and the
model's own view of what is outside: the words placed at the entropy port, the accesses still to be
delivered, the values read. -/
structure State where
  /-- `SEEDED`, `SB`, `CA`, `CB` (10_state R20 to R23). -/
  gen : Generator
  /-- `OPA` (R26). -/
  opa : DWord
  /-- `OPB` (R27). -/
  opb : DWord
  /-- `RES` (R28). -/
  res : DWord
  /-- `STATUS.WRAP` (R29). -/
  wrap : Bool
  /-- `STATUS.ERR` (R29). -/
  err : ErrCode
  /-- The DMA space (20_memory R40). -/
  dma : Memory
  /-- `REG_BASE`, `ADDR_W`, the admission predicate (00_scope R6, 20_memory R48); no step changes it. -/
  platform : Platform
  /-- The next words the entropy port delivers, first first (10_state R33; log entry 4). -/
  entropy : List Word
  /-- MODEL: how many free values have been taken (log entry 5). -/
  freeTick : Nat
  /-- MODEL: what the bus and the reset input still deliver, first first (log entry 6). -/
  pending : List BusEvent
  /-- MODEL: the values the port has returned, newest first (log entry 7). -/
  readLog : List Word
deriving DecidableEq, Repr

/-- Why the machine stops. -/
inductive Fault where
  /-- A `BYTES` command one of whose DMA writes the platform memory does not admit: "the engine has no
  step: the command is stuck" (20_memory R48). Raised by `execBytes` only. Safe: the model stops where
  the hardware hangs. -/
  | stuckDma
deriving DecidableEq, Repr

/-- Why a step has no meaning. -/
inductive Refusal where
  /-- An instruction without a meaning yet; raised by `exec`'s own arm. Safe. No arm answers it. -/
  | notModelled (mnemonic : String)
  /-- A register access that is not 32 bits wide at a multiple of 4: "A model refuses such an access"
  (20_memory R42). Raised by the register port. Safe. -/
  | portAccess
  /-- An access outside the block's 64-byte window: another device's, of which the spec says nothing
  (20_memory R40, R41). Raised by the register port. Safe (log entry 11). -/
  | outsideWindow
deriving DecidableEq, Repr

/-- What a step of this machine answers. -/
abbrev Result := Host.Outcome State Fault Refusal

/-- The machine right after reset (10_state R31, 70_reset R230). The platform's parameters are not the
block's: the values here are the spec's examples' `ADDR_W` = 32 with the whole DMA space writable
(95_test_vectors, "Conventions") and `REG_BASE` = 0 (DESIGN CHOICE, log entry 1; unsafe). The DMA space
lists nothing, no entropy word is placed, nothing is pending (DESIGN CHOICE, log entries 4 to 8). -/
def State.reset : State :=
  { gen := .unseeded
    opa := 0#64
    opb := 0#64
    res := 0#64
    wrap := false
    err := .ok
    dma := []
    platform := { regBase := 0, addrW := 32, dmaRegions := [{ base := 0, size := 4294967296 }] }
    entropy := []
    freeTick := 0
    pending := []
    readLog := [] }

end Sys2Proof.Machine
end

