-- ==== Sys2Proof/Machine/Ops.lean ====
section
/-!
DEFINITION. The named operations over the state: the conversions of 00_scope R8, the seed buffer, the draw
step (41_engine R120), the DMA space (20_memory), the updates of `State`, and the ends of a command:
rejection (60_exceptions R200) and completion (R209).
-/
namespace Sys2Proof.Machine

/-! ### Conversions (00_scope R8) -/

/-- `s32(b)`: a 32-bit pattern read as signed two's complement. -/
def s32 (b : Word) : Int := b.toInt

/-- `s64(b)`: a 64-bit pattern read as signed two's complement. -/
def s64 (b : DWord) : Int := b.toInt

/-- `u64(b)`: a 64-bit pattern read as unsigned. -/
def u64 (b : DWord) : Nat := b.toNat

/-- `zext_64(v)` of a 32-bit pattern. -/
def zext64 (v : Word) : DWord := v.zeroExtend 64

/-- `bits64(z)`: the pattern `z mod 2^64` of an integer. -/
def bits64 (z : Int) : DWord := BitVec.ofInt 64 z

/-- `X_LO` = X[31:0] (00_scope R7). -/
def loHalf (x : DWord) : Word := x.extractLsb' 0 32

/-- `X_HI` = X[63:32] (00_scope R7). -/
def hiHalf (x : DWord) : Word := x.extractLsb' 32 32

/-- A 64-bit register of its two halves, `{hi, lo}` (00_scope R7, 20_memory R43). -/
def ofHalves (hi lo : Word) : DWord := hi ++ lo

/-! ### The seed buffer and the draw step -/

/-- `SB[i]` (00_scope R10). Every index the rules use is in 0..55. -/
def readSlot (sb : Vector Word 56) (i : Nat) : Word :=
  if h : i < 56 then sb[i] else 0#32

/-- `SB[i] <- v` (00_scope R10). -/
def writeSlot (sb : Vector Word 56) (i : Nat) (v : Word) : Vector Word 56 :=
  sb.setIfInBounds i v

/-- "If negative, add `M`": one 32-bit addition, on the wrapped value (40_initializer R100, R105; 41_engine
R122). -/
def addMIfNegative (v : Word) : Word :=
  if v.msb then v + mWord else v

/-- A cursor advanced by one, "wrap to 1 if it reaches 56" (41_engine R120, R121). -/
def advance (c : Fin 56) : Fin 56 :=
  if h : c.val + 1 < nSlots then ⟨c.val + 1, h⟩ else 1

/-- The value of a draw, from the two slots it reads: the 32-bit difference, less 1 if it is `M`, then plus
`M` if it is negative; the checks in that order (41_engine R120, R122). -/
def drawValue (a b : Word) : Word :=
  let d := a - b
  addMIfNegative (if d = mWord then d - 1#32 else d)

/-- `Draw()` (41_engine R120): the drawn value and the engine after it. -/
def draw (e : Engine) : Word × Engine :=
  let ca := advance e.ca
  let cb := advance e.cb
  let r := drawValue (readSlot e.sb ca.val) (readSlot e.sb cb.val)
  (r, { sb := writeSlot e.sb ca.val r, ca := ca, cb := cb })

/-- `Byte(r)` = `r mod 256`, which is `r[7:0]` (43_wide R170). -/
def byteOf (r : Word) : Byte := r.extractLsb' 0 8

/-! ### The DMA space (20_memory R40 to R48) -/

/-- The byte an address holds, `none` where nothing has written it (log entry 8). The engine never reads
the DMA space (20_memory R45); this is how a statement reads it. -/
def Memory.read (m : Memory) (a : Nat) : Option Byte :=
  match m with
  | [] => none
  | c :: rest => if c.1 = a then some c.2 else Memory.read rest a

/-- `MemWrite(a, 1, v)` (00_scope R10, 20_memory R45), keeping the addresses strictly rising. -/
def Memory.write (m : Memory) (a : Nat) (v : Byte) : Memory :=
  match m with
  | [] => [(a, v)]
  | c :: rest =>
    if a < c.1 then (a, v) :: c :: rest
    else if a = c.1 then (a, v) :: rest
    else c :: Memory.write rest a v

/-- The canonical form: addresses strictly rising. (A listed address holds a byte and an unlisted one holds
none, so no entry equals what an unlisted address reads as.) -/
def Memory.wf (m : Memory) : Bool :=
  match m with
  | [] => true
  | c :: rest => rest.all (fun d => decide (c.1 < d.1)) && Memory.wf rest

/-- The platform memory admits a DMA write at the address (20_memory R48). -/
def admits (p : Platform) (a : Nat) : Bool :=
  p.dmaRegions.any fun r => decide (r.base ≤ a) && decide (a < r.base + r.size)

/-- How many of the `n` addresses from `a` on are admitted before the first that is not. -/
def admittedPrefix (p : Platform) (a n : Nat) : Nat :=
  match n with
  | 0 => 0
  | k + 1 => if admits p a then admittedPrefix p (a + 1) k + 1 else 0

/-- The platform memory admits every one of the `n` addresses from `a` on. -/
def admitsAll (p : Platform) (a n : Nat) : Bool :=
  match n with
  | 0 => true
  | k + 1 => admits p a && admitsAll p (a + 1) k

/-- `n` draws, each giving the byte written at the next address, ascending (20_memory R46, 43_wide R171). -/
def fillBytes (n a : Nat) (m : Memory) (e : Engine) : Memory × Engine :=
  match n with
  | 0 => (m, e)
  | k + 1 =>
    let d := draw e
    fillBytes k (a + 1) (Memory.write m a (byteOf d.1)) d.2

/-! ### Updates of the state -/

/-- `STATUS.ERR <- c`. -/
def State.setErr (s : State) (c : ErrCode) : State := { s with err := c }

/-- The engine state written; `SEEDED` is 1 with it (10_state R23). -/
def State.setEngine (s : State) (e : Engine) : State := { s with gen := .seeded e }

/-- `RES` and the `WRAP` that qualifies it, written together (10_state R29). -/
def State.setResult (s : State) (res : DWord) (wrap : Bool) : State := { s with res := res, wrap := wrap }

/-- The DMA space written. -/
def State.setDma (s : State) (m : Memory) : State := { s with dma := m }

/-- `OPA` written by the host (10_state R26). -/
def State.setOpa (s : State) (v : DWord) : State := { s with opa := v }

/-- `OPB` written by the host (10_state R27). -/
def State.setOpb (s : State) (v : DWord) : State := { s with opb := v }

/-- A value returned to the host. -/
def State.logRead (s : State) (v : Word) : State := { s with readLog := v :: s.readLog }

/-- The events still to be delivered. -/
def State.setPending (s : State) (evs : List BusEvent) : State := { s with pending := evs }

/-- `SEEDED`: 1 once a seeding has completed since reset (10_state R23). -/
def State.isSeeded (s : State) : Bool :=
  match s.gen with
  | .unseeded => false
  | .seeded _ => true

/-- The word the entropy port delivers next: the first placed one, or a free value (10_state R33). -/
def State.entropyNext (s : State) : Word :=
  match s.entropy with
  | [] => Config.entropyWord s.freeTick
  | w :: _ => w

/-- The port after one word has been taken from it (10_state R33). -/
def State.takeEntropy (s : State) : State :=
  match s.entropy with
  | [] => { s with freeTick := s.freeTick + 1 }
  | _ :: rest => { s with entropy := rest }

/-- The reset input (70_reset R230): every piece of the block's state at its value of 10_state R31. The
DMA bytes already written stay; the platform, the entropy port and the bus are not the block's. -/
def State.resetBlock (s : State) : State :=
  { s with gen := .unseeded, opa := 0#64, opb := 0#64, res := 0#64, wrap := false, err := .ok }

/-! ### The ends of a command -/

/-- `raise CmdError(code)`: the command is rejected; it sets `STATUS.ERR` and changes no other state
(60_exceptions R200, 00_scope R10). This is the machine's one form of taking an exception: there is no
trap, no saved state and no return (R211). -/
def reject (c : ErrCode) (s : State) : Result := .next (s.setErr c)

/-- A command that produces a value completes: the engine after its draws, `RES` with `WRAP`, and
`STATUS.ERR <- OK` (10_state R28, R29; 60_exceptions R209). -/
def finish (e : Engine) (res : DWord) (wrap : Bool) (s : State) : Result :=
  .next (((s.setEngine e).setResult res wrap).setErr .ok)

/-- The checks of a sampling command, in the order of 60_exceptions R207: `ERR_UNSEEDED` first (R203), then
the command's own check; all before its first draw (R208). -/
def withEngine (s : State) (check : Option ErrCode) (body : Engine → Result) : Result :=
  match s.gen with
  | .unseeded => reject .unseeded s
  | .seeded e =>
    match check with
    | some c => reject c s
    | none => body e

end Sys2Proof.Machine
end

