-- ==== Sys2Proof/Machine/Generator.lean ====
section
/-!
DEFINITION. `RAW` (41_engine R127).
-/
namespace Sys2Proof.Machine

/-- `RAW` (41_engine R127): one draw, zero-extended. -/
def execRaw (s : State) : Result :=
  withEngine s none fun e => finish (draw e).2 (zext64 (draw e).1) false s

end Sys2Proof.Machine
end

