-- ==== Sys2Proof/Machine/Float64.lean ====
section
/-!
DEFINITION. The binary64 primitives of 00_scope R9, exactly. The definition of IEEE 754 is general
knowledge, not HNH's (R9, 93 G1): PRESUMED, log entry 14; unsafe.

A finite value is a whole number of units of 2^-1074 (`F64.fin`), so each operation computes its exact
result as a fraction of units and rounds once, to nearest with ties to even.
-/
namespace Sys2Proof.Machine

/-- 2^1074: how many units of 2^-1074 make 1. (Irreducible so that no tactic unrolls the power.) -/
@[irreducible] def unitsPerOne : Nat := 2 ^ 1074

/-- A magnitude that rounds to this or more overflows to infinity: 2^1024 in units of 2^-1074.
(Irreducible so that no tactic unrolls the power.) -/
@[irreducible] def overflowMag : Nat := 2 ^ 2098

/-- The unit in the last place at a magnitude: 53 significant bits, never below one unit of 2^-1074
(subnormals are kept: 00_scope R9, "no flush-to-zero"). -/
def ulpAt (mag : Nat) : Nat := 2 ^ (mag.log2 - 52)

/-- `num / den` units of 2^-1074, rounded to nearest with ties to even (00_scope R9), the exponent
unbounded above. -/
def roundMag (num den : Nat) : Nat :=
  let ulp := ulpAt (num / den)
  let step := den * ulp
  let k := num / step
  let rem := num % step
  if 2 * rem < step then k * ulp
  else if step < 2 * rem then (k + 1) * ulp
  else (k + k % 2) * ulp

/-- A fraction of units, with its sign, rounded to a binary64 value (00_scope R9). -/
def roundF64 (neg : Bool) (num den : Nat) : F64 :=
  let m := roundMag num den
  if overflowMag ≤ m then .inf neg else .fin neg m

/-- The value encoded by a 64-bit pattern (00_scope R9). -/
def f64 (b : DWord) : F64 :=
  let neg := b.msb
  let expo := b.toNat / 2 ^ 52 % 2 ^ 11
  let frac := b.toNat % 2 ^ 52
  if expo = 2047 then (if frac = 0 then .inf neg else .nan)
  else if expo = 0 then .fin neg frac
  else .fin neg ((2 ^ 52 + frac) * 2 ^ (expo - 1))

/-- Sign, biased exponent and fraction, put together as a pattern. -/
def packF64 (neg : Bool) (expo frac : Nat) : DWord :=
  BitVec.ofNat 64 (neg.toNat * 2 ^ 63 + expo * 2 ^ 52 + frac)

/-- The pattern of a value (00_scope R9). A not-a-number has an unnamed sign and payload: a free value
(DESIGN CHOICE, log entry 12; safe). -/
def enc64 (x : F64) : DWord :=
  match x with
  | .nan => 0x7FF8000000000000#64 ||| Config.nanPayload
  | .inf neg => packF64 neg 2047 0
  | .fin neg mag =>
    if mag < 2 ^ 52 then packF64 neg 0 mag
    else packF64 neg (mag.log2 - 51) (mag / ulpAt mag - 2 ^ 52)

/-- A finite value as a signed number of units. -/
def signedUnits (neg : Bool) (mag : Nat) : Int :=
  if neg then -(mag : Int) else (mag : Int)

/-- The binary64 value of an integer; exact for |n| < 2^53 (00_scope R9). -/
def toF64 (n : Int) : F64 :=
  roundF64 (decide (n < 0)) (n.natAbs * unitsPerOne) 1

/-- False exactly for the infinities and not-a-number (00_scope R9). -/
def isFinite (x : F64) : Bool :=
  match x with
  | .fin _ _ => true
  | _ => false

/-- The value with its sign changed. -/
def fneg (x : F64) : F64 :=
  match x with
  | .nan => .nan
  | .inf neg => .inf (!neg)
  | .fin neg mag => .fin (!neg) mag

/-- Addition, rounded once (00_scope R9). An exact zero sum is +0.0 unless both addends are negative zeros
(42_sampler R144: `+0 + −0 = +0`). -/
def fadd (x y : F64) : F64 :=
  match x, y with
  | .nan, _ => .nan
  | _, .nan => .nan
  | .inf a, .inf b => if a = b then .inf a else .nan
  | .inf a, .fin _ _ => .inf a
  | .fin _ _, .inf b => .inf b
  | .fin a m, .fin b n =>
    let z := signedUnits a m + signedUnits b n
    if z = 0 then .fin (a && b) 0 else roundF64 (decide (z < 0)) z.natAbs 1

/-- Subtraction (00_scope R9): the sum with the negated second operand, rounded once. -/
def fsub (x y : F64) : F64 := fadd x (fneg y)

/-- Multiplication, rounded once (00_scope R9). -/
def fmul (x y : F64) : F64 :=
  match x, y with
  | .nan, _ => .nan
  | _, .nan => .nan
  | .inf a, .inf b => .inf (a != b)
  | .inf a, .fin b n => if n = 0 then .nan else .inf (a != b)
  | .fin a m, .inf b => if m = 0 then .nan else .inf (a != b)
  | .fin a m, .fin b n => roundF64 (a != b) (m * n) unitsPerOne

/-- Division, rounded once (00_scope R9). -/
def fdiv (x y : F64) : F64 :=
  match x, y with
  | .nan, _ => .nan
  | _, .nan => .nan
  | .inf _, .inf _ => .nan
  | .inf a, .fin b _ => .inf (a != b)
  | .fin a _, .inf b => .fin (a != b) 0
  | .fin a m, .fin b n =>
    if n = 0 then (if m = 0 then .nan else .inf (a != b))
    else roundF64 (a != b) (m * unitsPerOne) n

/-- roundToIntegralTowardNegative (00_scope R9). -/
def ffloor (x : F64) : F64 :=
  match x with
  | .nan => .nan
  | .inf neg => .inf neg
  | .fin false mag => .fin false (mag / unitsPerOne * unitsPerOne)
  | .fin true mag => .fin true ((mag + unitsPerOne - 1) / unitsPerOne * unitsPerOne)

/-- The ordered comparison `x < y`: false when either side is NaN (00_scope R9). -/
def flt (x y : F64) : Bool :=
  match x, y with
  | .nan, _ => false
  | _, .nan => false
  | .inf a, .inf b => a && !b
  | .inf a, .fin _ _ => a
  | .fin _ _, .inf b => !b
  | .fin a m, .fin b n => decide (signedUnits a m < signedUnits b n)

/-- The ordered comparison `x > y` (00_scope R9). -/
def fgt (x y : F64) : Bool := flt y x

/-- The ordered comparison `x ≤ y` (00_scope R9). -/
def fle (x y : F64) : Bool :=
  match x, y with
  | .nan, _ => false
  | _, .nan => false
  | .inf a, .inf b => a || !b
  | .inf a, .fin _ _ => a
  | .fin _ _, .inf b => !b
  | .fin a m, .fin b n => decide (signedUnits a m ≤ signedUnits b n)

/-- +0.0. -/
def fzero : F64 := .fin false 0

/-- `CINV` = `fdiv(1.0, toF64(M))`: one rounded constant (42_sampler R140, 92 D8). -/
def cinv : F64 := fdiv (toF64 1) (toF64 (M : Int))

/-- `Unit(r)` = `fmul(toF64(r), CINV)` (42_sampler R140). -/
def unitOf (r : Int) : F64 := fmul (toF64 r) cinv

/-- `UMAX` = `Unit(M − 1)` (42_sampler R140). -/
def umax : F64 := unitOf ((M : Int) - 1)

end Sys2Proof.Machine
end

