-- ==== Sys2Proof/Machine/Operands.lean ====
section
/-!
DEFINITION. How each command reads `OPA` and `OPB` (30_encoding R64), and the operand checks that come
before any draw (42_sampler R142; 43_wide R171, R175, R176).
-/
namespace Sys2Proof.Machine

/-- `SEED`: `OPA[31:0]`; `OPA[63:32]` is ignored (30_encoding R64, 92 D24). -/
def seedOperand (s : State) : Word := loHalf s.opa

/-- `NEXT*`, `NEXTI*`: `min = f64(OPA)`. -/
def minF (s : State) : F64 := f64 s.opa

/-- `NEXT*`, `NEXTI*`: `max = f64(OPB)`. -/
def maxF (s : State) : F64 := f64 s.opb

/-- `LONG*`: `min = s64(OPA)`. -/
def minL (s : State) : Int := s64 s.opa

/-- `LONG*`: `max = s64(OPB)`. -/
def maxL (s : State) : Int := s64 s.opb

/-- `BYTES`: `dst = u64(OPA)`, a DMA byte address. -/
def dstAddr (s : State) : Nat := u64 s.opa

/-- `BYTES`: `n = OPB[31:0]`, unsigned; `OPB[63:32]` is ignored. -/
def byteCount (s : State) : Nat := (loHalf s.opb).toNat

/-- `CheckF(SHAPE)` (42_sampler R142): `none` where every check passes, else the first code raised. -/
def checkF (hasMin hasMax : Bool) (s : State) : Option ErrCode :=
  if hasMin && !isFinite (minF s) then some .operand
  else if hasMax && !isFinite (maxF s) then some .operand
  else if hasMin && hasMax then
    (if !fgt (maxF s) (minF s) then some .range
     else if !isFinite (fsub (maxF s) (minF s)) then some .range
     else none)
  else if hasMax then
    (if !fgt (maxF s) fzero then some .range else none)
  else none

/-- The range check of `LONG.MAX` (43_wide R175): `ERR_RANGE` unless `max > 0`. -/
def checkLongMax (s : State) : Option ErrCode :=
  if 0 < maxL s then none else some .range

/-- The range check of `LONG.MM` (43_wide R176): `ERR_RANGE` unless `max > min`. -/
def checkLongMm (s : State) : Option ErrCode :=
  if minL s < maxL s then none else some .range

/-- The address check of `BYTES` (43_wide R171, 20_memory R47): `ERR_ADDR` where the range leaves the DMA
space. -/
def checkBytes (s : State) : Option ErrCode :=
  if 2 ^ s.platform.addrW ≤ dstAddr s ∨ 2 ^ s.platform.addrW < dstAddr s + byteCount s then some .addr
  else none

end Sys2Proof.Machine
end

