-- ==== Sys2Proof/Machine/Initializer.lean ====
section
/-!
DEFINITION. The PRNG-state initializer, `SEED` and `SEEDR` (40_initializer).
-/
namespace Sys2Proof.Machine

/-- The subtraction value: 2^31 − 1 for the seed −2^31, else the magnitude (40_initializer R101). -/
def subtraction (seed : Word) : Word :=
  if seed = 0x80000000#32 then mWord
  else if seed.msb then -seed else seed

/-- `ii`, stepped by 21 and reduced by 55 (40_initializer R102; a conditional subtraction, 90 C5). -/
def nextScrambleIndex (ii : Nat) : Nat :=
  if ii + scrambleStep ≥ liveSlots then ii + scrambleStep - liveSlots else ii + scrambleStep

/-- `k` steps of the scrambling pass from `ii`, `mj`, `mk` (40_initializer R100, R102). `mj <- SB[ii]` reads
the value just stored, the old `mk`. -/
def scramble (k ii : Nat) (mj mk : Word) (sb : Vector Word 56) : Vector Word 56 :=
  match k with
  | 0 => sb
  | k + 1 =>
    let ii' := nextScrambleIndex ii
    let sb' := writeSlot sb ii' mk
    scramble k ii' (readSlot sb' ii') (addMIfNegative (mj - mk)) sb'

/-- The slot that slot `i` is reduced by: `1 + n`, with `n = i + 30` reduced by 55 (40_initializer R103). -/
def mixSource (i : Nat) : Nat :=
  1 + (if i + mixOffset ≥ liveSlots then i + mixOffset - liveSlots else i + mixOffset)

/-- One step of a mixing pass (40_initializer R103). -/
def mixSlot (sb : Vector Word 56) (i : Nat) : Vector Word 56 :=
  writeSlot sb i (addMIfNegative (readSlot sb i - readSlot sb (mixSource i)))

/-- The last `k` steps of a mixing pass, `i` ascending to 55 (40_initializer R103). -/
def mixPass (k : Nat) (sb : Vector Word 56) : Vector Word 56 :=
  match k with
  | 0 => sb
  | k + 1 => mixPass k (mixSlot sb (liveSlots - k))

/-- `p` full mixing passes (40_initializer R103). -/
def mixing (p : Nat) (sb : Vector Word 56) : Vector Word 56 :=
  match p with
  | 0 => sb
  | p + 1 => mixing p (mixPass liveSlots sb)

/-- The buffer before the scrambling pass: `SB[55] <- mj` (40_initializer R100). Every live slot is written
before it is read, so the zeros under it show in slot 0 alone (log entry 3). -/
def initialBuffer (mj : Word) : Vector Word 56 :=
  writeSlot (Vector.replicate 56 0#32) liveSlots mj

/-- `SB` after `InitState(seed)` (40_initializer R100). -/
def initBuffer (seed : Word) : Vector Word 56 :=
  let mj := magic - subtraction seed
  mixing mixPasses (scramble (liveSlots - 1) 0 mj 1#32 (initialBuffer mj))

/-- `InitState(seed)` (40_initializer R100, R104). -/
def initState (seed : Word) : Engine :=
  { sb := initBuffer seed, ca := caInit, cb := cbInit }

/-- Construction from a seed: the engine state, `SEEDED <- 1`, and the seed sign-extended in `RES`
(40_initializer R106, R107; 30_encoding R65). -/
def construct (seed : Word) (s : State) : Result :=
  finish (initState seed) (bits64 (s32 seed)) false s

/-- `SEED` (40_initializer R106). -/
def execSeed (s : State) : Result := construct (seedOperand s) s

/-- `SEEDR` (40_initializer R107): one word is taken from the entropy port. -/
def execSeedr (s : State) : Result := construct s.entropyNext s.takeEntropy

end Sys2Proof.Machine
end

