-- ==== Sys2Proof/Machine/Sampler.lean ====
section
/-!
DEFINITION. The unit and range samplers, `UNIT`, `NEXT*`, `NEXTI*` (42_sampler): one draw each.
-/
namespace Sys2Proof.Machine

/-- `UNIT` (42_sampler R141). -/
def execUnit (s : State) : Result :=
  withEngine s none fun e => finish (draw e).2 (enc64 (unitOf (s32 (draw e).1))) false s

/-- A `NEXT*` or `NEXTI*` command: its checks, one draw `r`, and the value `f r` of its rule (42_sampler R142
to R150). -/
def sampleShaped (hasMin hasMax : Bool) (f : Int → F64) (s : State) : Result :=
  withEngine s (checkF hasMin hasMax s) fun e =>
    finish (draw e).2 (enc64 (f (s32 (draw e).1))) false s

/-- `sample() * (max − min) + min`: the difference first, then the product, then the sum, each rounded
separately (42_sampler R146, 92 D12). -/
def betweenBounds (s : State) (r : Int) : F64 :=
  let d := fsub (maxF s) (minF s)
  fadd (fmul (unitOf r) d) (minF s)

/-- `NEXT` (42_sampler R143): the raw draw as an integer-valued double. -/
def execNext (s : State) : Result := sampleShaped false false (fun r => toF64 r) s

/-- `NEXT.MIN` (42_sampler R144): `sample() + min`. -/
def execNextMin (s : State) : Result := sampleShaped true false (fun r => fadd (unitOf r) (minF s)) s

/-- `NEXT.MAX` (42_sampler R145): `sample() * max`. -/
def execNextMax (s : State) : Result := sampleShaped false true (fun r => fmul (unitOf r) (maxF s)) s

/-- `NEXT.MM` (42_sampler R146): `sample() * (max − min) + min`. -/
def execNextMm (s : State) : Result := sampleShaped true true (fun r => betweenBounds s r) s

/-- `NEXTI` (42_sampler R147): `floor(next())`. -/
def execNexti (s : State) : Result := sampleShaped false false (fun r => ffloor (toF64 r)) s

/-- `NEXTI.MIN` (42_sampler R148): `floor(sample() + min)`. -/
def execNextiMin (s : State) : Result :=
  sampleShaped true false (fun r => ffloor (fadd (unitOf r) (minF s))) s

/-- `NEXTI.MAX` (42_sampler R149): `floor(sample() * max)`. -/
def execNextiMax (s : State) : Result :=
  sampleShaped false true (fun r => ffloor (fmul (unitOf r) (maxF s))) s

/-- `NEXTI.MM` (42_sampler R150): `floor(sample() * (max − min) + min)`. -/
def execNextiMm (s : State) : Result := sampleShaped true true (fun r => ffloor (betweenBounds s r)) s

end Sys2Proof.Machine
end

