-- ==== Sys2Proof/Machine/Flags.lean ====
section
/-!
DEFINITION. The flags: `WRAP` (43_wide R177), the code of `ERR` (60_exceptions R201), and the `STATUS` word
that shows them (10_state R29).
-/
namespace Sys2Proof.Machine

/-- `Wrap(z)`: 1 if `z < 0` or `z ≥ 2^64` (43_wide R177). -/
def wrapOf (z : Int) : Bool := decide (z < 0) || decide (18446744073709551616 ≤ z)

/-- The number of a completion code (60_exceptions R201). -/
def errNumber (c : ErrCode) : BitVec 4 :=
  match c with
  | .ok       => 0#4
  | .illegal  => 1#4
  | .unseeded => 2#4
  | .operand  => 3#4
  | .range    => 4#4
  | .addr     => 5#4

/-- The `STATUS` word (10_state R29): reserved 31:8 as 0, `ERR` 7:4, reserved 3:2 as 0, `WRAP` 1,
`SEEDED` 0. -/
def statusWord (s : State) : Word :=
  0#24 ++ errNumber s.err ++ 0#2 ++ BitVec.ofBool s.wrap ++ BitVec.ofBool s.isSeeded

end Sys2Proof.Machine
end

