-- ==== Sys2Proof/Machine/Wide.lean ====
section
/-!
DEFINITION. The byte fill and the wide integer sampler, `BYTES` and `LONG*` (43_wide).
-/
namespace Sys2Proof.Machine

/-- `BYTES` (43_wide R171): the checks, then `n` draws written in ascending order; `RES` and `WRAP` stay. A
write the platform memory does not admit leaves the command stuck in the state before it (20_memory R48;
DEDUCED, log entry 9; safe). -/
def execBytes (s : State) : Result :=
  withEngine s (checkBytes s) fun e =>
    if admitsAll s.platform (dstAddr s) (byteCount s) then
      .next (((s.setDma (fillBytes (byteCount s) (dstAddr s) s.dma e).1).setEngine
        (fillBytes (byteCount s) (dstAddr s) s.dma e).2).setErr .ok)
    else .fault .stuckDma

/-- `n` more draws of a wide value: `V + Byte(r) * 2^(8k)`, `k` rising (43_wide R172). -/
def wideFrom (n k v : Nat) (e : Engine) : Nat × Engine :=
  match n with
  | 0 => (v, e)
  | n + 1 =>
    let d := draw e
    wideFrom n (k + 1) (v + (byteOf d.1).toNat * 2 ^ (8 * k)) d.2

/-- `Wide()` (43_wide R172): 8 draws composed little-endian. -/
def wide (e : Engine) : Nat × Engine := wideFrom wideBytes 0 0 e

/-- A `LONG*` command: the check, 8 draws, and an integer result `f V` delivered as `bits64` with its `WRAP`
(43_wide R173 to R177). -/
def sampleWide (check : Option ErrCode) (f : Int → Int) (s : State) : Result :=
  withEngine s check fun e =>
    finish (wide e).2 (bits64 (f ((wide e).1 : Int))) (wrapOf (f ((wide e).1 : Int))) s

/-- `LONG` (43_wide R173). -/
def execLong (s : State) : Result := sampleWide none (fun v => v) s

/-- `LONG.MIN` (43_wide R174). -/
def execLongMin (s : State) : Result := sampleWide none (fun v => v + minL s) s

/-- `LONG.MAX` (43_wide R175). -/
def execLongMax (s : State) : Result :=
  sampleWide (checkLongMax s) (fun v => ((v % maxL s).natAbs : Int)) s

/-- `LONG.MM` (43_wide R176); `max − min` is exact, not reduced to 64 bits. -/
def execLongMm (s : State) : Result :=
  sampleWide (checkLongMm s) (fun v => ((v % (maxL s - minL s)).natAbs : Int) + minL s) s

end Sys2Proof.Machine
end

