-- ==== Sys2Proof/Machine/Dispatch.lean ====
section
/-! DEFINITION. The meaning of each command, one arm per constructor of `Instr`. -/
namespace Sys2Proof.Machine

def exec (i : Instr) (s : State) : Host.Outcome State Fault Refusal :=
  match i with
  | .seed => Sys2Proof.Machine.execSeed s
  | .seedr => Sys2Proof.Machine.execSeedr s
  | .raw => Sys2Proof.Machine.execRaw s
  | .unit => Sys2Proof.Machine.execUnit s
  | .next => Sys2Proof.Machine.execNext s
  | .nextMin => Sys2Proof.Machine.execNextMin s
  | .nextMax => Sys2Proof.Machine.execNextMax s
  | .nextMm => Sys2Proof.Machine.execNextMm s
  | .nexti => Sys2Proof.Machine.execNexti s
  | .nextiMin => Sys2Proof.Machine.execNextiMin s
  | .nextiMax => Sys2Proof.Machine.execNextiMax s
  | .nextiMm => Sys2Proof.Machine.execNextiMm s
  | .bytes => Sys2Proof.Machine.execBytes s
  | .long => Sys2Proof.Machine.execLong s
  | .longMin => Sys2Proof.Machine.execLongMin s
  | .longMax => Sys2Proof.Machine.execLongMax s
  | .longMm => Sys2Proof.Machine.execLongMm s

end Sys2Proof.Machine
end

