-- ==== Sys2Proof/Machine/Bus.lean ====
section
/-!
DEFINITION. The register port (20_memory R41 to R51): what each access does, what a write to `CMD` runs,
and the delivery of one event of the bus or the reset input.
-/
namespace Sys2Proof.Machine

/-- The value a read of an offset returns; `CMD` and the reserved offsets read as 0 (20_memory R41). -/
def portRead (s : State) (offset : Nat) : Word :=
  match regAt offset with
  | some .status => statusWord s
  | some .opaLo => loHalf s.opa
  | some .opaHi => hiHalf s.opa
  | some .opbLo => loHalf s.opb
  | some .opbHi => hiHalf s.opb
  | some .resLo => loHalf s.res
  | some .resHi => hiHalf s.res
  | some .cmd => 0#32
  | none => 0#32

/-- A command word executed: its command, or `ERR_ILLEGAL` (10_state R30, 60_exceptions R202). -/
def runCommand (w : Word) (s : State) : Result :=
  match decode w with
  | .ok i => exec i s
  | .error _ => reject .illegal s

/-- A write to an offset (20_memory R41, R43, R49): `CMD` runs a command, a half of `OPA` or `OPB` changes
alone, every other write is ignored. -/
def portWrite (s : State) (offset : Nat) (v : Word) : Result :=
  match regAt offset with
  | some .cmd => runCommand v s
  | some .opaLo => .next (s.setOpa (ofHalves (hiHalf s.opa) v))
  | some .opaHi => .next (s.setOpa (ofHalves v (loHalf s.opa)))
  | some .opbLo => .next (s.setOpb (ofHalves (hiHalf s.opb) v))
  | some .opbHi => .next (s.setOpb (ofHalves v (loHalf s.opb)))
  | some .status => .next s
  | some .resLo => .next s
  | some .resHi => .next s
  | none => .next s

/-- One access at the port. Outside the window it is not the block's (log entry 11; safe); one that is not
an aligned 32-bit access is refused (20_memory R42). -/
def busAccess (a : Access) (s : State) : Result :=
  if a.inWindow s.platform.regBase then
    if a.accepted s.platform.regBase then
      match a.kind with
      | .read => .next (s.logRead (portRead s (a.addr - s.platform.regBase)))
      | .write v => portWrite s (a.addr - s.platform.regBase) v
    else .refused .portAccess
  else .refused .outsideWindow

/-- The state a reset leaves when it aborts a stuck `BYTES` (70_reset R230): some of the bytes before the
first address that is not admitted may have been written, and those stay written. How many is a free value
(DEDUCED, log entry 10; safe). -/
def abortStuck (s : State) : State :=
  match s.gen with
  | .unseeded => s.resetBlock
  | .seeded e =>
    let room := admittedPrefix s.platform (dstAddr s) (byteCount s)
    let k := Config.stuckProgress s.freeTick % (room + 1)
    State.resetBlock { s with
      dma := (fillBytes k (dstAddr s) s.dma e).1
      freeTick := s.freeTick + 1 }

/-- What the bus or the reset input delivers next (20_memory R51, 70_reset R230). With nothing to deliver
the block waits (70_reset R232; log entry 6). A stuck command stops the machine, unless a reset is what comes
next: a reset "aborts a stuck `BYTES`" (70_reset R230). -/
def deliverNext (s : State) : Result :=
  match s.pending with
  | [] => .next s
  | .reset :: rest => .next (s.setPending rest).resetBlock
  | .access a :: .reset :: rest =>
    match busAccess a (s.setPending (.reset :: rest)) with
    | .fault .stuckDma => .next (abortStuck (s.setPending rest))
    | o => o
  | .access a :: rest => busAccess a (s.setPending rest)

/-- A write of a command word to `CMD`, as the bus delivers it (30_encoding R60, 20_memory R41). -/
def cmdWrite (p : Platform) (w : Word) : BusEvent :=
  .access { kind := .write w, addr := p.regBase + regOffset .cmd, size := 4 }

end Sys2Proof.Machine
end

