-- ==== Sys2Proof/Machine/Step.lean ====
section
/-!
DEFINITION. One step of the machine: the next register access or reset takes effect (20_memory R51).
-/
namespace Sys2Proof.Machine

/-- One step: the next event of the bus or the reset input. -/
def step (s : State) : Host.Outcome State Fault Refusal := deliverNext s

/-- `s` with a command of `nbits` bits `w` as the next word written to `CMD`: the block fetches nothing
(20_memory R54), so a command comes to run by being the next access delivered (log entry 6). -/
def State.withFetchWord (s : State) (nbits w : Nat) : State :=
  s.setPending (cmdWrite s.platform (BitVec.ofNat 32 (w % 2 ^ nbits)) :: s.pending)

end Sys2Proof.Machine
end

