-- ==== Sys2Proof/Machine/Script.lean ====
section
/-!
DEFINITION. Host scripts: the one-access lines of 30_encoding R68 and the pseudo-commands of R69, as lists
of bus events.
-/
namespace Sys2Proof.Machine

/-- `wr REG, value` (30_encoding R68). -/
def wr (p : Platform) (r : Reg) (v : Word) : BusEvent :=
  .access { kind := .write v, addr := p.regBase + regOffset r, size := 4 }

/-- `rd REG` (30_encoding R68). -/
def rd (p : Platform) (r : Reg) : BusEvent :=
  .access { kind := .read, addr := p.regBase + regOffset r, size := 4 }

/-- `cmd MNEMONIC` (30_encoding R68). -/
def cmd (p : Platform) (i : Instr) : BusEvent := cmdWrite p (encode i)

/-- `cmd .word 0xHHHHHHHH` (30_encoding R68). -/
def cmdWord (p : Platform) (w : Word) : BusEvent := cmdWrite p w

/-- Both halves of `OPA`, low half first (30_encoding R69). -/
def wrOpa (p : Platform) (v : DWord) : List BusEvent := [wr p .opaLo (loHalf v), wr p .opaHi (hiHalf v)]

/-- Both halves of `OPB`, low half first (30_encoding R69). -/
def wrOpb (p : Platform) (v : DWord) : List BusEvent := [wr p .opbLo (loHalf v), wr p .opbHi (hiHalf v)]

/-- `rd RES_LO`; `rd RES_HI` (30_encoding R69). -/
def rdRes (p : Platform) : List BusEvent := [rd p .resLo, rd p .resHi]

/-- The operand writes of an optional bound (30_encoding R69: "for each operand present"). -/
def wrBound (w : DWord → List BusEvent) (v : Option DWord) : List BusEvent :=
  match v with
  | some x => w x
  | none => []

/-- `create seed` (30_encoding R69). -/
def createSeed (p : Platform) (seed : Word) : List BusEvent := [wr p .opaLo seed, cmd p .seed]

/-- `create` (30_encoding R69). -/
def createAmbient (p : Platform) : List BusEvent := [cmd p .seedr]

/-- `internalSample` (30_encoding R69). -/
def internalSample (p : Platform) : List BusEvent := [cmd p .raw, rd p .resLo]

/-- `sample` and `nextDouble` (30_encoding R69). -/
def sampleScript (p : Platform) : List BusEvent := cmd p .unit :: rdRes p

/-- The command of a shape: which of four, by the bounds present (30_encoding R60, R69). -/
def shapeOf (none' min max both : Instr) (a b : Option DWord) : Instr :=
  match a, b with
  | none, none => none'
  | some _, none => min
  | none, some _ => max
  | some _, some _ => both

/-- `next`, `next.min a`, `next.max b`, `next a, b` (30_encoding R69). -/
def nextScript (p : Platform) (a b : Option DWord) : List BusEvent :=
  wrBound (wrOpa p) a ++ wrBound (wrOpb p) b ++
    [cmd p (shapeOf .next .nextMin .nextMax .nextMm a b)] ++ rdRes p

/-- `nextInteger …` (30_encoding R69). -/
def nextIntegerScript (p : Platform) (a b : Option DWord) : List BusEvent :=
  wrBound (wrOpa p) a ++ wrBound (wrOpb p) b ++
    [cmd p (shapeOf .nexti .nextiMin .nextiMax .nextiMm a b)] ++ rdRes p

/-- `nextBytes dst, n` (30_encoding R69). -/
def nextBytesScript (p : Platform) (dst : DWord) (n : Word) : List BusEvent :=
  wrOpa p dst ++ [wr p .opbLo n, cmd p .bytes]

/-- `nextLong …` (30_encoding R69). -/
def nextLongScript (p : Platform) (a b : Option DWord) : List BusEvent :=
  wrBound (wrOpa p) a ++ wrBound (wrOpb p) b ++
    [cmd p (shapeOf .long .longMin .longMax .longMm a b)] ++ rdRes p

end Sys2Proof.Machine
end

