-- ==== Sys2Proof/Safety.lean ====
section
/-!
DEFINITION. What counts as a good state (10_state R24), and the terms the statements are written in: the
draw and the initializer over unbounded integers with an explicit wrap (41_engine R120, 40_initializer R100),
correct rounding (00_scope R9), and which completion code a command word earns (60_exceptions R201 to R207).
None of the terms here is used by the machine; a statement that relates the two says something about it.
-/
namespace Sys2Proof.Machine

/-! ### Good states -/

/-- Slot `i` read as the signed integer it is (10_state R20). -/
def Engine.slot (e : Engine) (i : Nat) : Int := s32 (readSlot e.sb i)

/-- 10_state R24(a): `0 ≤ SB[i] < M` for every live slot. -/
abbrev Engine.SlotsInRange (e : Engine) : Prop :=
  ∀ i : Fin 56, 1 ≤ i.val → 0 ≤ e.slot i.val ∧ e.slot i.val < (M : Int)

/-- 10_state R24(b): either `CA = 0` and `CB = 21`, or `CA` is in [1, 55] and `CB = ((CA + 20) mod 55) + 1`. -/
abbrev Engine.CursorsInStep (e : Engine) : Prop :=
  (e.ca.val = 0 ∧ e.cb.val = 21) ∨
    (1 ≤ e.ca.val ∧ e.ca.val ≤ 55 ∧ e.cb.val = (e.ca.val + 20) % 55 + 1)

/-- 10_state R24(a) and (b) of a constructed generator. -/
abbrev Engine.Inv (e : Engine) : Prop := e.SlotsInRange ∧ e.CursorsInStep

/-- 10_state R24 while `SEEDED = 1`; nothing is asked while it is 0. -/
def Generator.Inv (g : Generator) : Prop :=
  match g with
  | .unseeded => True
  | .seeded e => e.Inv

/-- Every listed byte lies inside the DMA space (20_memory R40). -/
def DmaInSpace (s : State) : Prop := ∀ c ∈ s.dma, c.1 < 2 ^ s.platform.addrW

/-- A good state: 10_state R24, the DMA space in canonical form and inside its 2^`ADDR_W` bytes, and a
platform whose parameters are legal (00_scope R6). -/
structure State.Inv (s : State) : Prop where
  generator : s.gen.Inv
  dmaCanonical : Memory.wf s.dma = true
  dmaInSpace : DmaInSpace s
  platform : s.platform.wellFormed = true

/-- A step that neither faulted nor was refused. -/
def isNext (r : Result) : Bool :=
  match r with
  | .next _ => true
  | .fault _ => false
  | .refused _ => false

/-! ### The draw over unbounded integers -/

/-- `w32(v)` (00_scope R8): the representative of `v` modulo 2^32 in [−2^31, 2^31). -/
def w32 (v : Int) : Int := v.bmod 4294967296

/-- A cursor after one step (41_engine R120). -/
def cursorAfter (c : Nat) : Nat := if c + 1 ≥ 56 then 1 else c + 1

/-- The value of a draw from the two slots it reads, over the integers (41_engine R120). -/
def drawnInt (a b : Int) : Int :=
  let r := w32 (a - b)
  let r' := if r = (M : Int) then r - 1 else r
  if r' < 0 then w32 (r' + (M : Int)) else r'

/-- `Draw()` as 41_engine R120 writes it, as a relation: from `e` it returns `r` and leaves `e'`. -/
structure DrawRule (e : Engine) (r : Int) (e' : Engine) : Prop where
  ca : e'.ca.val = cursorAfter e.ca.val
  cb : e'.cb.val = cursorAfter e.cb.val
  value : r = drawnInt (e.slot (cursorAfter e.ca.val)) (e.slot (cursorAfter e.cb.val))
  written : e'.slot (cursorAfter e.ca.val) = r
  kept : ∀ i, i < 56 → i ≠ cursorAfter e.ca.val → e'.slot i = e.slot i

/-- The engine after `n` draws. -/
def drawMany (n : Nat) (e : Engine) : Engine :=
  match n with
  | 0 => e
  | k + 1 => drawMany k (draw e).2

/-- The value of draw `k`, counted from 0. -/
def drawAt (k : Nat) (e : Engine) : Word := (draw (drawMany k e)).1

/-- The wide value as 43_wide R172 composes it: byte `k` of draw `k`, the first the least significant. -/
def wideValue (e : Engine) : Nat :=
  ((List.range 8).map fun k => (byteOf (drawAt k e)).toNat * 256 ^ k).sum

/-! ### The initializer over unbounded integers (40_initializer R100) -/

/-- "If negative, add `M`", over the integers with its wrap. -/
def fixInt (v : Int) : Int := if v < 0 then w32 (v + (M : Int)) else v

/-- `k` steps of the scrambling pass (40_initializer R100), the buffer a list of 56 integers. -/
def scrambleInt (k ii : Nat) (mj mk : Int) (sb : List Int) : List Int :=
  match k with
  | 0 => sb
  | k + 1 =>
    let ii' := if ii + 21 ≥ 55 then ii + 21 - 55 else ii + 21
    scrambleInt k ii' mk (fixInt (w32 (mj - mk))) (sb.set ii' mk)

/-- Steps `i` to `i + k - 1` of a mixing pass (40_initializer R100). -/
def mixInt (k i : Nat) (sb : List Int) : List Int :=
  match k with
  | 0 => sb
  | k + 1 =>
    let n := if i + 30 ≥ 55 then i + 30 - 55 else i + 30
    mixInt k (i + 1) (sb.set i (fixInt (w32 (sb.getD i 0 - sb.getD (1 + n) 0))))

/-- `InitState(seed)` over the integers: the buffer it leaves (40_initializer R100). -/
def initInt (seed : Int) : List Int :=
  let sub : Int := if seed = -2147483648 then 2147483647 else (seed.natAbs : Int)
  let mj := w32 (161803398 - sub)
  let scrambled := scrambleInt 54 0 mj 1 ((List.replicate 56 0).set 55 mj)
  mixInt 55 1 (mixInt 55 1 (mixInt 55 1 (mixInt 55 1 scrambled)))

/-! ### Binary64 in exact terms (00_scope R9) -/

/-- A magnitude with at most 53 significant bits, in units of 2^-1074, the exponent unbounded above. -/
def Representable (m : Nat) : Prop := ∃ k j, k < 2 ^ 53 ∧ m = k * 2 ^ j

/-- `m` is the representable magnitude nearest to `num / den`, and on a tie the one whose significand is
even: roundTiesToEven. -/
structure NearestEven (num den m : Nat) : Prop where
  representable : Representable m
  nearest : ∀ m', Representable m' →
    ((num : Int) - m * den).natAbs ≤ ((num : Int) - m' * den).natAbs
  tie : ∀ m', Representable m' → m' ≠ m →
    ((num : Int) - m * den).natAbs = ((num : Int) - m' * den).natAbs → m / ulpAt m % 2 = 0

/-- `y` is the number `num / den` units, with its sign, rounded to binary64: an infinity where the nearest
magnitude reaches 2^1024. -/
def RoundsTo (neg : Bool) (num den : Nat) (y : F64) : Prop :=
  ∃ m, NearestEven num den m ∧ y = if overflowMag ≤ m then .inf neg else .fin neg m

/-- Where a value stands in the order of the numbers, in units of 2^-1074, the infinities at the two ends;
not-a-number stands nowhere. -/
def placeOf (x : F64) : Option (WithBot (WithTop Int)) :=
  match x with
  | .nan => none
  | .inf true => some ⊥
  | .inf false => some ((⊤ : WithTop Int) : WithBot (WithTop Int))
  | .fin neg mag => some (((signedUnits neg mag : Int) : WithTop Int) : WithBot (WithTop Int))

/-- The two values are the same number; +0.0 and −0.0 are. -/
def SameNumber (x y : F64) : Prop := fle x y = true ∧ fle y x = true

/-! ### Completion codes (60_exceptions R201 to R207) -/

/-- The commands that read `min` as binary64 (30_encoding R63, R64). -/
def readsMinF (i : Instr) : Bool :=
  i == .nextMin || i == .nextMm || i == .nextiMin || i == .nextiMm

/-- The commands that read `max` as binary64 (30_encoding R63, R64). -/
def readsMaxF (i : Instr) : Bool :=
  i == .nextMax || i == .nextMm || i == .nextiMax || i == .nextiMm

/-- The commands that read any of `OPA` (30_encoding R64). -/
def readsOpa (i : Instr) : Bool :=
  readsMinF i || i == .seed || i == .bytes || i == .longMin || i == .longMm

/-- The commands that read any of `OPB` (30_encoding R64). -/
def readsOpb (i : Instr) : Bool :=
  readsMaxF i || i == .bytes || i == .longMax || i == .longMm

/-- The cause of `ERR_OPERAND` (60_exceptions R204). -/
def OperandError (i : Instr) (s : State) : Prop :=
  (readsMinF i = true ∧ isFinite (f64 s.opa) = false) ∨ (readsMaxF i = true ∧ isFinite (f64 s.opb) = false)

/-- The cause of `ERR_RANGE` (60_exceptions R205). -/
def RangeError (i : Instr) (s : State) : Prop :=
  ((i = .nextMm ∨ i = .nextiMm) ∧
    (fgt (f64 s.opb) (f64 s.opa) = false ∨ isFinite (fsub (f64 s.opb) (f64 s.opa)) = false)) ∨
  ((i = .nextMax ∨ i = .nextiMax) ∧ fgt (f64 s.opb) fzero = false) ∨
  (i = .longMm ∧ s.opb.toInt ≤ s.opa.toInt) ∨
  (i = .longMax ∧ s.opb.toInt ≤ 0)

/-- The cause of `ERR_ADDR` (60_exceptions R206). -/
def AddrError (i : Instr) (s : State) : Prop :=
  i = .bytes ∧ (2 ^ s.platform.addrW ≤ s.opa.toNat ∨
    2 ^ s.platform.addrW < s.opa.toNat + s.opb.toNat % 4294967296)

/-- `ERR_UNSEEDED` comes from every legal command except `SEED` and `SEEDR` (60_exceptions R203). -/
def UnseededError (i : Instr) (s : State) : Prop :=
  i ≠ .seed ∧ i ≠ .seedr ∧ s.gen = .unseeded

/-- The first condition that applies, in the order of 60_exceptions R207, is the one of code `c`; `ok` where
none applies. -/
def EarnsCode (i : Instr) (s : State) (c : ErrCode) : Prop :=
  match c with
  | .illegal => False
  | .unseeded => UnseededError i s
  | .operand => ¬ UnseededError i s ∧ OperandError i s
  | .range => ¬ UnseededError i s ∧ ¬ OperandError i s ∧ RangeError i s
  | .addr => ¬ UnseededError i s ∧ ¬ OperandError i s ∧ ¬ RangeError i s ∧ AddrError i s
  | .ok => ¬ UnseededError i s ∧ ¬ OperandError i s ∧ ¬ RangeError i s ∧ ¬ AddrError i s

/-- 60_exceptions R202, on the bits of the word: a reserved bit 31:6 is set; `OP` is 0x0 or 0x9 to 0xF; or
`SHAPE ≠ 0` on `SEED`, `SEEDR`, `RAW`, `UNIT` or `BYTES`. -/
def IllegalWord (w : Word) : Prop :=
  w.toNat / 64 ≠ 0 ∨ (w.toNat % 16 = 0 ∨ 9 ≤ w.toNat % 16) ∨
    (w.toNat / 16 % 4 ≠ 0 ∧ w.toNat % 16 ∈ [1, 2, 3, 4, 7])

/-! ### Runs of commands -/

/-- Commands one after another, as a host issues them; it stops at the first fault or refusal. -/
def runCommands (cs : List Instr) (s : State) : Result :=
  match cs with
  | [] => .next s
  | i :: rest =>
    match exec i s with
    | .next t => runCommands rest t
    | .fault f => .fault f
    | .refused r => .refused r

/-- The draws a command makes when it completes (10_state R35). -/
def drawCount (i : Instr) (s : State) : Nat :=
  match i with
  | .seed | .seedr => 0
  | .bytes => s.opb.toNat % 4294967296
  | .long | .longMin | .longMax | .longMm => 8
  | .raw | .unit | .next | .nextMin | .nextMax | .nextMm | .nexti | .nextiMin | .nextiMax | .nextiMm => 1

/-- The draws of a run of commands: a command that ends in an error makes none (60_exceptions R208). -/
def totalDraws (cs : List Instr) (s : State) : Nat :=
  match cs with
  | [] => 0
  | i :: rest =>
    match exec i s with
    | .next t => (if t.err = .ok then drawCount i s else 0) + totalDraws rest t
    | .fault _ => 0
    | .refused _ => 0

/-- The integer that `RES` and `WRAP` report after a `LONG*` (43_wide R177). -/
def reportedLong (s : State) : Int :=
  if s.wrap then (if s.res.msb then s.res.toInt else (s.res.toNat : Int) + 18446744073709551616)
  else (s.res.toNat : Int)

/-- The exact integer result of a `LONG*` from the engine `e`, before it is delivered (43_wide R173 to R176);
`none` for every other command. -/
def longResult (i : Instr) (s : State) (e : Engine) : Option Int :=
  match i with
  | .long => some (wideValue e)
  | .longMin => some ((wideValue e : Int) + s.opa.toInt)
  | .longMax => some ((wideValue e : Int) % s.opb.toInt)
  | .longMm => some ((wideValue e : Int) % (s.opb.toInt - s.opa.toInt) + s.opa.toInt)
  | .seed | .seedr | .raw | .unit | .next | .nextMin | .nextMax | .nextMm | .nexti | .nextiMin | .nextiMax
  | .nextiMm | .bytes => none

/-- `n` steps; it stops at the first fault or refusal. -/
def runSteps (n : Nat) (s : State) : Result :=
  match n with
  | 0 => .next s
  | k + 1 =>
    match step s with
    | .next t => runSteps k t
    | .fault f => .fault f
    | .refused r => .refused r

/-- Two states that a host cannot tell apart by `STATUS`, `RES`, the operands or what the block will do:
they agree on all but the DMA bytes, the bus and the values already read. -/
structure SameBlock (s t : State) : Prop where
  gen : s.gen = t.gen
  opa : s.opa = t.opa
  opb : s.opb = t.opb
  res : s.res = t.res
  wrap : s.wrap = t.wrap
  err : s.err = t.err
  platform : s.platform = t.platform
  entropy : s.entropy = t.entropy
  freeTick : s.freeTick = t.freeTick

/-- Two outcomes that agree: next states that agree on the block, or the same stop. -/
def SameOutcome (a b : Result) : Prop :=
  match a, b with
  | .next s, .next t => SameBlock s t
  | .fault f, .fault g => f = g
  | .refused q, .refused r => q = r
  | _, _ => False

/-- At each DMA address the two runs, from `m₁` to `n₁` and from `m₂` to `n₂`, left the same byte, or neither
wrote one. -/
def SameDmaWrites (m₁ m₂ n₁ n₂ : Memory) : Prop :=
  ∀ a, Memory.read n₁ a = Memory.read n₂ a ∨
    (Memory.read n₁ a = Memory.read m₁ a ∧ Memory.read n₂ a = Memory.read m₂ a)

/-- The runs from `s₁` to `t₁` and from `s₂` to `t₂` agree on all a host can see of them: the block, the events
still to come, the values read, the DMA bytes written. -/
structure SameRun (s₁ s₂ t₁ t₂ : State) : Prop where
  block : SameBlock t₁ t₂
  pending : t₁.pending = t₂.pending
  reads : ∃ l, t₁.readLog = l ++ s₁.readLog ∧ t₂.readLog = l ++ s₂.readLog
  dma : SameDmaWrites s₁.dma s₂.dma t₁.dma t₂.dma

/-- Two outcomes of runs from `s₁` and `s₂` that agree: next states as in `SameRun`, or the same stop. -/
def SameRunOutcome (s₁ s₂ : State) (a b : Result) : Prop :=
  match a, b with
  | .next t₁, .next t₂ => SameRun s₁ s₂ t₁ t₂
  | .fault f, .fault g => f = g
  | .refused q, .refused r => q = r
  | _, _ => False

/-- The same outcome with `OPA` replaced in its next state. -/
def withOpa (v : DWord) (r : Result) : Result :=
  match r with
  | .next s => .next (s.setOpa v)
  | .fault f => .fault f
  | .refused q => .refused q

/-- The same outcome with `OPB` replaced in its next state. -/
def withOpb (v : DWord) (r : Result) : Result :=
  match r with
  | .next s => .next (s.setOpb v)
  | .fault f => .fault f
  | .refused q => .refused q

/-- The value 20_memory R41 gives a read of a word offset, as a number. -/
def mapValue (s : State) (offset : Nat) : Nat :=
  if offset = 4 then s.isSeeded.toNat + 2 * s.wrap.toNat + 16 * (errNumber s.err).toNat
  else if offset = 8 then s.opa.toNat % 4294967296
  else if offset = 12 then s.opa.toNat / 4294967296
  else if offset = 16 then s.opb.toNat % 4294967296
  else if offset = 20 then s.opb.toNat / 4294967296
  else if offset = 24 then s.res.toNat % 4294967296
  else if offset = 28 then s.res.toNat / 4294967296
  else 0

end Sys2Proof.Machine
end

