-- ==== Sys2Proof/Certificates/Slice0/Obligations.lean ====
section
/-!
DEFINITION. The statements about the machine, for the provers. Each names the rule or section of spec/ it
formalises; OBLIGATIONS.json lists them.
-/
open Sys2Proof Sys2Proof.Machine

/-! ### Reset and the delivery of events -/

/-- 10_state R31: the state after reset. -/
def Obligations.ResetLeavesSpecifiedValues : Prop :=
  State.reset.gen = .unseeded ∧ State.reset.isSeeded = false ∧ State.reset.wrap = false ∧
    State.reset.err = .ok ∧ State.reset.opa = 0#64 ∧ State.reset.opb = 0#64 ∧ State.reset.res = 0#64

/-- 70_reset R230: the reset input puts the block at its reset values; DMA bytes, platform and entropy port
stay. That events come from a list is the model's choice (log entry 6). -/
def Obligations.ResetInputClearsBlock : Prop :=
  ∀ (s : State) (rest : List BusEvent), s.pending = .reset :: rest →
    step s = .next { s with
      gen := .unseeded, opa := 0#64, opb := 0#64, res := 0#64, wrap := false, err := .ok, pending := rest }

/-- 70_reset R230: a reset aborts a stuck `BYTES`. That the DMA bytes left behind are a prefix of the fill is
the model's reading (log entry 10). -/
def Obligations.ResetAbortsStuckBytes : Prop :=
  ∀ (s : State) (e : Engine) (rest : List BusEvent),
    s.pending = cmdWrite s.platform (encode .bytes) :: .reset :: rest → s.gen = .seeded e →
    exec .bytes (s.setPending (.reset :: rest)) = .fault .stuckDma →
    ∃ t k, step s = .next t ∧ t.gen = .unseeded ∧ statusWord t = 0#32 ∧ t.opa = 0#64 ∧ t.opb = 0#64 ∧
      t.res = 0#64 ∧ t.platform = s.platform ∧ t.entropy = s.entropy ∧ t.pending = rest ∧
      t.readLog = s.readLog ∧ k ≤ admittedPrefix s.platform s.opa.toNat (s.opb.toNat % 4294967296) ∧
      t.dma = (fillBytes k s.opa.toNat s.dma e).1

/-- 70_reset section 1 (R232): after reset the block waits for register accesses. That waiting is a step which changes
nothing is the model's choice (log entry 6). -/
def Obligations.IdleBlockWaits : Prop :=
  ∀ s : State, s.pending = [] → step s = .next s

/-- 10_state section 2 (R30): each `CMD` write is decoded and executed as one step; a read of `CMD` returns 0. A
command that a following reset aborts is the one exception (70_reset R230). That events come from a list, and
that the value read goes to one, is the model's choice (log entries 6 and 7). -/
def Obligations.StepRunsDecodedCommand : Prop :=
  ∀ (s : State) (rest : List BusEvent),
    (∀ w i, s.pending = cmdWrite s.platform w :: rest → decode w = .ok i →
      (rest.head? ≠ some .reset ∨ exec i (s.setPending rest) ≠ .fault .stuckDma) →
      step s = exec i (s.setPending rest)) ∧
    (∀ w x, s.pending = cmdWrite s.platform w :: rest → decode w = .error x →
      step s = .next { s with pending := rest, err := .illegal }) ∧
    (s.pending = rd s.platform .cmd :: rest →
      step s = .next { s with pending := rest, readLog := 0#32 :: s.readLog })

/-! ### Encoding -/

/-- 60_exceptions R202: which words are illegal, and that one sets `ERR_ILLEGAL` whatever `SEEDED` is. -/
def Obligations.IllegalWordSetsErrIllegal : Prop :=
  ∀ (s : State) (w : Word) (rest : List BusEvent), IllegalWord w →
    s.pending = cmdWrite s.platform w :: rest →
    step s = .next { s with pending := rest, err := .illegal }

/-- 30_encoding section 2: decoding and encoding agree, both ways, over all 2^32 words. -/
def Obligations.DecodeExactlyInvertsEncode : Prop :=
  ∀ (w : Word) (i : Instr), decode w = .ok i ↔ w = encode i

/-- 30_encoding R62: the 17 legal words are exactly those listed, each with its command. -/
def Obligations.LegalWordsAreTheSeventeen : Prop :=
  (∀ w : Word, (∃ i, decode w = .ok i) ↔
    w.toNat ∈ [0x01, 0x02, 0x03, 0x04, 0x05, 0x15, 0x25, 0x35, 0x06, 0x16, 0x26, 0x36, 0x07,
      0x08, 0x18, 0x28, 0x38]) ∧
  [Instr.seed, .seedr, .raw, .unit, .next, .nextMin, .nextMax, .nextMm, .nexti, .nextiMin, .nextiMax,
      .nextiMm, .bytes, .long, .longMin, .longMax, .longMm].map encode =
    [0x01#32, 0x02#32, 0x03#32, 0x04#32, 0x05#32, 0x15#32, 0x25#32, 0x35#32, 0x06#32, 0x16#32, 0x26#32,
      0x36#32, 0x07#32, 0x08#32, 0x18#32, 0x28#32, 0x38#32]

/-- 30_encoding section 2: some words, written out bit by bit, and the commands they stand for. -/
def Obligations.WrittenOutWordsDecode : Prop :=
  decode 0b00000000000000000000000000000001#32 = .ok .seed ∧
  decode 0b00000000000000000000000000000011#32 = .ok .raw ∧
  decode 0b00000000000000000000000000110101#32 = .ok .nextMm ∧
  decode 0b00000000000000000000000000010110#32 = .ok .nextiMin ∧
  decode 0b00000000000000000000000000000111#32 = .ok .bytes ∧
  decode 0b00000000000000000000000000101000#32 = .ok .longMax

/-! ### The draw step -/

/-- 41_engine R120, R123: `draw` is the rule's procedure over the integers with the wrap `w32`; it writes one
slot and both cursors. -/
def Obligations.DrawFollowsIntegerRule : Prop :=
  ∀ e : Engine, DrawRule e (draw e).1.toInt (draw e).2

/-- 41_engine R124. -/
def Obligations.DrawKeepsEngineInvariant : Prop :=
  ∀ e : Engine, e.Inv → 0 ≤ (draw e).1.toInt ∧ (draw e).1.toInt < (M : Int) ∧ (draw e).2.Inv

/-- 41_engine section 1 (R122): under the invariant, a draw is the difference of its two slots modulo `M`. -/
def Obligations.DrawIsDifferenceModuloM : Prop :=
  ∀ e : Engine, e.Inv →
    (draw e).1.toInt =
      (e.slot (cursorAfter e.ca.val) - e.slot (cursorAfter e.cb.val)) % (M : Int)

/-- 41_engine R125: the cursors after `k` draws, and what draw `k` overwrites. -/
def Obligations.CursorLaw : Prop :=
  ∀ (seed : Word) (k : Nat), 1 ≤ k →
    (drawMany k (initState seed)).ca.val = (k - 1) % 55 + 1 ∧
    (drawMany k (initState seed)).cb.val = (k + 20) % 55 + 1 ∧
    (drawMany k (initState seed)).slot ((k - 1) % 55 + 1) =
      drawnInt ((drawMany (k - 1) (initState seed)).slot ((k - 1) % 55 + 1))
        ((drawMany (k - 1) (initState seed)).slot ((k + 20) % 55 + 1)) ∧
    ∀ i, i < 56 → i ≠ (k - 1) % 55 + 1 →
      (drawMany k (initState seed)).slot i = (drawMany (k - 1) (initState seed)).slot i

/-! ### The initializer -/

/-- 40_initializer R100: `InitState(seed)` is the procedure over the integers with the wrap `w32`. -/
def Obligations.InitStateMatchesIntegerProcedure : Prop :=
  ∀ seed : Word, (∀ i, 1 ≤ i → i ≤ 55 → (initState seed).slot i = (initInt seed.toInt).getD i 0) ∧
    (initState seed).ca.val = 0 ∧ (initState seed).cb.val = 21

/-- 40_initializer R101: the subtraction value, and the seeds that give identical states. -/
def Obligations.EqualSubtractionEqualState : Prop :=
  (∀ seed : Word, (subtraction seed).toNat =
      (if seed.toInt = -2147483648 then 2147483647 else seed.toInt.natAbs) ∧
    (subtraction seed).toNat ≤ 2147483647 ∧ initState (-seed) = initState seed) ∧
  initState 0x80000000#32 = initState 0x7FFFFFFF#32

/-- 40_initializer section 1 (R102): `ii` equals `(21·i) mod 55` and visits each of 1..54 exactly once. -/
def Obligations.ScrambleVisitsEachSlotOnce : Prop :=
  (∀ i, i ≤ 54 → nextScrambleIndex^[i] 0 = 21 * i % 55) ∧
  (∀ j, 1 ≤ j → j ≤ 54 → ∃! i, (1 ≤ i ∧ i ≤ 54) ∧ nextScrambleIndex^[i] 0 = j)

/-- 40_initializer R109: after construction every live slot lies in [0, M), for every 32-bit seed, with the
cursors of R24(b). -/
def Obligations.ConstructionMeetsInvariant : Prop :=
  ∀ seed : Word, (initState seed).Inv

/-- 40_initializer section 2 (SEED): it always completes. -/
def Obligations.SeedCompletes : Prop :=
  ∀ s : State, exec .seed s = .next { s with
    gen := .seeded (initState (s.opa.extractLsb' 0 32))
    res := (s.opa.extractLsb' 0 32).signExtend 64, wrap := false, err := .ok }

/-- 40_initializer section 2 (SEEDR): it always completes, taking one word: any placed word, or any value of
the free word (log entry 4). -/
def Obligations.SeedrTakesOneWord : Prop :=
  (∀ (s : State) (e : Word) (rest : List Word), s.entropy = e :: rest →
    exec .seedr s = .next { s with
      gen := .seeded (initState e), res := e.signExtend 64, wrap := false, err := .ok, entropy := rest }) ∧
  (∀ s : State, s.entropy = [] →
    exec .seedr s = .next { s with
      gen := .seeded (initState (Config.entropyWord s.freeTick))
      res := (Config.entropyWord s.freeTick).signExtend 64
      wrap := false, err := .ok, freeTick := s.freeTick + 1 })

/-- 40_initializer R108: two `SEED` commands with the same seed, each followed by the same commands, give the
same outputs, whatever happened before each: the same block, and at each DMA address the same byte or none
written. The second clause says it of any bus events after the `SEED`: commands, writes of operands, reads,
resets (which come from a list, log entry 6; the values read go to one, log entry 7). -/
def Obligations.SeedingDiscardsHistory : Prop :=
  (∀ (s₁ s₂ : State) (cs : List Instr), s₁.opa = s₂.opa → s₁.opb = s₂.opb → s₁.platform = s₂.platform →
    s₁.entropy = s₂.entropy → s₁.freeTick = s₂.freeTick →
    SameOutcome (runCommands (.seed :: cs) s₁) (runCommands (.seed :: cs) s₂) ∧
    ∀ t₁ t₂, runCommands (.seed :: cs) s₁ = .next t₁ → runCommands (.seed :: cs) s₂ = .next t₂ →
      SameDmaWrites s₁.dma s₂.dma t₁.dma t₂.dma) ∧
  (∀ (s₁ s₂ : State) (evs : List BusEvent) (n : Nat), s₁.opa = s₂.opa → s₁.opb = s₂.opb →
    s₁.platform = s₂.platform → s₁.entropy = s₂.entropy → s₁.freeTick = s₂.freeTick →
    s₁.pending = cmd s₁.platform .seed :: evs → s₂.pending = cmd s₂.platform .seed :: evs →
    SameRunOutcome s₁ s₂ (runSteps (n + 1) s₁) (runSteps (n + 1) s₂))

/-! ### Completion of the samplers -/

/-- 41_engine section 2 (RAW) and 42_sampler section 1 (UNIT). -/
def Obligations.RawAndUnitComplete : Prop :=
  ∀ (s : State) (e : Engine), s.gen = .seeded e →
    ∃ r e', DrawRule e r e' ∧
      exec .raw s = .next { s with
        gen := .seeded e', res := (BitVec.ofInt 32 r).zeroExtend 64, wrap := false, err := .ok } ∧
      exec .unit s = .next { s with
        gen := .seeded e', res := enc64 (fmul (toF64 r) cinv), wrap := false, err := .ok }

/-- 42_sampler section 2 (NEXT, NEXT.MIN, NEXT.MAX, NEXT.MM). -/
def Obligations.NextShapesComplete : Prop :=
  ∀ (s : State) (e : Engine), s.gen = .seeded e →
    ∃ r e', DrawRule e r e' ∧
      exec .next s = .next { s with gen := .seeded e', res := enc64 (toF64 r), wrap := false, err := .ok } ∧
      (isFinite (f64 s.opa) = true →
        exec .nextMin s = .next { s with
          gen := .seeded e', res := enc64 (fadd (unitOf r) (f64 s.opa)), wrap := false, err := .ok }) ∧
      (isFinite (f64 s.opb) = true → fgt (f64 s.opb) fzero = true →
        exec .nextMax s = .next { s with
          gen := .seeded e', res := enc64 (fmul (unitOf r) (f64 s.opb)), wrap := false, err := .ok }) ∧
      (isFinite (f64 s.opa) = true → isFinite (f64 s.opb) = true → fgt (f64 s.opb) (f64 s.opa) = true →
        isFinite (fsub (f64 s.opb) (f64 s.opa)) = true →
        exec .nextMm s = .next { s with
          gen := .seeded e'
          res := enc64 (fadd (fmul (unitOf r) (fsub (f64 s.opb) (f64 s.opa))) (f64 s.opa))
          wrap := false, err := .ok })

/-- 42_sampler section 3 (NEXTI, NEXTI.MIN, NEXTI.MAX, NEXTI.MM). -/
def Obligations.NextiShapesComplete : Prop :=
  ∀ (s : State) (e : Engine), s.gen = .seeded e →
    ∃ r e', DrawRule e r e' ∧
      exec .nexti s = .next { s with
        gen := .seeded e', res := enc64 (ffloor (toF64 r)), wrap := false, err := .ok } ∧
      (isFinite (f64 s.opa) = true →
        exec .nextiMin s = .next { s with
          gen := .seeded e', res := enc64 (ffloor (fadd (unitOf r) (f64 s.opa)))
          wrap := false, err := .ok }) ∧
      (isFinite (f64 s.opb) = true → fgt (f64 s.opb) fzero = true →
        exec .nextiMax s = .next { s with
          gen := .seeded e', res := enc64 (ffloor (fmul (unitOf r) (f64 s.opb)))
          wrap := false, err := .ok }) ∧
      (isFinite (f64 s.opa) = true → isFinite (f64 s.opb) = true → fgt (f64 s.opb) (f64 s.opa) = true →
        isFinite (fsub (f64 s.opb) (f64 s.opa)) = true →
        exec .nextiMm s = .next { s with
          gen := .seeded e'
          res := enc64 (ffloor (fadd (fmul (unitOf r) (fsub (f64 s.opb) (f64 s.opa))) (f64 s.opa)))
          wrap := false, err := .ok })

/-- 43_wide section 2 (BYTES) and 20_memory R46: draw `k` gives the byte at `dst + k`; every other byte of
the DMA space, `RES` and `WRAP` stay. -/
def Obligations.BytesFillsItsRange : Prop :=
  ∀ (s : State) (e : Engine), s.gen = .seeded e →
    s.opa.toNat < 2 ^ s.platform.addrW →
    s.opa.toNat + s.opb.toNat % 4294967296 ≤ 2 ^ s.platform.addrW →
    (∀ k, k < s.opb.toNat % 4294967296 → admits s.platform (s.opa.toNat + k) = true) →
    ∃ t, exec .bytes s = .next t ∧
      t = { s with
        gen := .seeded (drawMany (s.opb.toNat % 4294967296) e), dma := t.dma, err := .ok } ∧
      (∀ k, k < s.opb.toNat % 4294967296 →
        Memory.read t.dma (s.opa.toNat + k) = some (BitVec.ofInt 8 ((drawAt k e).toInt % 256))) ∧
      (∀ a, a < s.opa.toNat ∨ s.opa.toNat + s.opb.toNat % 4294967296 ≤ a →
        Memory.read t.dma a = Memory.read s.dma a)

/-- 20_memory R47, 60_exceptions R206: a range that leaves the DMA space ends with `ERR_ADDR`, before any draw,
with no byte written. -/
def Obligations.BytesOutsideSpaceRejected : Prop :=
  ∀ (s : State) (e : Engine), s.gen = .seeded e →
    (2 ^ s.platform.addrW ≤ s.opa.toNat ∨
      2 ^ s.platform.addrW < s.opa.toNat + s.opb.toNat % 4294967296) →
    exec .bytes s = .next { s with err := .addr }

/-- 20_memory section 2 (R48): the one command that can be stuck is `BYTES`, exactly when a byte of its range
is not admitted. That being stuck is a fault of the model is log entry 9. -/
def Obligations.StuckExactlyWhenNotAdmitted : Prop :=
  ∀ (i : Instr) (s : State) (f : Fault),
    exec i s = .fault f ↔
      i = .bytes ∧ s.gen ≠ .unseeded ∧ s.opa.toNat < 2 ^ s.platform.addrW ∧
        s.opa.toNat + s.opb.toNat % 4294967296 ≤ 2 ^ s.platform.addrW ∧
        ∃ k, k < s.opb.toNat % 4294967296 ∧ admits s.platform (s.opa.toNat + k) = false

/-- 43_wide section 3 (LONG, LONG.MIN, LONG.MAX, LONG.MM). -/
def Obligations.LongShapesComplete : Prop :=
  ∀ (s : State) (e : Engine), s.gen = .seeded e →
    exec .long s = .next { s with
      gen := .seeded (drawMany 8 e), res := BitVec.ofNat 64 (wideValue e), wrap := false, err := .ok } ∧
    exec .longMin s = .next { s with
      gen := .seeded (drawMany 8 e)
      res := BitVec.ofInt 64 ((wideValue e : Int) + s.opa.toInt)
      wrap := decide ((wideValue e : Int) + s.opa.toInt < 0 ∨
        18446744073709551616 ≤ (wideValue e : Int) + s.opa.toInt)
      err := .ok } ∧
    (0 < s.opb.toInt → exec .longMax s = .next { s with
      gen := .seeded (drawMany 8 e)
      res := BitVec.ofInt 64 ((wideValue e : Int) % s.opb.toInt), wrap := false, err := .ok }) ∧
    (s.opa.toInt < s.opb.toInt → exec .longMm s = .next { s with
      gen := .seeded (drawMany 8 e)
      res := BitVec.ofInt 64 ((wideValue e : Int) % (s.opb.toInt - s.opa.toInt) + s.opa.toInt)
      wrap := decide ((wideValue e : Int) % (s.opb.toInt - s.opa.toInt) + s.opa.toInt < 0)
      err := .ok })

/-! ### Laws of the wide sampler and the byte fill -/

/-- 43_wide R177: `RES` and `WRAP` together give the integer result exactly, for every result a `LONG*` can
have, and so after each `LONG*`. -/
def Obligations.ResAndWrapGiveLongResult : Prop :=
  (∀ (s : State) (z : Int), -9223372036854775808 ≤ z → z < 27670116110564327424 →
    reportedLong (s.setResult (bits64 z) (wrapOf z)) = z ∧
      (wrapOf z = true ↔ z < 0 ∨ 18446744073709551616 ≤ z)) ∧
  (∀ (s t : State) (e : Engine), s.gen = .seeded e →
    (exec .long s = .next t → reportedLong t = wideValue e) ∧
    (exec .longMin s = .next t → reportedLong t = (wideValue e : Int) + s.opa.toInt) ∧
    (0 < s.opb.toInt → exec .longMax s = .next t →
      reportedLong t = (wideValue e : Int) % s.opb.toInt) ∧
    (s.opa.toInt < s.opb.toInt → exec .longMm s = .next t →
      reportedLong t = (wideValue e : Int) % (s.opb.toInt - s.opa.toInt) + s.opa.toInt))

/-- 43_wide R179: the result of an accepted `LONG.MM` or `LONG.MAX` lies in [min, max). -/
def Obligations.LongRangeLaw : Prop :=
  ∀ (s : State) (e : Engine), s.gen = .seeded e →
    (s.opa.toInt < s.opb.toInt →
      ∃ t, exec .longMm s = .next t ∧ s.opa.toInt ≤ reportedLong t ∧ reportedLong t < s.opb.toInt) ∧
    (0 < s.opb.toInt →
      ∃ t, exec .longMax s = .next t ∧ 0 ≤ reportedLong t ∧ reportedLong t < s.opb.toInt)

/-- 43_wide R178: `LONG` and a `BYTES` of 8 make the same draws, and byte `k` of `RES` is the byte at
`dst + k`. -/
def Obligations.BytesAgreesWithLong : Prop :=
  ∀ (s : State) (e : Engine), s.gen = .seeded e → s.opb.toNat % 4294967296 = 8 →
    s.opa.toNat + 8 ≤ 2 ^ s.platform.addrW →
    (∀ k, k < 8 → admits s.platform (s.opa.toNat + k) = true) →
    ∃ t u, exec .bytes s = .next t ∧ exec .long s = .next u ∧ t.gen = u.gen ∧
      ∀ k, k < 8 → Memory.read t.dma (s.opa.toNat + k) = some (u.res.extractLsb' (8 * k) 8)

/-! ### Laws of the binary64 samplers -/

/-- 41_engine R128: `RAW` gives an integer in [0, M), and `NEXT` (and `NEXTI`) the same draw as a double; each
makes one draw. -/
def Obligations.NextAgreesWithRaw : Prop :=
  ∀ (s : State) (e : Engine), s.gen = .seeded e → e.Inv →
    ∃ t u, exec .raw s = .next t ∧ exec .next s = .next u ∧ exec .nexti s = .next u ∧
      t.res.toNat < M ∧ f64 u.res = toF64 t.res.toNat ∧
      t.gen = .seeded (draw e).2 ∧ u.gen = .seeded (draw e).2 ∧ t.res.toNat = (draw e).1.toNat

/-- 42_sampler R140: `CINV`, `Unit` and `UMAX`, with their encodings, and the draw on which a division by `M`
would differ. -/
def Obligations.UnitConstants : Prop :=
  (∀ r : Int, unitOf r = fmul (toF64 r) (fdiv (toF64 1) (toF64 2147483647))) ∧
  enc64 cinv = 0x3E00000000200000#64 ∧ cinv = .fin false (2 ^ 1043 + 2 ^ 1012) ∧
  enc64 umax = 0x3FEFFFFFFFC00000#64 ∧ umax = .fin false (2 ^ 1074 - 2 ^ 1043) ∧
  umax = unitOf 2147483646 ∧ unitOf 0 = fzero ∧
  unitOf 4198633 ≠ fdiv (toF64 4198633) (toF64 2147483647)

/-- 42_sampler R151: 0 ≤ `Unit(r)` ≤ `UMAX` = 1 − 2^-31 < 1 for every draw, non-decreasing in `r`; so `UNIT`
never gives 1.0. -/
def Obligations.UnitIntervalLaw : Prop :=
  umax = .fin false (2 ^ 1074 - 2 ^ 1043) ∧ flt umax (toF64 1) = true ∧
  (∀ r : Int, 0 ≤ r → r < (M : Int) → fle fzero (unitOf r) = true ∧ fle (unitOf r) umax = true) ∧
  (∀ r r' : Int, 0 ≤ r → r ≤ r' → r' < (M : Int) → fle (unitOf r) (unitOf r') = true) ∧
  (∀ (s : State) (e : Engine), s.gen = .seeded e → e.Inv →
    ∃ t, exec .unit s = .next t ∧ fle fzero (f64 t.res) = true ∧ flt (f64 t.res) (toF64 1) = true)

/-- 00_scope section 4 (R9): each arithmetic operation on finite operands is the exact result rounded once,
to nearest with ties to even; a sum or difference that is exactly zero is +0.0 unless both addends are −0.0
(R144: `+0 + −0 = +0`); small integers convert exactly. The definition of IEEE 754 is general knowledge
(log entry 14). -/
def Obligations.Binary64OperationsRoundCorrectly : Prop :=
  (∀ (a b : Bool) (m n : Nat), signedUnits a m + signedUnits b n ≠ 0 →
    RoundsTo (decide (signedUnits a m + signedUnits b n < 0))
      (signedUnits a m + signedUnits b n).natAbs 1 (fadd (.fin a m) (.fin b n))) ∧
  (∀ (a b : Bool) (m n : Nat), signedUnits a m + signedUnits b n = 0 →
    fadd (.fin a m) (.fin b n) = .fin (a && b) 0) ∧
  (∀ (a b : Bool) (m n : Nat), signedUnits a m = signedUnits b n →
    fsub (.fin a m) (.fin b n) = .fin (a && !b) 0) ∧
  (∀ (a b : Bool) (m n : Nat), signedUnits a m ≠ signedUnits b n →
    RoundsTo (decide (signedUnits a m < signedUnits b n))
      (signedUnits a m - signedUnits b n).natAbs 1 (fsub (.fin a m) (.fin b n))) ∧
  (∀ (a b : Bool) (m n : Nat),
    RoundsTo (a != b) (m * n) (2 ^ 1074) (fmul (.fin a m) (.fin b n))) ∧
  (∀ (a b : Bool) (m n : Nat), n ≠ 0 →
    RoundsTo (a != b) (m * 2 ^ 1074) n (fdiv (.fin a m) (.fin b n))) ∧
  (∀ n : Int, n.natAbs < 2 ^ 53 → toF64 n = .fin (decide (n < 0)) (n.natAbs * 2 ^ 1074))

/-- 00_scope section 4 (R9): `ffloor` is roundToIntegralTowardNegative, the sign kept. What that operation is,
and that it keeps the sign, is general knowledge (log entry 14). -/
def Obligations.FloorIsGreatestIntegerBelow : Prop :=
  ∀ (neg : Bool) (mag : Nat), ∃ (m : Nat) (q : Int), ffloor (.fin neg mag) = .fin neg m ∧
    signedUnits neg m = q * 2 ^ 1074 ∧ signedUnits neg m ≤ signedUnits neg mag ∧
    signedUnits neg mag < (q + 1) * 2 ^ 1074

/-- 00_scope section 4 (R9): the value of a pattern, by its sign, exponent and fraction, in units of 2^-1074; and
`isFinite` is false exactly for the infinities and not-a-number. The format is general knowledge (log
entry 14). -/
def Obligations.PatternsHaveTheirValues : Prop :=
  (∀ (neg : Bool) (expo : BitVec 11) (frac : BitVec 52),
    (expo = 2047#11 → frac = 0#52 → f64 (BitVec.ofBool neg ++ expo ++ frac) = .inf neg) ∧
    (expo = 2047#11 → frac ≠ 0#52 → f64 (BitVec.ofBool neg ++ expo ++ frac) = .nan) ∧
    (expo = 0#11 → f64 (BitVec.ofBool neg ++ expo ++ frac) = .fin neg frac.toNat) ∧
    (expo ≠ 0#11 → expo ≠ 2047#11 → f64 (BitVec.ofBool neg ++ expo ++ frac) =
      .fin neg ((2 ^ 52 + frac.toNat) * 2 ^ (expo.toNat - 1)))) ∧
  (∀ x : F64, isFinite x = false ↔ x = .nan ∨ x = .inf false ∨ x = .inf true)

/-- 00_scope section 4 (R9): the comparisons are the order of the numbers, false when either side is
not-a-number. The order is general knowledge (log entry 14). -/
def Obligations.ComparisonsAreOrdered : Prop :=
  ∀ x y : F64,
    (flt x y = true ↔ ∃ p q, placeOf x = some p ∧ placeOf y = some q ∧ p < q) ∧
    (fgt x y = true ↔ ∃ p q, placeOf x = some p ∧ placeOf y = some q ∧ q < p) ∧
    (fle x y = true ↔ ∃ p q, placeOf x = some p ∧ placeOf y = some q ∧ p ≤ q)

/-- 00_scope section 4 (R9): a finite pattern and its value determine each other. -/
def Obligations.FinitePatternRoundTrips : Prop :=
  (∀ b : DWord, isFinite (f64 b) = true → enc64 (f64 b) = b) ∧
  (∀ (neg : Bool) (m : Nat), Representable m → m < overflowMag →
    f64 (enc64 (.fin neg m)) = .fin neg m)

/-- 42_sampler section 4 (R152(a), (b)): every accepted `NEXT.MM` result `x` satisfies `min ≤ x ≤ g`, and every
`NEXTI.MM` result lies between the floors of the two, with `g` the value at the largest draw. -/
def Obligations.RangeSamplersStayWithinExactBounds : Prop :=
  ∀ (s : State) (e : Engine), s.gen = .seeded e → e.Inv →
    isFinite (f64 s.opa) = true → isFinite (f64 s.opb) = true → fgt (f64 s.opb) (f64 s.opa) = true →
    isFinite (fsub (f64 s.opb) (f64 s.opa)) = true →
    ∃ t u, exec .nextMm s = .next t ∧ exec .nextiMm s = .next u ∧
      fle (f64 s.opa) (f64 t.res) = true ∧
      fle (f64 t.res) (fadd (fmul umax (fsub (f64 s.opb) (f64 s.opa))) (f64 s.opa)) = true ∧
      fle (ffloor (f64 s.opa)) (f64 u.res) = true ∧
      fle (f64 u.res)
        (ffloor (fadd (fmul umax (fsub (f64 s.opb) (f64 s.opa))) (f64 s.opa))) = true

/-- 42_sampler section 4 (R152(a), (b)): for given bounds, every `NEXT.MM` result is below `max`, whatever the
engine, exactly when `g < max`, and every `NEXTI.MM` result exactly when `floor(g) < max`. -/
def Obligations.BelowMaxExactlyWhenLargestDrawIs : Prop :=
  ∀ a b : DWord, isFinite (f64 a) = true → isFinite (f64 b) = true → fgt (f64 b) (f64 a) = true →
    isFinite (fsub (f64 b) (f64 a)) = true →
    ((∀ (s t : State) (e : Engine), s.gen = .seeded e → e.Inv → s.opa = a → s.opb = b →
        exec .nextMm s = .next t → flt (f64 t.res) (f64 b) = true) ↔
      flt (fadd (fmul umax (fsub (f64 b) (f64 a))) (f64 a)) (f64 b) = true) ∧
    ((∀ (s t : State) (e : Engine), s.gen = .seeded e → e.Inv → s.opa = a → s.opb = b →
        exec .nextiMm s = .next t → flt (f64 t.res) (f64 b) = true) ↔
      flt (ffloor (fadd (fmul umax (fsub (f64 b) (f64 a))) (f64 a))) (f64 b) = true)

/-- 42_sampler section 4 (R152(c)): for integer bounds with −2^22 ≤ min < max ≤ 2^22, `NEXT.MM` and `NEXTI.MM`
stay below `max`, and `NEXTI.MM` gives an integer in [min, max − 1]. A bound 0 may be either zero. -/
def Obligations.IntegerBandKeepsHalfOpenRange : Prop :=
  ∀ (s : State) (e : Engine) (a b : Int), s.gen = .seeded e → e.Inv →
    -4194304 ≤ a → a < b → b ≤ 4194304 → SameNumber (f64 s.opa) (toF64 a) →
    SameNumber (f64 s.opb) (toF64 b) →
    ∃ t u z, exec .nextMm s = .next t ∧ exec .nextiMm s = .next u ∧
      fle (toF64 a) (f64 t.res) = true ∧ flt (f64 t.res) (toF64 b) = true ∧
      f64 u.res = toF64 z ∧ a ≤ z ∧ z < b

/-- 42_sampler section 3 (NEXTI.MAX): for integer `max` in [1, 2^53], an integer in [0, max − 1]. -/
def Obligations.NextiMaxIntegerRange : Prop :=
  ∀ (s : State) (e : Engine) (b : Int), s.gen = .seeded e → e.Inv →
    1 ≤ b → b ≤ 9007199254740992 → f64 s.opb = toF64 b →
    ∃ t z, exec .nextiMax s = .next t ∧ f64 t.res = toF64 z ∧ 0 ≤ z ∧ z < b

/-- 91_not_in_source N7: no sampler writes a not-a-number or an infinity to `RES`. -/
def Obligations.SamplerResultsAreFinite : Prop :=
  ∀ (i : Instr) (s t : State) (e : Engine),
    i ∈ [Instr.unit, .next, .nextMin, .nextMax, .nextMm, .nexti, .nextiMin, .nextiMax, .nextiMm] →
    s.gen = .seeded e → e.Inv → exec i s = .next t → t.err = .ok → isFinite (f64 t.res) = true

/-! ### Completion codes and frames -/

/-- 60_exceptions R203 to R207: each command word is rejected with the first code that applies, in the order of
R207, and completes with `OK` only where none applies. -/
def Obligations.RejectionsFollowPriority : Prop :=
  (∀ (w : Word) (s : State), IllegalWord w → runCommand w s = .next { s with err := .illegal }) ∧
  (∀ (w : Word) (i : Instr) (s : State) (c : ErrCode), decode w = .ok i → EarnsCode i s c → c ≠ .ok →
    runCommand w s = .next { s with err := c }) ∧
  (∀ (w : Word) (i : Instr) (s t : State), decode w = .ok i → EarnsCode i s .ok →
    runCommand w s = .next t → t.err = .ok)

/-- 60_exceptions R200: a rejected command changes nothing but `STATUS.ERR`; every command, legal or illegal,
writes `STATUS.ERR` (what it held before makes no difference); no command word is refused. -/
def Obligations.RejectedCommandChangesOnlyErr : Prop :=
  ∀ (w : Word) (s : State),
    (∀ t, runCommand w s = .next t → t.err ≠ .ok → t = { s with err := t.err }) ∧
    (∀ c : ErrCode, runCommand w { s with err := c } = runCommand w s) ∧
    (∀ r, runCommand w s ≠ .refused r)

/-- 70_reset section 3 (R236): operands persist. That no command changes the platform, the events still to be
delivered or the values read is about the model's own fields (log entries 1, 6 and 7). -/
def Obligations.OperandsPersist : Prop :=
  ∀ (w : Word) (s t : State), runCommand w s = .next t →
    t.opa = s.opa ∧ t.opb = s.opb ∧ t.platform = s.platform ∧ t.pending = s.pending ∧
      t.readLog = s.readLog

/-- 10_state section 4 (R35): the matrix of what each command writes; a `LONG*` sets `RES` and `WRAP` from its
exact integer result (43_wide R173 to R177). -/
def Obligations.CommandEffectsFollowMatrix : Prop :=
  ∀ (i : Instr) (s t : State), exec i s = .next t →
    (t.err ≠ .ok → t = { s with err := t.err }) ∧
    (t.err = .ok →
      (i = .seed ∨ i = .seedr → ∃ seed : Word, t.gen = .seeded (initState seed) ∧
        t.res = seed.signExtend 64 ∧ t.wrap = false) ∧
      (i ≠ .seed → i ≠ .seedr → ∃ e, s.gen = .seeded e ∧
        t.gen = .seeded (drawMany (drawCount i s) e)) ∧
      (i = .bytes → t.res = s.res ∧ t.wrap = s.wrap) ∧
      (∀ e z, s.gen = .seeded e → longResult i s e = some z →
        t.res = BitVec.ofInt 64 z ∧ t.wrap = wrapOf z ∧
          (t.wrap = true ↔ z < 0 ∨ 18446744073709551616 ≤ z)) ∧
      (i ∈ [Instr.raw, .unit, .next, .nextMin, .nextMax, .nextMm, .nexti, .nextiMin, .nextiMax, .nextiMm] →
        t.wrap = false) ∧
      (∀ a, (i = .bytes → a < s.opa.toNat ∨ s.opa.toNat + s.opb.toNat % 4294967296 ≤ a) →
        Memory.read t.dma a = Memory.read s.dma a))

/-- 20_memory section 1 (R40): the only command that touches the DMA space is `BYTES`. -/
def Obligations.OnlyBytesTouchesDma : Prop :=
  ∀ (w : Word) (s t : State), decode w ≠ .ok .bytes → runCommand w s = .next t → t.dma = s.dma

/-- 10_state section 4 (R33): each `SEEDR` takes one word from the entropy port, the only use of the port. The
free-value counter is the model's (log entry 5). -/
def Obligations.OnlySeedrTakesEntropy : Prop :=
  ∀ (w : Word) (s t : State), runCommand w s = .next t →
    (decode w ≠ .ok .seedr → t.entropy = s.entropy ∧ t.freeTick = s.freeTick) ∧
    (decode w = .ok .seedr → t.entropy = s.entropy.tail ∧
      t.freeTick = if s.entropy = [] then s.freeTick + 1 else s.freeTick)

/-- 10_state section 1 (R23): `SEEDED` is set by `SEED` and `SEEDR`, and no command clears it. -/
def Obligations.SeededSetBySeedingOnly : Prop :=
  ∀ (w : Word) (s t : State), runCommand w s = .next t →
    (t.isSeeded = true ↔ s.isSeeded = true ∨ decode w = .ok .seed ∨ decode w = .ok .seedr)

/-- 41_engine R126: the draw sequence depends on the seed and the number of draws alone, however the draws are
grouped into commands, and a command that ends in an error makes none. -/
def Obligations.DrawsIndependentOfGrouping : Prop :=
  (∀ (cs : List Instr) (s t : State) (e : Engine), s.gen = .seeded e →
    (∀ i ∈ cs, i ≠ .seed ∧ i ≠ .seedr) → runCommands cs s = .next t →
    t.gen = .seeded (drawMany (totalDraws cs s) e)) ∧
  (∀ (cs cs' : List Instr) (s s' t t' : State) (seed : Word),
    s.gen = .seeded (initState seed) → s'.gen = .seeded (initState seed) →
    (∀ i ∈ cs, i ≠ .seed ∧ i ≠ .seedr) → (∀ i ∈ cs', i ≠ .seed ∧ i ≠ .seedr) →
    runCommands cs s = .next t → runCommands cs' s' = .next t' →
    totalDraws cs s = totalDraws cs' s' → t.gen = t'.gen)

/-- 30_encoding R63: an operand that the command does not select is not read. -/
def Obligations.UnselectedOperandNotRead : Prop :=
  ∀ (i : Instr) (s : State) (v : DWord),
    (readsOpa i = false → exec i (s.setOpa v) = withOpa v (exec i s)) ∧
    (readsOpb i = false → exec i (s.setOpb v) = withOpb v (exec i s))

/-- 30_encoding section 3 (R64): `SEED` ignores `OPA[63:32]`, and `BYTES` ignores `OPB[63:32]`. -/
def Obligations.IgnoredOperandHalves : Prop :=
  ∀ (s : State) (h : Word),
    exec .seed (s.setOpa (h ++ s.opa.extractLsb' 0 32)) =
      withOpa (h ++ s.opa.extractLsb' 0 32) (exec .seed s) ∧
    exec .bytes (s.setOpb (h ++ s.opb.extractLsb' 0 32)) =
      withOpb (h ++ s.opb.extractLsb' 0 32) (exec .bytes s)

/-! ### The register port -/

/-- 20_memory section 3 (R49), with the map of R41: reads have no side effect, a write to a half of `OPA` or `OPB` changes
that half alone, every other write but `CMD` has no effect. That events come from a list, and that the value read
goes to one, is the model's choice (log entries 6 and 7). -/
def Obligations.PortAccessesFollowMap : Prop :=
  ∀ (s : State) (o : Nat) (rest : List BusEvent), o < 64 → o % 4 = 0 →
    (s.pending = .access { kind := .read, addr := s.platform.regBase + o, size := 4 } :: rest →
      step s = .next { s with
        pending := rest, readLog := BitVec.ofNat 32 (mapValue s o) :: s.readLog }) ∧
    (∀ v : Word, o ≠ 0 →
      s.pending = .access { kind := .write v, addr := s.platform.regBase + o, size := 4 } :: rest →
      step s = .next { s with
        pending := rest
        opa := if o = 8 then BitVec.ofNat 64 (s.opa.toNat / 4294967296 * 4294967296 + v.toNat)
          else if o = 12 then BitVec.ofNat 64 (v.toNat * 4294967296 + s.opa.toNat % 4294967296)
          else s.opa
        opb := if o = 16 then BitVec.ofNat 64 (s.opb.toNat / 4294967296 * 4294967296 + v.toNat)
          else if o = 20 then BitVec.ofNat 64 (v.toNat * 4294967296 + s.opb.toNat % 4294967296)
          else s.opb })

/-- 10_state section 2 (R29): the fields of `STATUS`; the reserved bits read as 0; the numbers of the codes
(60_exceptions R201). -/
def Obligations.StatusWordLayout : Prop :=
  ∀ s : State, (statusWord s).getLsbD 0 = s.isSeeded ∧ (statusWord s).getLsbD 1 = s.wrap ∧
    (statusWord s).extractLsb' 2 2 = 0#2 ∧ (statusWord s).extractLsb' 4 4 = errNumber s.err ∧
    (statusWord s).extractLsb' 8 24 = 0#24 ∧ (errNumber s.err).toNat ≤ 5 ∧
    errNumber .ok = 0#4 ∧ errNumber .illegal = 1#4 ∧ errNumber .unseeded = 2#4 ∧
    errNumber .operand = 3#4 ∧ errNumber .range = 4#4 ∧ errNumber .addr = 5#4

/-- 20_memory R42: an access of another width or alignment has no meaning. -/
def Obligations.OddAccessRefused : Prop :=
  ∀ (s : State) (a : Access) (rest : List BusEvent), s.pending = .access a :: rest →
    s.platform.regBase ≤ a.addr → a.addr < s.platform.regBase + 64 →
    (a.size ≠ 4 ∨ (a.addr - s.platform.regBase) % 4 ≠ 0) → step s = .refused .portAccess

/-- 20_memory section 1 (R40, R41): an access outside the 64-byte window is not the block's; that the model
refuses it is its own choice (log entry 11). -/
def Obligations.AccessOutsideWindowRefused : Prop :=
  ∀ (s : State) (a : Access) (rest : List BusEvent), s.pending = .access a :: rest →
    (a.addr < s.platform.regBase ∨ s.platform.regBase + 64 ≤ a.addr) → step s = .refused .outsideWindow

/-! ### Invariants -/

/-- The machine right after reset is a good state; the platform it stands on is the model's choice (log
entry 1). -/
def Obligations.ResetIsGoodState : Prop := State.reset.Inv

/-- 10_state section 1 (R24): the invariants hold at every command boundary, whatever the step: slots in
[0, M), cursors in step, and with them the DMA space in canonical form inside its 2^`ADDR_W` bytes. -/
def Obligations.EveryStepKeepsGoodState : Prop :=
  ∀ s t : State, s.Inv → step s = .next t → t.Inv

/-- Every step keeps the DMA space in canonical form, whatever else holds, and never changes the platform (the
canonical form is the model's, log entry 8). -/
def Obligations.EveryStepKeepsCanonicalDma : Prop :=
  ∀ s t : State, Memory.wf s.dma = true → step s = .next t →
    Memory.wf t.dma = true ∧ t.platform = s.platform
end

