-- ==== Sys2Proof/Laws/Float64.lean ====
section
/-!
SUPPORT. Small laws of the binary64 primitives: what rounding can answer, and what each operation does on
finite operands.
-/
namespace Sys2Proof.Machine

theorem unitsPerOne_eq : unitsPerOne = 2 ^ 1074 := by unfold unitsPerOne; rfl

theorem overflowMag_eq : overflowMag = 2 ^ 2098 := by unfold overflowMag; rfl

/-- All that `roundF64` can answer. -/
theorem roundF64_cases (neg : Bool) (num den : Nat) :
    (overflowMag ≤ roundMag num den ∧ roundF64 neg num den = .inf neg) ∨
    (roundMag num den < overflowMag ∧ roundF64 neg num den = .fin neg (roundMag num den)) := by
  unfold roundF64
  by_cases h : overflowMag ≤ roundMag num den
  · exact .inl ⟨h, by simp [h]⟩
  · exact .inr ⟨by omega, by simp [h]⟩

/-- Rounding never answers not-a-number. -/
theorem roundF64_ne_nan (neg : Bool) (num den : Nat) : roundF64 neg num den ≠ .nan := by
  rcases roundF64_cases neg num den with ⟨_, h⟩ | ⟨_, h⟩ <;> simp [h]

/-- A finite value is a sign and a number of units. -/
theorem isFinite_iff (x : F64) : isFinite x = true ↔ ∃ neg mag, x = .fin neg mag := by
  cases x <;> simp [isFinite]

@[simp] theorem isFinite_fin (neg : Bool) (mag : Nat) : isFinite (.fin neg mag) = true := rfl
@[simp] theorem isFinite_inf (neg : Bool) : isFinite (.inf neg) = false := rfl
@[simp] theorem isFinite_nan : isFinite .nan = false := rfl

@[simp] theorem fneg_fin (neg : Bool) (mag : Nat) : fneg (.fin neg mag) = .fin (!neg) mag := rfl

@[simp] theorem signedUnits_false (mag : Nat) : signedUnits false mag = mag := rfl
@[simp] theorem signedUnits_true (mag : Nat) : signedUnits true mag = -(mag : Int) := rfl

/-- Changing the sign negates the number. -/
theorem signedUnits_not (neg : Bool) (mag : Nat) : signedUnits (!neg) mag = -signedUnits neg mag := by
  cases neg <;> simp

/-- A sum of finite values that is exactly zero. -/
theorem fadd_zero_sum (a b : Bool) (m n : Nat) (h : signedUnits a m + signedUnits b n = 0) :
    fadd (.fin a m) (.fin b n) = .fin (a && b) 0 := by
  simp [fadd, h]

/-- A sum of finite values that is not zero is rounded once. -/
theorem fadd_rounds (a b : Bool) (m n : Nat) (h : signedUnits a m + signedUnits b n ≠ 0) :
    fadd (.fin a m) (.fin b n) =
      roundF64 (decide (signedUnits a m + signedUnits b n < 0))
        (signedUnits a m + signedUnits b n).natAbs 1 := by
  simp [fadd, h]

@[simp] theorem fmul_fin (a b : Bool) (m n : Nat) :
    fmul (.fin a m) (.fin b n) = roundF64 (a != b) (m * n) unitsPerOne := rfl

/-- No operation on finite operands answers not-a-number, division by zero apart. -/
theorem fadd_fin_ne_nan (a b : Bool) (m n : Nat) : fadd (.fin a m) (.fin b n) ≠ .nan := by
  by_cases h : signedUnits a m + signedUnits b n = 0
  · simp [fadd_zero_sum a b m n h]
  · rw [fadd_rounds a b m n h]; exact roundF64_ne_nan _ _ _

@[simp] theorem flt_fin (a b : Bool) (m n : Nat) :
    flt (.fin a m) (.fin b n) = decide (signedUnits a m < signedUnits b n) := rfl

@[simp] theorem fle_fin (a b : Bool) (m n : Nat) :
    fle (.fin a m) (.fin b n) = decide (signedUnits a m ≤ signedUnits b n) := rfl

end Sys2Proof.Machine
end

