-- ==== Sys2Proof/Laws/Memory.lean ====
section
/-!
SUPPORT. The DMA space: a read after a write, and the canonical form that every memory operation keeps.
-/
namespace Sys2Proof.Machine

/-- A read of the byte just written gives it, whatever the list. -/
theorem Memory.read_write_same (m : Memory) (a : Nat) (v : Byte) :
    Memory.read (Memory.write m a v) a = some v := by
  induction m with
  | nil => simp [Memory.write, Memory.read]
  | cons c rest ih =>
    unfold Memory.write
    split
    · simp [Memory.read]
    · split
      · simp [Memory.read]
      · rename_i h; simp [Memory.read, Ne.symm h, ih]

/-- A read of any other byte gives what it gave before. -/
theorem Memory.read_write_other (m : Memory) (a b : Nat) (v : Byte) (h : b ≠ a) :
    Memory.read (Memory.write m a v) b = Memory.read m b := by
  induction m with
  | nil => simp [Memory.write, Memory.read, Ne.symm h]
  | cons c rest ih =>
    unfold Memory.write
    split
    · simp [Memory.read, Ne.symm h]
    · split
      · rename_i heq; simp [Memory.read, Ne.symm h, heq ▸ Ne.symm h]
      · simp [Memory.read, ih]

/-- Every listed address after a write is the written one or was listed before. -/
theorem Memory.write_addresses (m : Memory) (a : Nat) (v : Byte) (c : Host.Cell)
    (h : c ∈ Memory.write m a v) : c.1 = a ∨ c ∈ m := by
  induction m with
  | nil => simp [Memory.write] at h; simp [h]
  | cons d rest ih =>
    unfold Memory.write at h
    split at h
    · simp at h; rcases h with h | h | h <;> simp [h]
    · split at h
      · simp at h; rcases h with h | h <;> simp [h]
      · simp at h
        rcases h with h | h
        · simp [h]
        · rcases ih h with h | h <;> simp [h]

/-- A write keeps the canonical form. -/
theorem Memory.wf_write (m : Memory) (a : Nat) (v : Byte) (h : Memory.wf m = true) :
    Memory.wf (Memory.write m a v) = true := by
  induction m with
  | nil => simp [Memory.write, Memory.wf]
  | cons c rest ih =>
    simp only [Memory.wf, Bool.and_eq_true, List.all_eq_true, decide_eq_true_eq] at h
    obtain ⟨hc, hr⟩ := h
    unfold Memory.write
    split
    · rename_i hlt
      simp only [Memory.wf, Bool.and_eq_true, List.all_eq_true, decide_eq_true_eq, List.mem_cons]
      refine ⟨?_, hc, hr⟩
      rintro d (rfl | hd)
      · exact hlt
      · exact Nat.lt_trans hlt (hc d hd)
    · split
      · rename_i heq
        simp only [Memory.wf, Bool.and_eq_true, List.all_eq_true, decide_eq_true_eq]
        exact ⟨fun d hd => heq ▸ hc d hd, hr⟩
      · rename_i hnlt hne
        simp only [Memory.wf, Bool.and_eq_true, List.all_eq_true, decide_eq_true_eq]
        refine ⟨fun d hd => ?_, ih hr⟩
        rcases Memory.write_addresses rest a v d hd with h | h
        · omega
        · exact hc d h

/-- A fill keeps the canonical form. -/
theorem Memory.wf_fillBytes (n a : Nat) (m : Memory) (e : Engine) (h : Memory.wf m = true) :
    Memory.wf (fillBytes n a m e).1 = true := by
  induction n generalizing a m e with
  | zero => exact h
  | succ k ih => exact ih _ _ _ (Memory.wf_write _ _ _ h)

/-- A fill leaves every byte outside its range as it was. -/
theorem Memory.read_fillBytes_outside (n a : Nat) (m : Memory) (e : Engine) (b : Nat)
    (h : b < a ∨ a + n ≤ b) : Memory.read (fillBytes n a m e).1 b = Memory.read m b := by
  induction n generalizing a m e with
  | zero => rfl
  | succ k ih =>
    unfold fillBytes
    rw [ih (a + 1) _ _ (by omega), Memory.read_write_other _ _ _ _ (by omega)]

/-- Every address a fill lists was listed before, or lies in its range. -/
theorem Memory.fillBytes_addresses (n a : Nat) (m : Memory) (e : Engine) (c : Host.Cell)
    (h : c ∈ (fillBytes n a m e).1) : (a ≤ c.1 ∧ c.1 < a + n) ∨ c ∈ m := by
  induction n generalizing a m e with
  | zero => exact .inr h
  | succ k ih =>
    rcases ih _ _ _ h with h | h
    · exact .inl (by omega)
    · rcases Memory.write_addresses _ _ _ _ h with h | h
      · exact .inl (by omega)
      · exact .inr h

/-- The admitted prefix is no longer than the range. -/
theorem admittedPrefix_le (p : Platform) (a n : Nat) : admittedPrefix p a n ≤ n := by
  induction n generalizing a with
  | zero => simp [admittedPrefix]
  | succ k ih =>
    unfold admittedPrefix
    split
    · exact Nat.succ_le_succ (ih _)
    · omega

/-- A range is admitted exactly when each of its addresses is (20_memory R48). -/
theorem admitsAll_iff (p : Platform) (a n : Nat) :
    admitsAll p a n = true ↔ ∀ k, k < n → admits p (a + k) = true := by
  induction n generalizing a with
  | zero => simp [admitsAll]
  | succ m ih =>
    simp only [admitsAll, Bool.and_eq_true, ih]
    constructor
    · rintro ⟨h0, h⟩ k hk
      rcases k with _ | k
      · simpa using h0
      · have := h k (by omega)
        rwa [show a + 1 + k = a + (k + 1) by omega] at this
    · intro h
      refine ⟨by simpa using h 0 (by omega), fun k hk => ?_⟩
      have := h (k + 1) (by omega)
      rwa [show a + 1 + k = a + (k + 1) by omega]

/-- The machine right after reset has its DMA space in canonical form. -/
theorem reset_dma_wf : Memory.wf State.reset.dma = true := rfl

end Sys2Proof.Machine
end

