-- ==== Sys2Proof/Laws/State.lean ====
section
/-!
SUPPORT. One lemma per field per update of `State`, true by definition, so that no later proof unfolds a
record update.
-/
namespace Sys2Proof.Machine

variable (s : State)

/-! ### `State.setErr` -/

@[simp] theorem setErr_gen (c : ErrCode) : (s.setErr c).gen = s.gen := rfl
@[simp] theorem setErr_opa (c : ErrCode) : (s.setErr c).opa = s.opa := rfl
@[simp] theorem setErr_opb (c : ErrCode) : (s.setErr c).opb = s.opb := rfl
@[simp] theorem setErr_res (c : ErrCode) : (s.setErr c).res = s.res := rfl
@[simp] theorem setErr_wrap (c : ErrCode) : (s.setErr c).wrap = s.wrap := rfl
@[simp] theorem setErr_err (c : ErrCode) : (s.setErr c).err = c := rfl
@[simp] theorem setErr_dma (c : ErrCode) : (s.setErr c).dma = s.dma := rfl
@[simp] theorem setErr_platform (c : ErrCode) : (s.setErr c).platform = s.platform := rfl
@[simp] theorem setErr_entropy (c : ErrCode) : (s.setErr c).entropy = s.entropy := rfl
@[simp] theorem setErr_freeTick (c : ErrCode) : (s.setErr c).freeTick = s.freeTick := rfl
@[simp] theorem setErr_pending (c : ErrCode) : (s.setErr c).pending = s.pending := rfl
@[simp] theorem setErr_readLog (c : ErrCode) : (s.setErr c).readLog = s.readLog := rfl

/-! ### `State.setEngine` -/

@[simp] theorem setEngine_gen (e : Engine) : (s.setEngine e).gen = .seeded e := rfl
@[simp] theorem setEngine_opa (e : Engine) : (s.setEngine e).opa = s.opa := rfl
@[simp] theorem setEngine_opb (e : Engine) : (s.setEngine e).opb = s.opb := rfl
@[simp] theorem setEngine_res (e : Engine) : (s.setEngine e).res = s.res := rfl
@[simp] theorem setEngine_wrap (e : Engine) : (s.setEngine e).wrap = s.wrap := rfl
@[simp] theorem setEngine_err (e : Engine) : (s.setEngine e).err = s.err := rfl
@[simp] theorem setEngine_dma (e : Engine) : (s.setEngine e).dma = s.dma := rfl
@[simp] theorem setEngine_platform (e : Engine) : (s.setEngine e).platform = s.platform := rfl
@[simp] theorem setEngine_entropy (e : Engine) : (s.setEngine e).entropy = s.entropy := rfl
@[simp] theorem setEngine_freeTick (e : Engine) : (s.setEngine e).freeTick = s.freeTick := rfl
@[simp] theorem setEngine_pending (e : Engine) : (s.setEngine e).pending = s.pending := rfl
@[simp] theorem setEngine_readLog (e : Engine) : (s.setEngine e).readLog = s.readLog := rfl

/-! ### `State.setResult` -/

@[simp] theorem setResult_gen (r : DWord) (w : Bool) : (s.setResult r w).gen = s.gen := rfl
@[simp] theorem setResult_opa (r : DWord) (w : Bool) : (s.setResult r w).opa = s.opa := rfl
@[simp] theorem setResult_opb (r : DWord) (w : Bool) : (s.setResult r w).opb = s.opb := rfl
@[simp] theorem setResult_res (r : DWord) (w : Bool) : (s.setResult r w).res = r := rfl
@[simp] theorem setResult_wrap (r : DWord) (w : Bool) : (s.setResult r w).wrap = w := rfl
@[simp] theorem setResult_err (r : DWord) (w : Bool) : (s.setResult r w).err = s.err := rfl
@[simp] theorem setResult_dma (r : DWord) (w : Bool) : (s.setResult r w).dma = s.dma := rfl
@[simp] theorem setResult_platform (r : DWord) (w : Bool) : (s.setResult r w).platform = s.platform := rfl
@[simp] theorem setResult_entropy (r : DWord) (w : Bool) : (s.setResult r w).entropy = s.entropy := rfl
@[simp] theorem setResult_freeTick (r : DWord) (w : Bool) : (s.setResult r w).freeTick = s.freeTick := rfl
@[simp] theorem setResult_pending (r : DWord) (w : Bool) : (s.setResult r w).pending = s.pending := rfl
@[simp] theorem setResult_readLog (r : DWord) (w : Bool) : (s.setResult r w).readLog = s.readLog := rfl

/-! ### `State.setDma` -/

@[simp] theorem setDma_gen (m : Memory) : (s.setDma m).gen = s.gen := rfl
@[simp] theorem setDma_opa (m : Memory) : (s.setDma m).opa = s.opa := rfl
@[simp] theorem setDma_opb (m : Memory) : (s.setDma m).opb = s.opb := rfl
@[simp] theorem setDma_res (m : Memory) : (s.setDma m).res = s.res := rfl
@[simp] theorem setDma_wrap (m : Memory) : (s.setDma m).wrap = s.wrap := rfl
@[simp] theorem setDma_err (m : Memory) : (s.setDma m).err = s.err := rfl
@[simp] theorem setDma_dma (m : Memory) : (s.setDma m).dma = m := rfl
@[simp] theorem setDma_platform (m : Memory) : (s.setDma m).platform = s.platform := rfl
@[simp] theorem setDma_entropy (m : Memory) : (s.setDma m).entropy = s.entropy := rfl
@[simp] theorem setDma_freeTick (m : Memory) : (s.setDma m).freeTick = s.freeTick := rfl
@[simp] theorem setDma_pending (m : Memory) : (s.setDma m).pending = s.pending := rfl
@[simp] theorem setDma_readLog (m : Memory) : (s.setDma m).readLog = s.readLog := rfl

/-! ### `State.setOpa` -/

@[simp] theorem setOpa_gen (v : DWord) : (s.setOpa v).gen = s.gen := rfl
@[simp] theorem setOpa_opa (v : DWord) : (s.setOpa v).opa = v := rfl
@[simp] theorem setOpa_opb (v : DWord) : (s.setOpa v).opb = s.opb := rfl
@[simp] theorem setOpa_res (v : DWord) : (s.setOpa v).res = s.res := rfl
@[simp] theorem setOpa_wrap (v : DWord) : (s.setOpa v).wrap = s.wrap := rfl
@[simp] theorem setOpa_err (v : DWord) : (s.setOpa v).err = s.err := rfl
@[simp] theorem setOpa_dma (v : DWord) : (s.setOpa v).dma = s.dma := rfl
@[simp] theorem setOpa_platform (v : DWord) : (s.setOpa v).platform = s.platform := rfl
@[simp] theorem setOpa_entropy (v : DWord) : (s.setOpa v).entropy = s.entropy := rfl
@[simp] theorem setOpa_freeTick (v : DWord) : (s.setOpa v).freeTick = s.freeTick := rfl
@[simp] theorem setOpa_pending (v : DWord) : (s.setOpa v).pending = s.pending := rfl
@[simp] theorem setOpa_readLog (v : DWord) : (s.setOpa v).readLog = s.readLog := rfl

/-! ### `State.setOpb` -/

@[simp] theorem setOpb_gen (v : DWord) : (s.setOpb v).gen = s.gen := rfl
@[simp] theorem setOpb_opa (v : DWord) : (s.setOpb v).opa = s.opa := rfl
@[simp] theorem setOpb_opb (v : DWord) : (s.setOpb v).opb = v := rfl
@[simp] theorem setOpb_res (v : DWord) : (s.setOpb v).res = s.res := rfl
@[simp] theorem setOpb_wrap (v : DWord) : (s.setOpb v).wrap = s.wrap := rfl
@[simp] theorem setOpb_err (v : DWord) : (s.setOpb v).err = s.err := rfl
@[simp] theorem setOpb_dma (v : DWord) : (s.setOpb v).dma = s.dma := rfl
@[simp] theorem setOpb_platform (v : DWord) : (s.setOpb v).platform = s.platform := rfl
@[simp] theorem setOpb_entropy (v : DWord) : (s.setOpb v).entropy = s.entropy := rfl
@[simp] theorem setOpb_freeTick (v : DWord) : (s.setOpb v).freeTick = s.freeTick := rfl
@[simp] theorem setOpb_pending (v : DWord) : (s.setOpb v).pending = s.pending := rfl
@[simp] theorem setOpb_readLog (v : DWord) : (s.setOpb v).readLog = s.readLog := rfl

/-! ### `State.logRead` -/

@[simp] theorem logRead_gen (v : Word) : (s.logRead v).gen = s.gen := rfl
@[simp] theorem logRead_opa (v : Word) : (s.logRead v).opa = s.opa := rfl
@[simp] theorem logRead_opb (v : Word) : (s.logRead v).opb = s.opb := rfl
@[simp] theorem logRead_res (v : Word) : (s.logRead v).res = s.res := rfl
@[simp] theorem logRead_wrap (v : Word) : (s.logRead v).wrap = s.wrap := rfl
@[simp] theorem logRead_err (v : Word) : (s.logRead v).err = s.err := rfl
@[simp] theorem logRead_dma (v : Word) : (s.logRead v).dma = s.dma := rfl
@[simp] theorem logRead_platform (v : Word) : (s.logRead v).platform = s.platform := rfl
@[simp] theorem logRead_entropy (v : Word) : (s.logRead v).entropy = s.entropy := rfl
@[simp] theorem logRead_freeTick (v : Word) : (s.logRead v).freeTick = s.freeTick := rfl
@[simp] theorem logRead_pending (v : Word) : (s.logRead v).pending = s.pending := rfl
@[simp] theorem logRead_readLog (v : Word) : (s.logRead v).readLog = v :: s.readLog := rfl

/-! ### `State.setPending` -/

@[simp] theorem setPending_gen (evs : List BusEvent) : (s.setPending evs).gen = s.gen := rfl
@[simp] theorem setPending_opa (evs : List BusEvent) : (s.setPending evs).opa = s.opa := rfl
@[simp] theorem setPending_opb (evs : List BusEvent) : (s.setPending evs).opb = s.opb := rfl
@[simp] theorem setPending_res (evs : List BusEvent) : (s.setPending evs).res = s.res := rfl
@[simp] theorem setPending_wrap (evs : List BusEvent) : (s.setPending evs).wrap = s.wrap := rfl
@[simp] theorem setPending_err (evs : List BusEvent) : (s.setPending evs).err = s.err := rfl
@[simp] theorem setPending_dma (evs : List BusEvent) : (s.setPending evs).dma = s.dma := rfl
@[simp] theorem setPending_platform (evs : List BusEvent) : (s.setPending evs).platform = s.platform := rfl
@[simp] theorem setPending_entropy (evs : List BusEvent) : (s.setPending evs).entropy = s.entropy := rfl
@[simp] theorem setPending_freeTick (evs : List BusEvent) : (s.setPending evs).freeTick = s.freeTick := rfl
@[simp] theorem setPending_pending (evs : List BusEvent) : (s.setPending evs).pending = evs := rfl
@[simp] theorem setPending_readLog (evs : List BusEvent) : (s.setPending evs).readLog = s.readLog := rfl

/-! ### `State.resetBlock` -/

@[simp] theorem resetBlock_gen : s.resetBlock.gen = .unseeded := rfl
@[simp] theorem resetBlock_opa : s.resetBlock.opa = 0#64 := rfl
@[simp] theorem resetBlock_opb : s.resetBlock.opb = 0#64 := rfl
@[simp] theorem resetBlock_res : s.resetBlock.res = 0#64 := rfl
@[simp] theorem resetBlock_wrap : s.resetBlock.wrap = false := rfl
@[simp] theorem resetBlock_err : s.resetBlock.err = .ok := rfl
@[simp] theorem resetBlock_dma : s.resetBlock.dma = s.dma := rfl
@[simp] theorem resetBlock_platform : s.resetBlock.platform = s.platform := rfl
@[simp] theorem resetBlock_entropy : s.resetBlock.entropy = s.entropy := rfl
@[simp] theorem resetBlock_freeTick : s.resetBlock.freeTick = s.freeTick := rfl
@[simp] theorem resetBlock_pending : s.resetBlock.pending = s.pending := rfl
@[simp] theorem resetBlock_readLog : s.resetBlock.readLog = s.readLog := rfl

/-! ### `State.takeEntropy` -/

@[simp] theorem takeEntropy_gen : s.takeEntropy.gen = s.gen := by
  unfold State.takeEntropy; split <;> rfl
@[simp] theorem takeEntropy_opa : s.takeEntropy.opa = s.opa := by
  unfold State.takeEntropy; split <;> rfl
@[simp] theorem takeEntropy_opb : s.takeEntropy.opb = s.opb := by
  unfold State.takeEntropy; split <;> rfl
@[simp] theorem takeEntropy_res : s.takeEntropy.res = s.res := by
  unfold State.takeEntropy; split <;> rfl
@[simp] theorem takeEntropy_wrap : s.takeEntropy.wrap = s.wrap := by
  unfold State.takeEntropy; split <;> rfl
@[simp] theorem takeEntropy_err : s.takeEntropy.err = s.err := by
  unfold State.takeEntropy; split <;> rfl
@[simp] theorem takeEntropy_dma : s.takeEntropy.dma = s.dma := by
  unfold State.takeEntropy; split <;> rfl
@[simp] theorem takeEntropy_platform : s.takeEntropy.platform = s.platform := by
  unfold State.takeEntropy; split <;> rfl
@[simp] theorem takeEntropy_pending : s.takeEntropy.pending = s.pending := by
  unfold State.takeEntropy; split <;> rfl
@[simp] theorem takeEntropy_readLog : s.takeEntropy.readLog = s.readLog := by
  unfold State.takeEntropy; split <;> rfl

/-- A placed word is taken from the port. -/
theorem takeEntropy_placed (w : Word) (rest : List Word) (h : s.entropy = w :: rest) :
    s.entropyNext = w ∧ s.takeEntropy = { s with entropy := rest } := by
  simp [State.entropyNext, State.takeEntropy, h]

/-- With no word placed, the word is free and the free-value counter advances. -/
theorem takeEntropy_free (h : s.entropy = []) :
    s.entropyNext = Config.entropyWord s.freeTick ∧
      s.takeEntropy = { s with freeTick := s.freeTick + 1 } := by
  simp [State.entropyNext, State.takeEntropy, h]

/-! ### `SEEDED` -/

@[simp] theorem isSeeded_setErr (c : ErrCode) : (s.setErr c).isSeeded = s.isSeeded := rfl
@[simp] theorem isSeeded_setEngine (e : Engine) : (s.setEngine e).isSeeded = true := rfl
@[simp] theorem isSeeded_setResult (r : DWord) (w : Bool) : (s.setResult r w).isSeeded = s.isSeeded := rfl
@[simp] theorem isSeeded_setDma (m : Memory) : (s.setDma m).isSeeded = s.isSeeded := rfl
@[simp] theorem isSeeded_setOpa (v : DWord) : (s.setOpa v).isSeeded = s.isSeeded := rfl
@[simp] theorem isSeeded_setOpb (v : DWord) : (s.setOpb v).isSeeded = s.isSeeded := rfl
@[simp] theorem isSeeded_logRead (v : Word) : (s.logRead v).isSeeded = s.isSeeded := rfl
@[simp] theorem isSeeded_setPending (evs : List BusEvent) : (s.setPending evs).isSeeded = s.isSeeded := rfl
@[simp] theorem isSeeded_resetBlock : s.resetBlock.isSeeded = false := rfl
@[simp] theorem isSeeded_takeEntropy : s.takeEntropy.isSeeded = s.isSeeded := by
  simp [State.isSeeded]

/-- `SEEDED` is 0 exactly while the generator holds no value (10_state R23). -/
theorem isSeeded_eq_false : s.isSeeded = false ↔ s.gen = .unseeded := by
  unfold State.isSeeded; split <;> simp_all

/-- `SEEDED` is 1 exactly while the generator holds an engine (10_state R23). -/
theorem isSeeded_eq_true : s.isSeeded = true ↔ ∃ e, s.gen = .seeded e := by
  unfold State.isSeeded; split <;> simp_all

end Sys2Proof.Machine
end

