-- ==== Sys2Proof/Laws/Ops.lean ====
section
/-!
SUPPORT. What each shared operation can do, said once: the slots and the draw, the ends of a command, the
operand checks, the shared bodies of the command families.
-/
namespace Sys2Proof.Machine

/-! ### Slots -/

theorem readSlot_writeSlot_same (sb : Vector Word 56) (i : Nat) (v : Word) (h : i < 56) :
    readSlot (writeSlot sb i v) i = v := by
  simp [readSlot, writeSlot, h]

theorem readSlot_writeSlot_other (sb : Vector Word 56) (i j : Nat) (v : Word) (h : j ≠ i) :
    readSlot (writeSlot sb i v) j = readSlot sb j := by
  unfold readSlot writeSlot
  split
  · simp [h.symm]
  · rfl

/-- A write past the buffer, which no rule makes, changes nothing. -/
theorem writeSlot_outside (sb : Vector Word 56) (i : Nat) (v : Word) (h : 56 ≤ i) :
    writeSlot sb i v = sb := by
  apply Vector.ext
  intro j hj
  simp [writeSlot, Nat.ne_of_gt (Nat.lt_of_lt_of_le hj h)]

/-! ### Cursors and draws -/

/-- A cursor steps to the next slot and from 55 (or past it) to 1 (41_engine R121). -/
theorem advance_val (c : Fin 56) : (advance c).val = if c.val + 1 ≥ 56 then 1 else c.val + 1 := by
  unfold advance nSlots
  split
  · rename_i h; rw [if_neg (by omega)]
  · rename_i h; rw [if_pos (by omega)]; rfl

/-- After a step a cursor lies in [1, 55] (10_state R21). -/
theorem advance_live (c : Fin 56) : 1 ≤ (advance c).val ∧ (advance c).val ≤ 55 := by
  rw [advance_val]; split <;> omega

@[simp] theorem draw_ca (e : Engine) : (draw e).2.ca = advance e.ca := rfl
@[simp] theorem draw_cb (e : Engine) : (draw e).2.cb = advance e.cb := rfl

/-- The drawn value comes from the two slots at the advanced cursors (41_engine R123). -/
theorem draw_value (e : Engine) :
    (draw e).1 = drawValue (readSlot e.sb (advance e.ca).val) (readSlot e.sb (advance e.cb).val) := rfl

/-- The slot at the advanced `CA` holds the drawn value (41_engine R123). -/
theorem draw_slot_written (e : Engine) : readSlot (draw e).2.sb (advance e.ca).val = (draw e).1 :=
  readSlot_writeSlot_same _ _ _ (advance e.ca).isLt

/-- Every other slot is kept (41_engine R123). -/
theorem draw_slot_kept (e : Engine) (i : Nat) (h : i ≠ (advance e.ca).val) :
    readSlot (draw e).2.sb i = readSlot e.sb i :=
  readSlot_writeSlot_other _ _ _ _ h

/-- What `addMIfNegative` does: nothing to a non-negative word, plus `M` to a negative one. -/
theorem addMIfNegative_cases (v : Word) :
    (0 ≤ v.toInt ∧ addMIfNegative v = v) ∨ (v.toInt < 0 ∧ addMIfNegative v = v + mWord) := by
  unfold addMIfNegative
  by_cases h : v.msb = true
  · right; exact ⟨by simpa [BitVec.msb_eq_toInt] using h, by simp [h]⟩
  · left; exact ⟨by simpa [BitVec.msb_eq_toInt] using h, by simp [h]⟩

/-! ### The ends of a command -/

@[simp] theorem reject_eq (c : ErrCode) (s : State) : reject c s = .next (s.setErr c) := rfl

@[simp] theorem finish_eq (e : Engine) (res : DWord) (wrap : Bool) (s : State) :
    finish e res wrap s = .next (((s.setEngine e).setResult res wrap).setErr .ok) := rfl

/-- Unseeded, a sampling command is rejected whatever else is wrong (60_exceptions R203, R207). -/
theorem withEngine_unseeded (s : State) (check : Option ErrCode) (body : Engine → Result)
    (h : s.gen = .unseeded) : withEngine s check body = .next (s.setErr .unseeded) := by
  simp [withEngine, h]

/-- Seeded, a failed check rejects the command. -/
theorem withEngine_rejected (s : State) (e : Engine) (c : ErrCode) (body : Engine → Result)
    (h : s.gen = .seeded e) : withEngine s (some c) body = .next (s.setErr c) := by
  simp [withEngine, h]

/-- Seeded with every check passed, the body runs. -/
theorem withEngine_runs (s : State) (e : Engine) (body : Engine → Result) (h : s.gen = .seeded e) :
    withEngine s none body = body e := by
  simp [withEngine, h]

/-- All that `withEngine` can do. -/
theorem withEngine_cases (s : State) (check : Option ErrCode) (body : Engine → Result) :
    (s.gen = .unseeded ∧ withEngine s check body = .next (s.setErr .unseeded)) ∨
    (∃ e c, s.gen = .seeded e ∧ check = some c ∧ withEngine s check body = .next (s.setErr c)) ∨
    (∃ e, s.gen = .seeded e ∧ check = none ∧ withEngine s check body = body e) := by
  rcases hg : s.gen with _ | e
  · exact .inl ⟨rfl, withEngine_unseeded s check body hg⟩
  · rcases check with _ | c
    · exact .inr (.inr ⟨e, rfl, rfl, withEngine_runs s e body hg⟩)
    · exact .inr (.inl ⟨e, c, rfl, rfl, withEngine_rejected s e c body hg⟩)

/-! ### Operand checks -/

/-- `CheckF` raises `ERR_OPERAND` exactly for a selected operand that is not finite (42_sampler R142). -/
theorem checkF_operand (hasMin hasMax : Bool) (s : State) :
    checkF hasMin hasMax s = some .operand ↔
      (hasMin = true ∧ isFinite (minF s) = false) ∨ (hasMax = true ∧ isFinite (maxF s) = false) := by
  cases hasMin <;> cases hasMax <;> cases h1 : isFinite (minF s) <;> cases h2 : isFinite (maxF s) <;>
    first
    | simp [checkF, h1, h2]; done
    | (simp [checkF, h1, h2]; split; all_goals simp)

/-- The codes `CheckF` can raise. -/
theorem checkF_codes (hasMin hasMax : Bool) (s : State) (c : ErrCode)
    (h : checkF hasMin hasMax s = some c) : c = .operand ∨ c = .range := by
  unfold checkF at h
  split at h <;> try split at h <;> try split at h <;> try split at h
  all_goals first | (split at h <;> simp_all) | simp_all

/-- With no operand selected, nothing is checked (30_encoding R63). -/
@[simp] theorem checkF_none (s : State) : checkF false false s = none := rfl

/-- The both-bounds shape passes when both are finite, ordered, and their difference is finite. -/
theorem checkF_both_passes (s : State) (h1 : isFinite (minF s) = true) (h2 : isFinite (maxF s) = true)
    (h3 : fgt (maxF s) (minF s) = true) (h4 : isFinite (fsub (maxF s) (minF s)) = true) :
    checkF true true s = none := by
  simp [checkF, h1, h2, h3, h4]

/-- The min-only shape passes when `min` is finite. -/
theorem checkF_min_passes (s : State) (h : isFinite (minF s) = true) : checkF true false s = none := by
  simp [checkF, h]

/-- The max-only shape passes when `max` is finite and above zero. -/
theorem checkF_max_passes (s : State) (h1 : isFinite (maxF s) = true) (h2 : fgt (maxF s) fzero = true) :
    checkF false true s = none := by
  simp [checkF, h1, h2]

/-- `BYTES` passes its check exactly when the range lies in the DMA space (20_memory R47). -/
theorem checkBytes_none (s : State) :
    checkBytes s = none ↔
      dstAddr s < 2 ^ s.platform.addrW ∧ dstAddr s + byteCount s ≤ 2 ^ s.platform.addrW := by
  unfold checkBytes
  split
  · rename_i h; simp; omega
  · rename_i h; simp; omega

/-! ### The families' shared bodies -/

/-- All that a construction does: it always completes (40_initializer R106). -/
theorem construct_eq (seed : Word) (s : State) :
    construct seed s =
      .next (((s.setEngine (initState seed)).setResult (bits64 (s32 seed)) false).setErr .ok) := rfl

/-- A `NEXT*` or `NEXTI*` command that passes its checks completes with one draw. -/
theorem sampleShaped_completes (hasMin hasMax : Bool) (f : Int → F64) (s : State) (e : Engine)
    (hg : s.gen = .seeded e) (hc : checkF hasMin hasMax s = none) :
    sampleShaped hasMin hasMax f s =
      .next (((s.setEngine (draw e).2).setResult (enc64 (f (s32 (draw e).1))) false).setErr .ok) := by
  unfold sampleShaped
  rw [hc, withEngine_runs s e _ hg]; rfl

/-- A `LONG*` command that passes its check completes with 8 draws. -/
theorem sampleWide_completes (f : Int → Int) (s : State) (e : Engine) (hg : s.gen = .seeded e) :
    sampleWide none f s =
      .next (((s.setEngine (wide e).2).setResult (bits64 (f ((wide e).1 : Int)))
        (wrapOf (f ((wide e).1 : Int)))).setErr .ok) := by
  unfold sampleWide
  rw [withEngine_runs s e _ hg]; rfl

/-- What `BYTES` does once its check has passed: it fills the range, or it is stuck (20_memory R48). -/
theorem execBytes_cases (s : State) (e : Engine) (hg : s.gen = .seeded e) (hc : checkBytes s = none) :
    execBytes s =
      if admitsAll s.platform (dstAddr s) (byteCount s) then
        .next (((s.setDma (fillBytes (byteCount s) (dstAddr s) s.dma e).1).setEngine
          (fillBytes (byteCount s) (dstAddr s) s.dma e).2).setErr .ok)
      else .fault .stuckDma := by
  unfold execBytes
  rw [hc, withEngine_runs s e _ hg]

/-! ### The flags -/

theorem wrapOf_eq_true (z : Int) : wrapOf z = true ↔ z < 0 ∨ 2 ^ 64 ≤ z := by
  simp [wrapOf]

/-! ### The port -/

/-- The map of 20_memory R41, read from its names. -/
theorem regAt_regOffset (r : Reg) : regAt (regOffset r) = some r := by cases r <;> rfl

/-- A command write lies in the window and is accepted. -/
theorem cmdWrite_reaches (s : State) (w : Word) :
    busAccess { kind := .write w, addr := s.platform.regBase + regOffset .cmd, size := 4 } s =
      runCommand w s := by
  simp [busAccess, Access.inWindow, Access.accepted, regOffset, portWrite, regAt]

/-- A legal word runs its command. -/
theorem runCommand_legal (w : Word) (i : Instr) (s : State) (h : decode w = .ok i) :
    runCommand w s = exec i s := by
  simp [runCommand, h]

/-- An illegal word is rejected with `ERR_ILLEGAL` (60_exceptions R202). -/
theorem runCommand_illegal (w : Word) (x : DecodeError) (s : State) (h : decode w = .error x) :
    runCommand w s = .next (s.setErr .illegal) := by
  simp [runCommand, h]

/-- All that a register access can do: a read, a write, or a refusal. -/
theorem busAccess_cases (a : Access) (s : State) :
    (busAccess a s = .refused .outsideWindow) ∨ (busAccess a s = .refused .portAccess) ∨
    (a.kind = .read ∧
      busAccess a s = .next (s.logRead (portRead s (a.addr - s.platform.regBase)))) ∨
    (∃ v, a.kind = .write v ∧ busAccess a s = portWrite s (a.addr - s.platform.regBase) v) := by
  unfold busAccess
  split
  · split
    · split
      · rename_i h; exact .inr (.inr (.inl ⟨h, rfl⟩))
      · rename_i v h; exact .inr (.inr (.inr ⟨v, h, rfl⟩))
    · exact .inr (.inl rfl)
  · exact .inl rfl

/-- All that a write at the port can do. -/
theorem portWrite_cases (s : State) (o : Nat) (v : Word) :
    (portWrite s o v = runCommand v s) ∨ (portWrite s o v = .next s) ∨
    (∃ x, portWrite s o v = .next (s.setOpa x)) ∨ (∃ x, portWrite s o v = .next (s.setOpb x)) := by
  unfold portWrite
  split
  case h_1 => exact .inl rfl
  case h_2 => exact .inr (.inr (.inl ⟨_, rfl⟩))
  case h_3 => exact .inr (.inr (.inl ⟨_, rfl⟩))
  case h_4 => exact .inr (.inr (.inr ⟨_, rfl⟩))
  case h_5 => exact .inr (.inr (.inr ⟨_, rfl⟩))
  all_goals exact .inr (.inl rfl)

end Sys2Proof.Machine
end

