-- ==== Sys2Proof/Laws/PerInstr.lean ====
section
/-!
SUPPORT. A family of lemmas, one per constructor of `Instr`: the fields of each command survive packing into
a word, and they are legal (30_encoding R60, R61).
-/
namespace Sys2Proof.Laws.PacksToLegalWord

/-- The word of `i` has the fields `i` has, and they are legal. -/
def Statement (i : Instr) : Prop :=
  cmdFields (packFields (fieldsOf i)) = fieldsOf i ∧ (fieldsOf i).legal = true

theorem seed : Statement .seed := by unfold Statement; decide
theorem seedr : Statement .seedr := by unfold Statement; decide
theorem raw : Statement .raw := by unfold Statement; decide
theorem unit : Statement .unit := by unfold Statement; decide
theorem next : Statement .next := by unfold Statement; decide
theorem nextMin : Statement .nextMin := by unfold Statement; decide
theorem nextMax : Statement .nextMax := by unfold Statement; decide
theorem nextMm : Statement .nextMm := by unfold Statement; decide
theorem nexti : Statement .nexti := by unfold Statement; decide
theorem nextiMin : Statement .nextiMin := by unfold Statement; decide
theorem nextiMax : Statement .nextiMax := by unfold Statement; decide
theorem nextiMm : Statement .nextiMm := by unfold Statement; decide
theorem bytes : Statement .bytes := by unfold Statement; decide
theorem long : Statement .long := by unfold Statement; decide
theorem longMin : Statement .longMin := by unfold Statement; decide
theorem longMax : Statement .longMax := by unfold Statement; decide
theorem longMm : Statement .longMm := by unfold Statement; decide

end Sys2Proof.Laws.PacksToLegalWord
end

