-- ==== Sys2Proof/Laws/Safety.lean ====
section
/-!
SUPPORT. Small laws of the terms of the statements: a run one step at a time, the place of a value in the order
of the numbers, the exact result of a `LONG*`.
-/
namespace Sys2Proof.Machine

/-! ### Runs -/

@[simp] theorem runSteps_zero (s : State) : runSteps 0 s = .next s := rfl

/-- A run whose first step goes to `t` is the run from `t`. -/
theorem runSteps_of_next (n : Nat) (s t : State) (h : step s = .next t) :
    runSteps (n + 1) s = runSteps n t := by
  simp [runSteps, h]

/-- A run whose first step faults stops there. -/
theorem runSteps_of_fault (n : Nat) (s : State) (f : Fault) (h : step s = .fault f) :
    runSteps (n + 1) s = .fault f := by
  simp [runSteps, h]

/-- A run whose first step is refused stops there. -/
theorem runSteps_of_refused (n : Nat) (s : State) (r : Refusal) (h : step s = .refused r) :
    runSteps (n + 1) s = .refused r := by
  simp [runSteps, h]

/-- A run that agrees with itself on the DMA bytes. -/
theorem SameDmaWrites.refl (m n : Memory) : SameDmaWrites m m n n := fun _ => .inl rfl

/-! ### Values -/

@[simp] theorem placeOf_nan : placeOf .nan = none := rfl
@[simp] theorem placeOf_negInf : placeOf (.inf true) = some ⊥ := rfl
@[simp] theorem placeOf_posInf :
    placeOf (.inf false) = some ((⊤ : WithTop Int) : WithBot (WithTop Int)) := rfl
@[simp] theorem placeOf_fin (neg : Bool) (mag : Nat) :
    placeOf (.fin neg mag) = some (((signedUnits neg mag : Int) : WithTop Int) : WithBot (WithTop Int)) := rfl

/-- Finite values are the same number exactly when they are the same number of units. -/
theorem sameNumber_fin (a b : Bool) (m n : Nat) :
    SameNumber (.fin a m) (.fin b n) ↔ signedUnits a m = signedUnits b n := by
  unfold SameNumber
  simp only [fle_fin, decide_eq_true_eq]
  omega

/-- Only a finite value is the same number as a finite one. -/
theorem isFinite_of_sameNumber_fin (x : F64) (b : Bool) (n : Nat) (h : SameNumber x (.fin b n)) :
    isFinite x = true := by
  unfold SameNumber at h
  rcases x with _ | (_ | _) | ⟨a, m⟩ <;> simp_all [fle]

/-! ### The exact result of a `LONG*` -/

@[simp] theorem longResult_long (s : State) (e : Engine) : longResult .long s e = some (wideValue e : Int) := rfl
@[simp] theorem longResult_longMin (s : State) (e : Engine) :
    longResult .longMin s e = some ((wideValue e : Int) + s.opa.toInt) := rfl
@[simp] theorem longResult_longMax (s : State) (e : Engine) :
    longResult .longMax s e = some ((wideValue e : Int) % s.opb.toInt) := rfl
@[simp] theorem longResult_longMm (s : State) (e : Engine) :
    longResult .longMm s e =
      some ((wideValue e : Int) % (s.opb.toInt - s.opa.toInt) + s.opa.toInt) := rfl

end Sys2Proof.Machine
end

