-- ==== Sys2Proof/Laws/Step.lean ====
section
/-!
SUPPORT. What one step can do, said once.
-/
namespace Sys2Proof.Machine

/-- With nothing to deliver, the block waits. -/
theorem step_idle (s : State) (h : s.pending = []) : step s = .next s := by
  unfold step deliverNext; rw [h]

/-- A reset takes effect on the block alone (70_reset R230). -/
theorem step_reset (s : State) (rest : List BusEvent) (h : s.pending = .reset :: rest) :
    step s = .next (s.setPending rest).resetBlock := by
  unfold step deliverNext; rw [h]

/-- An access that no reset follows takes effect on the state with it taken off the list. -/
theorem step_access (s : State) (a : Access) (rest : List BusEvent) (h : s.pending = .access a :: rest)
    (hr : rest.head? ≠ some .reset) : step s = busAccess a (s.setPending rest) := by
  unfold step deliverNext; rw [h]
  rcases rest with _ | ⟨_ | _, rest⟩ <;> simp_all

/-- An access that a reset follows takes effect unless it is stuck, and the reset then aborts it. -/
theorem step_access_reset (s : State) (a : Access) (rest : List BusEvent)
    (h : s.pending = .access a :: .reset :: rest) :
    (busAccess a (s.setPending (.reset :: rest)) = .fault .stuckDma ∧
      step s = .next (abortStuck (s.setPending rest))) ∨
    (busAccess a (s.setPending (.reset :: rest)) ≠ .fault .stuckDma ∧
      step s = busAccess a (s.setPending (.reset :: rest))) := by
  have hs : step s = match busAccess a (s.setPending (.reset :: rest)) with
      | .fault .stuckDma => .next (abortStuck (s.setPending rest))
      | o => o := by
    show deliverNext s = _
    cases s; cases h; rfl
  rw [hs]
  rcases busAccess a (s.setPending (.reset :: rest)) with t | ⟨⟨⟩⟩ | r
  · exact .inr ⟨by simp, rfl⟩
  · exact .inl ⟨rfl, rfl⟩
  · exact .inr ⟨by simp, rfl⟩

/-- An abort leaves the block as a reset leaves it; only DMA bytes and the free-value counter differ. -/
theorem abortStuck_block (s : State) :
    (abortStuck s).gen = .unseeded ∧ (abortStuck s).opa = 0#64 ∧ (abortStuck s).opb = 0#64 ∧
      (abortStuck s).res = 0#64 ∧ (abortStuck s).wrap = false ∧ (abortStuck s).err = .ok ∧
      (abortStuck s).platform = s.platform ∧ (abortStuck s).entropy = s.entropy ∧
      (abortStuck s).pending = s.pending ∧ (abortStuck s).readLog = s.readLog := by
  unfold abortStuck
  split <;> exact ⟨rfl, rfl, rfl, rfl, rfl, rfl, rfl, rfl, rfl, rfl⟩

/-- A command placed by `withFetchWord` is the access the next step delivers. -/
theorem withFetchWord_pending (s : State) (nbits w : Nat) :
    (s.withFetchWord nbits w).pending =
      cmdWrite s.platform (BitVec.ofNat 32 (w % 2 ^ nbits)) :: s.pending := rfl

end Sys2Proof.Machine
end

