-- ==== Sys2Proof/Tests/Slice0.lean ====
section
/-!
SUPPORT. Tests: ill-formed terms the checks refuse; every word of 30_encoding R62, written out from the table;
single commands against the vectors of 95_test_vectors (numbers evaluated there from the rules, not by this
model); and, for every statement with hypotheses, a state that meets them (`witness_…`).
-/
namespace Sys2Proof.Tests
set_option Elab.async false
open Sys2Proof Sys2Proof.Machine

/-! ### Helpers -/

/-- `vs` written to the slots from `i` on. -/
def fillSlots (i : Nat) (vs : List Word) (sb : Vector Word 56) : Vector Word 56 :=
  match vs with
  | [] => sb
  | v :: rest => fillSlots (i + 1) rest (writeSlot sb i v)

/-- The slots that the first 8 draws after `SEED` 42 read, from V-INI-1, the others 0, with its cursors. -/
def engine42 : Engine :=
  { sb := fillSlots 22 [1019975968#32, 1884852159#32, 2127618559#32, 1836412618#32, 1443174533#32,
        1029840164#32, 734622011#32, 387479549#32]
      (fillSlots 1 [307240031#32, 39964631#32, 249683386#32, 811556705#32, 1804884275#32, 1593753640#32,
        142793481#32, 1488972856#32] (Vector.replicate 56 0#32))
    ca := 0
    cb := 21 }

/-- A seeded block with these operands; `RES` as `SEED` 42 leaves it. -/
def block (opa opb : DWord) : State :=
  { State.reset with gen := .seeded engine42, opa := opa, opb := opb, res := 42#64 }

/-- The same block on a platform whose memory admits no DMA write. -/
def closedBlock (opa opb : DWord) : State :=
  { block opa opb with platform := { regBase := 0, addrW := 32, dmaRegions := [] } }

/-- `RES`, `STATUS` and the cursors of a next state. -/
def shown (r : Result) : Option (Nat × Nat × Option (Nat × Nat)) :=
  match r with
  | .next t => some (t.res.toNat, (statusWord t).toNat, match t.gen with
    | .unseeded => none
    | .seeded e => some (e.ca.val, e.cb.val))
  | .fault _ => none
  | .refused _ => none

/-- The DMA bytes of a next state. -/
def dmaOf (r : Result) : Option (List (Nat × Byte)) :=
  match r with
  | .next t => some t.dma
  | .fault _ => none
  | .refused _ => none

/-- What a sampler shows after one draw that completed: this `RES`, `STATUS` 0x01, `CA` = 1, `CB` = 22. -/
def oneDraw (res : Nat) : Option (Nat × Nat × Option (Nat × Nat)) := some (res, 0x01, some (1, 22))

/-- What a rejected command shows on `block`: `RES` and the cursors as they were, and this `STATUS`. -/
def turnedAway (status : Nat) : Option (Nat × Nat × Option (Nat × Nat)) := some (42, status, some (0, 21))

/-! ### WellFormed: an ill-formed term for each check -/

theorem test_wf_reserved_bits : (cmdFields 0x00000045#32).legal = false := by decide
theorem test_wf_reserved_op : (cmdFields 0x00000009#32).opListed = false := by decide
theorem test_wf_op_zero : (cmdFields 0x00000000#32).legal = false := by decide
theorem test_wf_shape_on_unshaped : (cmdFields 0x00000017#32).legal = false := by decide
theorem test_wf_bytes_not_shaped : (cmdFields 0x00000007#32).opShaped = false := by decide
theorem test_wf_narrow_access : Access.accepted 64 { kind := .read, addr := 64, size := 2 } = false := by decide
theorem test_wf_wide_access : Access.wellFormed 64 { kind := .read, addr := 72, size := 8 } = false := by decide
theorem test_wf_misaligned_access :
    Access.accepted 64 { kind := .write 1#32, addr := 66, size := 4 } = false := by decide
theorem test_wf_access_above : Access.inWindow 64 { kind := .read, addr := 128, size := 4 } = false := by decide
theorem test_wf_access_below : Access.inWindow 64 { kind := .read, addr := 60, size := 4 } = false := by decide
theorem test_wf_platform_base :
    Platform.wellFormed { regBase := 32, addrW := 32, dmaRegions := [] } = false := by decide
theorem test_wf_platform_no_address :
    Platform.wellFormed { regBase := 64, addrW := 0, dmaRegions := [] } = false := by decide
theorem test_wf_platform_wide_address :
    Platform.wellFormed { regBase := 64, addrW := 65, dmaRegions := [] } = false := by decide

/-! ### Decode: every word of 30_encoding R62 -/

theorem test_decode_seed : decode 0x00000001#32 = .ok .seed := by decide
theorem test_decode_seedr : decode 0x00000002#32 = .ok .seedr := by decide
theorem test_decode_raw : decode 0b00000000000000000000000000000011#32 = .ok .raw := by decide
theorem test_decode_unit : decode 0b00000000000000000000000000000100#32 = .ok .unit := by decide
theorem test_decode_next : decode 0x00000005#32 = .ok .next := by decide
theorem test_decode_nextMin : decode 0x00000015#32 = .ok .nextMin := by decide
theorem test_decode_nextMax : decode 0x00000025#32 = .ok .nextMax := by decide
theorem test_decode_nextMm : decode 0b00000000000000000000000000110101#32 = .ok .nextMm := by decide
theorem test_decode_nexti : decode 0x00000006#32 = .ok .nexti := by decide
theorem test_decode_nextiMin : decode 0b00000000000000000000000000010110#32 = .ok .nextiMin := by decide
theorem test_decode_nextiMax : decode 0x00000026#32 = .ok .nextiMax := by decide
theorem test_decode_nextiMm : decode 0x00000036#32 = .ok .nextiMm := by decide
theorem test_decode_bytes : decode 0b00000000000000000000000000000111#32 = .ok .bytes := by decide
theorem test_decode_long : decode 0x00000008#32 = .ok .long := by decide
theorem test_decode_longMin : decode 0x00000018#32 = .ok .longMin := by decide
theorem test_decode_longMax : decode 0b00000000000000000000000000101000#32 = .ok .longMax := by decide
theorem test_decode_longMm : decode 0x00000038#32 = .ok .longMm := by decide

/-- V-ERR-1: `OP` 0x0, 0x9 and 0xF. -/
theorem test_decode_reserved_op :
    [0x00000000#32, 0x00000009#32, 0x0000000F#32].map decode =
      [.error .reservedOp, .error .reservedOp, .error .reservedOp] := by decide

/-- V-ERR-1: a shape on `SEED`, `RAW` and `BYTES`. -/
theorem test_decode_shape_on_unshaped :
    [0x00000011#32, 0x00000013#32, 0x00000023#32, 0x00000017#32, 0x00000037#32].map decode =
      [.error .shapeOnUnshaped, .error .shapeOnUnshaped, .error .shapeOnUnshaped, .error .shapeOnUnshaped,
        .error .shapeOnUnshaped] := by decide

/-- V-ERR-1: bits 6, 24 and 31. -/
theorem test_decode_reserved_bits :
    [0x00000040#32, 0x00000045#32, 0x01000005#32, 0x80000003#32].map decode =
      [.error .reservedBits, .error .reservedBits, .error .reservedBits, .error .reservedBits] := by decide

/-- A table word of more than the row's bits, and one of fewer. -/
theorem test_decode_table_word :
    decodeTableWord 32 0x36 = some .nextiMm ∧ decodeTableWord 8 0x107 = some .bytes ∧
      decodeTableWord 32 0x40 = none ∧ decodeTableWord 40 0x05 = none := by decide

/-! ### The initializer -/

/-- V-INI-1 at slots 1, 21 and 55, and V-INI-2 at slots 42 and 21 (through `scramble`). -/
theorem test_initState_42 :
    ((initState 42#32).slot 1, (initState 42#32).slot 21, (initState 42#32).slot 55) =
      (307240031, 633436803, 4358958) := by decide +kernel

/-- V-INI-5: the seed −2^31 and the seed 0 differ in slot 55. -/
theorem test_initState_minInt :
    ((initState 0x80000000#32).slot 1, (initState 0x80000000#32).slot 55) = (1440537475, 25386148) := by
  decide +kernel

/-- V-INI-5 and V-INI-6: a negative seed is sign-extended in `RES`; `OPA[63:32]` is ignored. -/
theorem test_seed :
    shown (exec .seed (block 0x0000ABCDFFFFFFFF#64 0#64)) =
      some (0xFFFFFFFFFFFFFFFF, 0x01, some (0, 21)) := by decide +kernel

/-- V-INI-7: the entropy word 0xDEADBEEF. -/
theorem test_seedr :
    shown (exec .seedr { State.reset with entropy := [0xDEADBEEF#32] }) =
      some (0xFFFFFFFFDEADBEEF, 0x01, some (0, 21)) := by decide +kernel

/-! ### Draws and samplers (fresh seed 42) -/

/-- V-ENG-1, the first draw. -/
theorem test_raw : shown (exec .raw (block 0#64 0#64)) = oneDraw 1434747710 := by decide +kernel

/-- V-ENG-5: unseeded `RAW`. -/
theorem test_raw_unseeded : shown (exec .raw State.reset) = some (0, 0x20, none) := by decide +kernel

/-- V-UNI-1. -/
theorem test_unit : shown (exec .unit (block 0#64 0#64)) = oneDraw 0x3FE56120CFAAC242 := by decide +kernel

/-- V-RNG-1: NaN and +∞ in the operands are not read. -/
theorem test_next :
    shown (exec .next (block 0x7FF8000000000000#64 0x7FF0000000000000#64)) =
      oneDraw 0x41D56120CF800000 := by decide +kernel

/-- V-RNG-1: `min` = 5.5. -/
theorem test_nextMin :
    shown (exec .nextMin (block 0x4016000000000000#64 0#64)) = oneDraw 0x4018AC2419F55848 := by decide +kernel

/-- V-RNG-5: `min` = −∞. -/
theorem test_nextMin_infinite :
    shown (exec .nextMin (block 0xFFF0000000000000#64 0#64)) = turnedAway 0x31 := by decide +kernel

/-- V-RNG-1: `max` = 100. -/
theorem test_nextMax :
    shown (exec .nextMax (block 0x7FF8000000000000#64 0x4059000000000000#64)) =
      oneDraw 0x4050B3E1A23D67C4 := by decide +kernel

/-- V-RNG-1: `max` = 2^-1074, a subnormal result. -/
theorem test_nextMax_subnormal : shown (exec .nextMax (block 0#64 1#64)) = oneDraw 1 := by decide +kernel

/-- V-RNG-1: (−1, 1). -/
theorem test_nextMm :
    shown (exec .nextMm (block 0xBFF0000000000000#64 0x3FF0000000000000#64)) =
      oneDraw 0x3FD584833EAB0908 := by decide +kernel

/-- V-RNG-5: −1.7e308 and 1.7e308, whose difference overflows. -/
theorem test_nextMm_overflow :
    shown (exec .nextMm (block 0xFFEE42D130773B76#64 0x7FEE42D130773B76#64)) = turnedAway 0x41 := by
  decide +kernel

/-- V-RNG-1. -/
theorem test_nexti : shown (exec .nexti (block 0#64 0#64)) = oneDraw 0x41D56120CF800000 := by decide +kernel

/-- V-RNG-1: `min` = 5.5. -/
theorem test_nextiMin :
    shown (exec .nextiMin (block 0x4016000000000000#64 0#64)) = oneDraw 0x4018000000000000 := by decide +kernel

/-- V-RNG-1: `max` = 100. -/
theorem test_nextiMax :
    shown (exec .nextiMax (block 0#64 0x4059000000000000#64)) = oneDraw 0x4050800000000000 := by decide +kernel

/-- V-RNG-5: `max` a NaN. -/
theorem test_nextiMax_nan :
    shown (exec .nextiMax (block 0#64 0x7FF8000000000001#64)) = turnedAway 0x31 := by decide +kernel

/-- V-RNG-1: (−10, 10). -/
theorem test_nextiMm :
    shown (exec .nextiMm (block 0xC024000000000000#64 0x4024000000000000#64)) =
      oneDraw 0x4008000000000000 := by decide +kernel

/-- V-RNG-5: (NaN, −5) is `OPERAND` before `RANGE`. -/
theorem test_nextiMm_priority :
    shown (exec .nextiMm (block 0x7FF8000000000000#64 0xC014000000000000#64)) = turnedAway 0x31 := by
  decide +kernel

/-- V-RNG-2: `CINV`, `UMAX`, and the draw on which a division by `M` would differ. -/
theorem test_unit_values :
    (enc64 (unitOf 1)).toNat = 0x3E00000000200000 ∧ (enc64 (unitOf 2147483646)).toNat = 0x3FEFFFFFFFC00000 ∧
      (enc64 (unitOf 4198633)).toNat = 0x3F60043A40200874 := by decide +kernel

/-- V-RNG-3: with (2^22, 2^22 + 1) the largest draw gives `max` itself. -/
theorem test_range_counterexample :
    fadd (fmul umax (fsub (toF64 4194305) (toF64 4194304))) (toF64 4194304) = toF64 4194305 := by decide +kernel

/-! ### The byte fill and the wide samplers (fresh seed 42) -/

/-- V-BYT-1. -/
theorem test_bytes :
    dmaOf (exec .bytes (block 0x1000#64 8#64)) =
      some [(0x1000, 0x3E#8), (0x1001, 0x17#8), (0x1002, 0xBA#8), (0x1003, 0x96#8), (0x1004, 0xAE#8),
        (0x1005, 0x04#8), (0x1006, 0xCD#8), (0x1007, 0x3B#8)] := by decide +kernel

/-- V-BYT-3 and V-BYT-4: `ERR_ADDR` at the top of the space, and for an empty range outside it. -/
theorem test_bytes_address :
    shown (exec .bytes (block 0xFFFFFFFC#64 8#64)) = turnedAway 0x51 ∧
      shown (exec .bytes (block 0x100000000#64 0#64)) = turnedAway 0x51 := by decide +kernel

/-- V-LNG-1. -/
theorem test_long :
    shown (exec .long (block 0#64 0#64)) = some (0x3BCD04AE96BA173E, 0x01, some (8, 29)) := by decide +kernel

/-- V-LNG-1: `min` = 2^63 − 1 stays below 2^64. -/
theorem test_longMin :
    shown (exec .longMin (block 0x7FFFFFFFFFFFFFFF#64 0#64)) =
      some (0xBBCD04AE96BA173D, 0x01, some (8, 29)) := by decide +kernel

/-- V-LNG-1: `min` = −2^63 goes below 0. -/
theorem test_longMin_wrap :
    shown (exec .longMin (block 0x8000000000000000#64 0#64)) =
      some (0xBBCD04AE96BA173E, 0x03, some (8, 29)) := by decide +kernel

/-- V-LNG-1: `max` = 1000. -/
theorem test_longMax :
    shown (exec .longMax (block 0#64 1000#64)) = some (0x166, 0x01, some (8, 29)) := by decide +kernel

/-- V-LNG-2: `max` = −1. -/
theorem test_longMax_negative :
    shown (exec .longMax (block 0#64 0xFFFFFFFFFFFFFFFF#64)) = turnedAway 0x41 := by decide +kernel

/-- V-LNG-1: (−1000, 10). -/
theorem test_longMm :
    shown (exec .longMm (block 0xFFFFFFFFFFFFFC18#64 10#64)) =
      some (0xFFFFFFFFFFFFFE32, 0x03, some (8, 29)) := by decide +kernel

/-- V-LNG-1: (−2^63, 2^63 − 1), whose difference does not fit 64 signed bits. -/
theorem test_longMm_widest :
    shown (exec .longMm (block 0x8000000000000000#64 0x7FFFFFFFFFFFFFFF#64)) =
      some (0xBBCD04AE96BA173E, 0x03, some (8, 29)) := by decide +kernel

/-! ### Steps -/

/-- P4: an illegal word, and V-ERR-2: unseeded, the word 0x47 is `ILLEGAL`. -/
theorem test_step_illegal :
    shown (step (State.reset.withFetchWord 32 0x00)) = some (0, 0x10, none) ∧
      shown (step (State.reset.withFetchWord 32 0x47)) = some (0, 0x10, none) := by decide +kernel

/-- P3: a write to `OPB_HI` changes that half alone. -/
theorem test_step_half_write :
    (match step { block 0#64 0x401C000000000007#64 with
        pending := [wr State.reset.platform .opbHi 0x3FF00000#32] } with
      | .next t => t.opb.toNat
      | _ => 0) = 0x3FF0000000000007 := by decide +kernel

/-- P4: `rd STATUS` after a rejected command, and `rd RES_HI`. -/
theorem test_step_read :
    (match step { block 0#64 0#64 with err := .range, pending := [rd State.reset.platform .status] } with
      | .next t => t.readLog
      | _ => []) = [0x41#32] := by decide +kernel

/-- 70_reset R230: the reset input unseeds the block and leaves the DMA bytes. -/
theorem test_step_reset :
    shown (step { block 1#64 2#64 with pending := [.reset], dma := [(7, 1#8)] }) = some (0, 0x00, none) ∧
      dmaOf (step { block 1#64 2#64 with pending := [.reset], dma := [(7, 1#8)] }) = some [(7, 1#8)] := by
  decide +kernel

/-- The script of `nextInteger 1.0, 7.0` (30_encoding R69): the accesses it makes, in order. -/
theorem test_script_nextInteger :
    nextIntegerScript State.reset.platform (some 0x3FF0000000000000#64) (some 0x401C000000000000#64) =
      [.access { kind := .write 0#32, addr := 0x08, size := 4 },
        .access { kind := .write 0x3FF00000#32, addr := 0x0C, size := 4 },
        .access { kind := .write 0#32, addr := 0x10, size := 4 },
        .access { kind := .write 0x401C0000#32, addr := 0x14, size := 4 },
        .access { kind := .write 0x36#32, addr := 0x00, size := 4 },
        .access { kind := .read, addr := 0x18, size := 4 },
        .access { kind := .read, addr := 0x1C, size := 4 }] := by decide

/-! ### Witnesses: states that meet the hypotheses of the statements -/

theorem witness_engine_invariant : engine42.Inv := by decide +kernel

theorem witness_ResetInputClearsBlock :
    ({ block 1#64 2#64 with pending := [.reset] } : State).pending = .reset :: [] := rfl

theorem witness_ResetAbortsStuckBytes :
    ({ closedBlock 0#64 1#64 with
        pending := [cmdWrite State.reset.platform (encode .bytes), .reset] } : State).pending =
      cmdWrite (closedBlock 0#64 1#64).platform (encode .bytes) :: .reset :: [] ∧
    (closedBlock 0#64 1#64).gen = .seeded engine42 ∧
    (match exec .bytes ((closedBlock 0#64 1#64).setPending [.reset]) with
      | .fault .stuckDma => true
      | _ => false) = true := by
  refine ⟨rfl, rfl, ?_⟩
  decide +kernel

theorem witness_IdleBlockWaits : State.reset.pending = [] := rfl

/-- Its three clauses: a command, alone and before a reset; an illegal word; a read of `CMD`. -/
theorem witness_StepRunsDecodedCommand :
    (State.reset.withFetchWord 32 0x01).pending = cmdWrite State.reset.platform 0x01#32 :: [] ∧
    decode 0x01#32 = .ok .seed ∧ ([] : List BusEvent).head? ≠ some .reset ∧
    isNext (exec .seed (State.reset.setPending [.reset])) = true ∧
    (State.reset.withFetchWord 32 0x09).pending = cmdWrite State.reset.platform 0x09#32 :: [] ∧
    decode 0x09#32 = .error .reservedOp ∧
    (State.reset.setPending [rd State.reset.platform .cmd]).pending =
      rd State.reset.platform .cmd :: [] := by decide +kernel

/-- The edges of the three kinds of illegal word. -/
theorem witness_IllegalWord :
    (IllegalWord 0x40#32 ∧ IllegalWord 0x80000001#32) ∧
    (IllegalWord 0x00#32 ∧ IllegalWord 0x09#32 ∧ IllegalWord 0x0F#32) ∧
    (IllegalWord 0x11#32 ∧ IllegalWord 0x24#32 ∧ IllegalWord 0x37#32) :=
  ⟨⟨.inl (by decide), .inl (by decide)⟩,
    ⟨.inr (.inl (by decide)), .inr (.inl (by decide)), .inr (.inl (by decide))⟩,
    ⟨.inr (.inr (by decide)), .inr (.inr (by decide)), .inr (.inr (by decide))⟩⟩

theorem witness_CursorLaw : 1 ≤ 1 ∧ 0 < 56 ∧ 0 ≠ (1 - 1) % 55 + 1 := by decide

/-- Its two clauses: a placed entropy word, and none. -/
theorem witness_SeedrTakesOneWord :
    ({ State.reset with entropy := [0xDEADBEEF#32] } : State).entropy = 0xDEADBEEF#32 :: [] ∧
      State.reset.entropy = [] := ⟨rfl, rfl⟩

/-- Two blocks with different pasts and DMA bytes, and a run that completes in both. -/
theorem witness_SeedingDiscardsHistory :
    State.reset.opa = ({ block 0#64 0#64 with dma := [(3, 1#8)] } : State).opa ∧
    State.reset.opb = (block 0#64 0#64).opb ∧ State.reset.platform = (block 0#64 0#64).platform ∧
    State.reset.entropy = (block 0#64 0#64).entropy ∧ State.reset.freeTick = (block 0#64 0#64).freeTick ∧
    isNext (runCommands [.seed, .raw] State.reset) = true ∧
    isNext (runCommands [.seed, .raw] { block 0#64 0#64 with dma := [(3, 1#8)] }) = true := by
  decide +kernel

/-- The same on the bus: the operands written between the commands, a read, and a reset in the list. -/
theorem witness_SeedingDiscardsHistory_bus :
    ∀ s ∈ [({ block 0#64 0#64 with
        gen := .unseeded, pending := cmd (block 0#64 0#64).platform .seed :: ([cmd State.reset.platform .raw,
          wr State.reset.platform .opaHi 5#32, cmd State.reset.platform .longMin,
          rd State.reset.platform .resLo, .reset] : List BusEvent) } : State),
      { block 0#64 0#64 with
        wrap := true, dma := [(3, 1#8)], readLog := [9#32]
        pending := cmd (block 0#64 0#64).platform .seed :: ([cmd State.reset.platform .raw,
          wr State.reset.platform .opaHi 5#32, cmd State.reset.platform .longMin,
          rd State.reset.platform .resLo, .reset] : List BusEvent) }],
      isNext (runSteps 6 s) = true := by
  intro s hs
  simp only [List.mem_cons, List.not_mem_nil, or_false] at hs
  rcases hs with rfl | rfl <;> decide +kernel

/-- RAW, UNIT, NEXT, NEXTI, LONG and LONG.MIN ask for a seeded block only. -/
theorem witness_seeded_block (a b : DWord) : (block a b).gen = .seeded engine42 := rfl

/-- `min` at the smallest subnormal and at the largest finite value. -/
theorem witness_NextMin :
    isFinite (f64 (block 1#64 0#64).opa) = true ∧
      isFinite (f64 (block 0x7FEFFFFFFFFFFFFF#64 0#64).opa) = true := by decide +kernel

/-- `max` at the smallest value above 0 and at the largest finite value. -/
theorem witness_NextMax :
    isFinite (f64 (block 0#64 1#64).opb) = true ∧ fgt (f64 (block 0#64 1#64).opb) fzero = true ∧
      isFinite (f64 (block 0#64 0x7FEFFFFFFFFFFFFF#64).opb) = true ∧
      fgt (f64 (block 0#64 0x7FEFFFFFFFFFFFFF#64).opb) fzero = true := by decide +kernel

/-- (0, the smallest value above 0), and (−1, 1). -/
theorem witness_NextMm :
    (isFinite (f64 (block 0#64 1#64).opa) = true ∧ isFinite (f64 (block 0#64 1#64).opb) = true ∧
      fgt (f64 (block 0#64 1#64).opb) (f64 (block 0#64 1#64).opa) = true ∧
      isFinite (fsub (f64 (block 0#64 1#64).opb) (f64 (block 0#64 1#64).opa)) = true) ∧
    (isFinite (f64 0xBFF0000000000000#64) = true ∧ isFinite (f64 0x3FF0000000000000#64) = true ∧
      fgt (f64 0x3FF0000000000000#64) (f64 0xBFF0000000000000#64) = true ∧
      isFinite (fsub (f64 0x3FF0000000000000#64) (f64 0xBFF0000000000000#64)) = true) := by decide +kernel

/-- The last 8 bytes of the DMA space, and an empty range. -/
theorem witness_BytesFillsItsRange :
    ((block 0xFFFFFFF8#64 8#64).opa.toNat < 2 ^ (block 0xFFFFFFF8#64 8#64).platform.addrW ∧
      (block 0xFFFFFFF8#64 8#64).opa.toNat + (block 0xFFFFFFF8#64 8#64).opb.toNat % 4294967296 ≤
        2 ^ (block 0xFFFFFFF8#64 8#64).platform.addrW ∧
      ∀ k, k < 8 → admits (block 0xFFFFFFF8#64 8#64).platform (0xFFFFFFF8 + k) = true) ∧
    ((block 0#64 0#64).opa.toNat < 2 ^ 32 ∧
      (block 0#64 0#64).opa.toNat + (block 0#64 0#64).opb.toNat % 4294967296 ≤ 2 ^ 32) := by decide +kernel

/-- The first address past the space with an empty range, and a range one byte too long. -/
theorem witness_BytesOutsideSpaceRejected :
    2 ^ (block 0x100000000#64 0#64).platform.addrW ≤ (block 0x100000000#64 0#64).opa.toNat ∧
    2 ^ (block 0xFFFFFFFF#64 2#64).platform.addrW <
      (block 0xFFFFFFFF#64 2#64).opa.toNat + (block 0xFFFFFFFF#64 2#64).opb.toNat % 4294967296 := by
  decide +kernel

/-- Both sides of it: a block on which `BYTES` is stuck. -/
theorem witness_StuckExactlyWhenNotAdmitted :
    (match exec .bytes (closedBlock 0#64 1#64) with
      | .fault .stuckDma => true
      | _ => false) = true ∧
    (closedBlock 0#64 1#64).gen ≠ .unseeded ∧ (0#64).toNat < 2 ^ 32 ∧
    admits (closedBlock 0#64 1#64).platform 0 = false := by decide +kernel

/-- `max` = 1 for LONG.MAX; (−2^63, −2^63 + 1) and (−2^63, 2^63 − 1) for LONG.MM. -/
theorem witness_LongShapes :
    0 < (block 0#64 1#64).opb.toInt ∧
    (block 0x8000000000000000#64 0x8000000000000001#64).opa.toInt <
      (block 0x8000000000000000#64 0x8000000000000001#64).opb.toInt ∧
    (block 0x8000000000000000#64 0x7FFFFFFFFFFFFFFF#64).opa.toInt <
      (block 0x8000000000000000#64 0x7FFFFFFFFFFFFFFF#64).opb.toInt := by decide +kernel

/-- The two ends of the range of results, and four commands that complete. -/
theorem witness_ResAndWrapGiveLongResult :
    ((-9223372036854775808 : Int) ≤ -9223372036854775808 ∧
      (-9223372036854775808 : Int) < 27670116110564327424) ∧
    ((-9223372036854775808 : Int) ≤ 27670116110564327423 ∧
      (27670116110564327423 : Int) < 27670116110564327424) ∧
    [Instr.long, .longMin, .longMax, .longMm].all (fun i => isNext (exec i (block 0#64 1#64))) = true := by
  decide +kernel

theorem witness_BytesAgreesWithLong :
    (block 0xFFFFFFF8#64 0x700000008#64).opb.toNat % 4294967296 = 8 ∧
    (block 0xFFFFFFF8#64 0x700000008#64).opa.toNat + 8 ≤
      2 ^ (block 0xFFFFFFF8#64 0x700000008#64).platform.addrW ∧
    ∀ k, k < 8 → admits (block 0xFFFFFFF8#64 0x700000008#64).platform (0xFFFFFFF8 + k) = true := by
  decide +kernel

/-- The draws at the two ends. -/
theorem witness_UnitIntervalLaw :
    ((0 : Int) ≤ 0 ∧ (0 : Int) < (M : Int)) ∧ ((0 : Int) ≤ 2147483646 ∧ (2147483646 : Int) < (M : Int)) := by
  decide

/-- Each clause: the least sum, difference and divisor, sums and differences that are exactly zero (two negative
zeros among them), and the largest integer that converts exactly. -/
theorem witness_Binary64OperationsRoundCorrectly :
    signedUnits false 1 + signedUnits true 0 ≠ 0 ∧ signedUnits false 1 + signedUnits true 1 = 0 ∧
      signedUnits true 0 + signedUnits true 0 = 0 ∧ signedUnits false 3 = signedUnits false 3 ∧
      signedUnits true 0 = signedUnits false 0 ∧ signedUnits false 0 ≠ signedUnits true 1 ∧
      (1 : Nat) ≠ 0 ∧ (-9007199254740991 : Int).natAbs < 2 ^ 53 := by decide

/-- The exponents at the edges of each clause. -/
theorem witness_PatternsHaveTheirValues :
    (2047#11 = 2047#11 ∧ 0#52 = 0#52 ∧ 1#52 ≠ 0#52) ∧ (1#11 ≠ 0#11 ∧ 1#11 ≠ 2047#11) ∧
      (2046#11 ≠ 0#11 ∧ 2046#11 ≠ 2047#11) := by decide

/-- The smallest subnormal, the smallest normal and the largest finite pattern, 1.0, −∞ and a NaN. -/
theorem test_f64_patterns :
    f64 0x0000000000000001#64 = .fin false 1 ∧ f64 0x8010000000000000#64 = .fin true (2 ^ 52) ∧
      f64 0x7FEFFFFFFFFFFFFF#64 = .fin false ((2 ^ 53 - 1) * 2 ^ 2045) ∧
      f64 0x3FF0000000000000#64 = .fin false (2 ^ 1074) ∧ f64 0xFFF0000000000000#64 = .inf true ∧
      f64 0x7FF8000000000000#64 = .nan := by decide +kernel

/-- 42_sampler R144: `+0 + −0 = +0`. -/
theorem test_fadd_zeros :
    fadd (.fin false 0) (.fin true 0) = .fin false 0 ∧ fadd (.fin true 0) (.fin true 0) = .fin true 0 := by
  decide +kernel

/-- 42_sampler R152(d): the bounds of V-RNG-3 on both sides of the criterion, (1, 7) and (2^22, 2^22 + 1). -/
theorem witness_BelowMaxExactlyWhenLargestDrawIs :
    ([(0x3FF0000000000000#64, 0x401C000000000000#64), (0x4150000000000000#64, 0x4150000040000000#64)].all
      fun (a, b) => isFinite (f64 a) && isFinite (f64 b) && fgt (f64 b) (f64 a) &&
        isFinite (fsub (f64 b) (f64 a))) = true ∧
    isNext (exec .nextMm (block 0x3FF0000000000000#64 0x401C000000000000#64)) = true ∧
    isNext (exec .nextiMm (block 0x4150000000000000#64 0x4150000040000000#64)) = true := by decide +kernel

/-- A finite pattern, and a representable magnitude below the overflow. -/
theorem witness_FinitePatternRoundTrips :
    isFinite (f64 0x7FEFFFFFFFFFFFFF#64) = true ∧ Representable 1 ∧ 1 < overflowMag :=
  ⟨by decide +kernel, ⟨1, 0, by decide, by decide⟩, by decide +kernel⟩

/-- The widest integer band, a band of one value from −0.0, and one up to −0.0 (the engine and the draw as
`witness_engine_invariant`). -/
theorem witness_IntegerBandKeepsHalfOpenRange :
    (((-4194304 : Int) ≤ -4194304 ∧ (-4194304 : Int) < 4194304 ∧ (4194304 : Int) ≤ 4194304) ∧
      SameNumber (f64 (block 0xC150000000000000#64 0x4150000000000000#64).opa) (toF64 (-4194304)) ∧
      SameNumber (f64 (block 0xC150000000000000#64 0x4150000000000000#64).opb) (toF64 4194304)) ∧
    (SameNumber (f64 (block 0x8000000000000000#64 0x3FF0000000000000#64).opa) (toF64 0) ∧
      SameNumber (f64 (block 0x8000000000000000#64 0x3FF0000000000000#64).opb) (toF64 1)) ∧
    (SameNumber (f64 (block 0xBFF0000000000000#64 0x8000000000000000#64).opa) (toF64 (-1)) ∧
      SameNumber (f64 (block 0xBFF0000000000000#64 0x8000000000000000#64).opb) (toF64 0)) := by
  unfold SameNumber
  decide +kernel

/-- Every `LONG*` completes on (0, 1) with an exact result. -/
theorem witness_CommandEffectsFollowMatrix :
    [Instr.long, .longMin, .longMax, .longMm].all (fun i =>
      (longResult i (block 0#64 1#64) engine42).isSome && isNext (exec i (block 0#64 1#64))) = true := by
  decide +kernel

/-- `max` = 1 and `max` = 2^53. -/
theorem witness_NextiMaxIntegerRange :
    f64 (block 0#64 0x3FF0000000000000#64).opb = toF64 1 ∧
      f64 (block 0#64 0x4340000000000000#64).opb = toF64 9007199254740992 := by decide +kernel

/-- Every binary64 sampler completes on (0, 1). -/
theorem witness_SamplerResultsAreFinite :
    [Instr.unit, .next, .nextMin, .nextMax, .nextMm, .nexti, .nextiMin, .nextiMax, .nextiMm].all (fun i =>
      shown (exec i (block 0#64 0x3FF0000000000000#64)) ≠ none &&
        (shown (exec i (block 0#64 0x3FF0000000000000#64))).map (fun x => x.2.1) == some 0x01) = true := by
  decide +kernel

theorem block_is_seeded (i : Instr) (a b : DWord) : ¬ UnseededError i (block a b) := fun h => by cases h.2.2

/-- A state for each code of 60_exceptions R201 that a legal word earns. -/
theorem witness_EarnsCode :
    EarnsCode .raw State.reset .unseeded ∧
    EarnsCode .nextMin (block 0x7FF0000000000000#64 0#64) .operand ∧
    EarnsCode .longMax (block 0#64 0#64) .range ∧
    EarnsCode .bytes (block 0x100000000#64 0#64) .addr ∧
    EarnsCode .raw (block 0#64 0#64) .ok :=
  ⟨⟨by decide, by decide, rfl⟩,
    ⟨block_is_seeded _ _ _, Or.inl ⟨by decide, by decide +kernel⟩⟩,
    ⟨block_is_seeded _ _ _, by rintro (h | h) <;> exact absurd h.1 (by decide),
      Or.inr (Or.inr (Or.inr ⟨rfl, by decide⟩))⟩,
    ⟨block_is_seeded _ _ _, by rintro (h | h) <;> exact absurd h.1 (by decide), by simp [RangeError], rfl,
      Or.inl (by decide +kernel)⟩,
    ⟨block_is_seeded _ _ _, by rintro (h | h) <;> exact absurd h.1 (by decide), by simp [RangeError],
      by simp [AddrError]⟩⟩

/-- A command word that is rejected, and one of each family that completes. -/
theorem witness_runCommand :
    shown (runCommand 0x03#32 State.reset) = some (0, 0x20, none) ∧
    [0x01#32, 0x02#32, 0x03#32, 0x04#32, 0x05#32, 0x06#32, 0x07#32, 0x08#32].all (fun w =>
      isNext (runCommand w { block 0#64 0#64 with entropy := [7#32] })) = true := by decide +kernel

/-- Eight draws in two groupings. -/
theorem witness_DrawsIndependentOfGrouping :
    totalDraws [.long] (block 0x1000#64 4#64) = 8 ∧ totalDraws [.bytes, .bytes] (block 0x1000#64 4#64) = 8 ∧
    isNext (runCommands [.long] (block 0x1000#64 4#64)) = true ∧
    isNext (runCommands [.bytes, .bytes] (block 0x1000#64 4#64)) = true ∧
    totalDraws [.raw] { block 0#64 0#64 with gen := .seeded (initState 42#32) } =
      totalDraws [.unit] { block 0#64 0#64 with gen := .seeded (initState 42#32) } := by decide +kernel

theorem witness_UnselectedOperandNotRead :
    readsOpa .nextMax = false ∧ readsOpb .nextMin = false := by decide

/-- Reads at both ends of the window; writes at each half of `OPA` and `OPB` and at the offsets next to them. -/
theorem witness_PortAccessesFollowMap :
    ([0, 4, 28, 60].all fun o => decide (o < 64) && decide (o % 4 = 0) &&
      decide ((State.reset.setPending [.access { kind := .read, addr := 0 + o, size := 4 }]).pending =
        .access { kind := .read, addr := State.reset.platform.regBase + o, size := 4 } :: [])) = true ∧
    ([4, 8, 12, 16, 20, 24, 60].all fun o => decide (o < 64) && decide (o % 4 = 0) && decide (o ≠ 0) &&
      decide ((State.reset.setPending [.access { kind := .write 5#32, addr := 0 + o, size := 4 }]).pending =
        .access { kind := .write 5#32, addr := State.reset.platform.regBase + o, size := 4 } :: [])) = true := by
  decide

/-- A narrow access, and a misaligned one at each end of the window. -/
theorem witness_OddAccessRefused :
    ∀ a ∈ [({ kind := .read, addr := 0, size := 2 } : Access), { kind := .write 1#32, addr := 1, size := 4 },
        { kind := .read, addr := 63, size := 4 }],
      State.reset.platform.regBase ≤ a.addr ∧ a.addr < State.reset.platform.regBase + 64 ∧
        (a.size ≠ 4 ∨ (a.addr - State.reset.platform.regBase) % 4 ≠ 0) := by decide

/-- The addresses next to a window at 64. -/
theorem witness_AccessOutsideWindowRefused :
    (({ regBase := 64, addrW := 32, dmaRegions := [] } : Platform).regBase = 64) ∧
      60 < 64 ∧ 64 + 64 ≤ 128 := by decide

/-- A seeded good state, from which a command and a port write go to a next state. -/
theorem witness_good_state :
    (block 0#64 0#64).Inv ∧ isNext (step ((block 0#64 0#64).withFetchWord 32 0x03)) = true :=
  ⟨{ generator := witness_engine_invariant
     dmaCanonical := by decide
     dmaInSpace := by intro c hc; cases hc
     platform := by decide }, by decide +kernel⟩

end Sys2Proof.Tests
end

