-- ==== Sys2Proof/Proofs/Reset.lean ====
section
/-!
PROOFS. The state after reset (10_state R31).
-/
namespace Sys2Proof.Proofs

open Sys2Proof Sys2Proof.Machine

/-- Settles O1. `SEEDED` follows from the generator holding no value (10_state R23); the other values are the
fields of the reset state. -/
theorem resetLeavesSpecifiedValues : Obligations.ResetLeavesSpecifiedValues := by
  have hgen : State.reset.gen = .unseeded := rfl
  have hseeded : State.reset.isSeeded = false := (isSeeded_eq_false State.reset).mpr hgen
  exact ⟨hgen, hseeded, rfl, rfl, rfl, rfl, rfl⟩

end Sys2Proof.Proofs
end

