-- ==== Sys2Proof/Proofs/Memory.lean ====
section
/-!
PROOFS. The DMA range of `BYTES` and the accesses the register port refuses (20_memory).
-/
namespace Sys2Proof.Proofs

open Sys2Proof Sys2Proof.Machine

/-! ### The check of `BYTES` -/

/-- `n` is the low half of `OPB`; the high half is ignored (30_encoding R64). -/
theorem byteCount_eq_mod (s : State) : byteCount s = s.opb.toNat % 4294967296 := by
  simp [byteCount, loHalf]

/-- The failing side of `checkBytes_none`, over the operand registers (20_memory R47). -/
theorem checkBytes_addr (s : State) :
    checkBytes s = some .addr ↔
      2 ^ s.platform.addrW ≤ s.opa.toNat ∨
        2 ^ s.platform.addrW < s.opa.toNat + s.opb.toNat % 4294967296 := by
  simp only [checkBytes, dstAddr, u64, byteCount_eq_mod, ite_eq_left_iff, reduceCtorEq, imp_false,
    not_not]

/-- On a seeded block a failed check is all that `BYTES` does. -/
theorem execBytes_rejected (s : State) (e : Engine) (c : ErrCode) (hg : s.gen = .seeded e)
    (hc : checkBytes s = some c) : execBytes s = .next (s.setErr c) := by
  unfold execBytes
  rw [hc, withEngine_rejected s e c _ hg]

/-- Settles O25. The check fails with `ERR_ADDR`, so the fill is not reached. -/
theorem bytesOutsideSpaceRejected : Obligations.BytesOutsideSpaceRejected := by
  intro s e hg hout
  have hcheck : checkBytes s = some .addr := (checkBytes_addr s).mpr hout
  exact execBytes_rejected s e .addr hg hcheck

/-! ### Refused accesses -/

/-- In the window the port refuses every access but an aligned one of 32 bits (20_memory R42). -/
theorem busAccess_odd (s : State) (a : Access) (hlo : s.platform.regBase ≤ a.addr)
    (hhi : a.addr < s.platform.regBase + 64)
    (hodd : a.size ≠ 4 ∨ (a.addr - s.platform.regBase) % 4 ≠ 0) :
    busAccess a s = .refused .portAccess := by
  have hwindow : a.inWindow s.platform.regBase = true := by simp [Access.inWindow, hlo, hhi]
  have hrejected : a.accepted s.platform.regBase = false := by
    rcases hodd with hsize | halign
    · simp [Access.accepted, hsize]
    · simp [Access.accepted, halign]
  simp [busAccess, hwindow, hrejected]

/-- Whatever event comes next, an access that is not stuck takes effect as it stands: a following reset
aborts a stuck one only (70_reset R230). -/
theorem step_access_of_not_stuck (s : State) (a : Access) (rest : List BusEvent)
    (h : s.pending = .access a :: rest)
    (hns : busAccess a (s.setPending rest) ≠ .fault .stuckDma) :
    step s = busAccess a (s.setPending rest) := by
  by_cases hr : rest.head? = some .reset
  · obtain ⟨tail, rfl⟩ : ∃ tail, rest = .reset :: tail := List.head?_eq_some_iff.mp hr
    obtain ⟨hstuck, -⟩ | ⟨-, hstep⟩ := step_access_reset s a tail h
    · exact absurd hstuck hns
    · exact hstep
  · exact step_access s a rest h hr

/-- Settles O53. A refusal is not a stuck `BYTES`, so the step answers it also where a reset follows. -/
theorem oddAccessRefused : Obligations.OddAccessRefused := by
  intro s a rest hpending hlo hhi hodd
  have hrefused : busAccess a (s.setPending rest) = .refused .portAccess :=
    busAccess_odd (s.setPending rest) a hlo hhi hodd
  have hns : busAccess a (s.setPending rest) ≠ .fault .stuckDma := by simp [hrefused]
  rw [step_access_of_not_stuck s a rest hpending hns, hrefused]

end Sys2Proof.Proofs
end

