-- ==== Sys2Proof/Proofs/Encoding.lean ====
section
/-!
PROOFS. The command words: decoding inverts encoding, and the legal words are the 17 of 30_encoding R62.
-/
namespace Sys2Proof.Proofs

open Sys2Proof Sys2Proof.Machine

/-! ### Fields and words -/

/-- The four fields of 30_encoding R60 cover every bit of the word. -/
theorem cmdFields_injective : Function.Injective cmdFields := by
  intro w v h
  obtain ⟨hrsv, hmax, hmin, hop⟩ : w.extractLsb' 6 26 = v.extractLsb' 6 26 ∧ w.getLsbD 5 = v.getLsbD 5 ∧
      w.getLsbD 4 = v.getLsbD 4 ∧ w.extractLsb' 0 4 = v.extractLsb' 0 4 := CmdFields.mk.inj h
  refine BitVec.eq_of_getLsbD_eq fun k hk => ?_
  obtain hlow | rfl | rfl | hhigh : k < 4 ∨ k = 4 ∨ k = 5 ∨ 6 ≤ k := by omega
  · simpa [hlow] using congrArg (·.getLsbD k) hop
  · exact hmin
  · exact hmax
  · have hin : k - 6 < 26 := by omega
    simpa [hin, Nat.add_sub_cancel' hhigh] using congrArg (·.getLsbD (k - 6)) hrsv

/-- The laws of `Laws/PerInstr.lean`, over every command. -/
theorem packsToLegalWord (i : Instr) : Laws.PacksToLegalWord.Statement i := by
  open Laws.PacksToLegalWord in
  cases i
  exacts [seed, seedr, raw, unit, next, nextMin, nextMax, nextMm, nexti, nextiMin, nextiMax, nextiMm,
    bytes, long, longMin, longMax, longMm]

theorem cmdFields_encode (i : Instr) : cmdFields (encode i) = fieldsOf i := (packsToLegalWord i).1

/-- A word is determined by its fields. -/
theorem cmdFields_eq_fieldsOf_iff (w : Word) (i : Instr) : cmdFields w = fieldsOf i ↔ w = encode i where
  mp h := cmdFields_injective (h.trans (cmdFields_encode i).symm)
  mpr h := by rw [h, cmdFields_encode]

/-! ### Decoding inverts encoding -/

/-- Each listed operation has one value of `OP` (30_encoding R62). -/
theorem opOf_injective_of_some :
    ∀ (a b : BitVec 4) (o : Op), opOf a = some o → opOf b = some o → a = b := by
  have hpair : ∀ a b : BitVec 4, (opOf a).isSome → opOf a = opOf b → a = b := by decide
  intro a b o ha hb
  exact hpair a b (by simp [ha]) (ha.trans hb.symm)

/-- The command that an operation and a shape select has that operation and that shape. -/
theorem fieldsOf_of_commandOf {o : Op} {hasMin hasMax : Bool} {i : Instr}
    (h : commandOf o hasMin hasMax = .ok i) :
    (fieldsOf i).rsv = 0#26 ∧ (fieldsOf i).hasMax = hasMax ∧ (fieldsOf i).hasMin = hasMin ∧
      opOf (fieldsOf i).op = some o := by
  unfold commandOf at h
  split at h <;> cases h <;> exact ⟨rfl, rfl, rfl, rfl⟩

theorem decodeFields_fieldsOf (i : Instr) : decodeFields (fieldsOf i) = .ok i := by cases i <;> rfl

/-- What the decoder accepts: no reserved bit, a listed `OP`, and a shape the operation takes (30_encoding R61). -/
theorem decodeFields_ok {f : CmdFields} {i : Instr} (h : decodeFields f = .ok i) :
    f.rsv = 0#26 ∧ ∃ o, opOf f.op = some o ∧ commandOf o f.hasMin f.hasMax = .ok i := by
  unfold decodeFields at h
  split at h
  next => cases h
  next hrsv =>
    split at h
    next => cases h
    next o hop => exact ⟨not_not.mp hrsv, o, hop, h⟩

theorem decodeFields_eq_ok_iff (f : CmdFields) (i : Instr) : decodeFields f = .ok i ↔ f = fieldsOf i := by
  constructor
  · intro h
    obtain ⟨hrsv, o, hop, hcommand⟩ := decodeFields_ok h
    obtain ⟨hrsv', hmax', hmin', hop'⟩ := fieldsOf_of_commandOf hcommand
    rw [CmdFields.mk.injEq]
    exact ⟨hrsv.trans hrsv'.symm, hmax'.symm, hmin'.symm, opOf_injective_of_some _ _ o hop hop'⟩
  · rintro rfl
    exact decodeFields_fieldsOf i

/-- A word decodes to a command exactly when it is that command's word. -/
theorem decode_eq_ok_iff (w : Word) (i : Instr) : decode w = .ok i ↔ w = encode i :=
  (decodeFields_eq_ok_iff (cmdFields w) i).trans (cmdFields_eq_fieldsOf_iff w i)

/-! ### The table of legal words -/

/-- The 17 commands, in the order of 30_encoding R62. -/
def commandTable : List Instr :=
  [.seed, .seedr, .raw, .unit, .next, .nextMin, .nextMax, .nextMm, .nexti, .nextiMin, .nextiMax, .nextiMm,
    .bytes, .long, .longMin, .longMax, .longMm]

/-- Their words, in the same order. -/
def wordTable : List Word :=
  [0x01#32, 0x02#32, 0x03#32, 0x04#32, 0x05#32, 0x15#32, 0x25#32, 0x35#32, 0x06#32, 0x16#32, 0x26#32, 0x36#32,
    0x07#32, 0x08#32, 0x18#32, 0x28#32, 0x38#32]

theorem mem_commandTable (i : Instr) : i ∈ commandTable := by cases i <;> decide

theorem commandTable_map_encode : commandTable.map encode = wordTable := by decide

/-- The legal words are the words of the table. -/
theorem decode_ok_iff_mem_wordTable (w : Word) : (∃ i, decode w = .ok i) ↔ w ∈ wordTable := by
  simp only [decode_eq_ok_iff, ← commandTable_map_encode, List.mem_map, mem_commandTable, true_and,
    eq_comm (a := w)]

/-- Settles O8. A word decodes exactly when it is some command's word, and `commandTable` holds every command. -/
theorem legalWordsAreTheSeventeen : Obligations.LegalWordsAreTheSeventeen := by
  refine ⟨fun w => ?_, commandTable_map_encode⟩
  have hnumbers : w ∈ wordTable ↔ w.toNat ∈ wordTable.map BitVec.toNat :=
    (List.mem_map_of_injective fun _ _ => BitVec.eq_of_toNat_eq).symm
  exact (decode_ok_iff_mem_wordTable w).trans hnumbers

end Sys2Proof.Proofs
end

