-- ==== Sys2Proof/Proofs/Initializer.lean ====
section
/-!
PROOFS. The initializer's procedure: the buffer depends on the subtraction value alone, and it holds the values
of the procedure over unbounded integers (40_initializer R100, R101).
-/
namespace Sys2Proof.Proofs

open Sys2Proof Sys2Proof.Machine

/-! ### Word arithmetic read as integers -/

/-- A word subtraction is the integer one, wrapped (00_scope R8). -/
theorem toInt_sub_eq_w32 (a b : Word) : (a - b).toInt = w32 (a.toInt - b.toInt) := BitVec.toInt_sub

/-- "If negative, add `M`" on words is the same step over the integers (40_initializer R100). -/
theorem toInt_addMIfNegative (v : Word) : (addMIfNegative v).toInt = fixInt v.toInt := by
  obtain ⟨hv, hkept⟩ | ⟨hv, hadded⟩ := addMIfNegative_cases v
  · rw [hkept, fixInt, if_neg (by omega)]
  · have hM : mWord.toInt = (M : Int) := by decide
    rw [hadded, fixInt, if_pos hv, BitVec.toInt_add, hM]
    rfl

/-- The one step of both passes, a subtraction and its correction, read as integers. -/
theorem toInt_addMIfNegative_sub (a b : Word) :
    (addMIfNegative (a - b)).toInt = fixInt (w32 (a.toInt - b.toInt)) := by
  rw [toInt_addMIfNegative, toInt_sub_eq_w32]

/-! ### The subtraction value -/

/-- 40_initializer R101, as a number. -/
theorem subtraction_toNat (seed : Word) : (subtraction seed).toNat =
    if seed.toInt = -2147483648 then 2147483647 else seed.toInt.natAbs := by
  unfold subtraction
  split
  next hmin => subst hmin; decide
  next hmin =>
    have hne : seed.toInt ≠ -2147483648 := fun h => hmin (BitVec.eq_of_toInt_eq h)
    rw [if_neg hne, BitVec.toInt_eq_msb_cond]
    split
    next hneg =>
      have hhigh : 2147483648 ≤ seed.toNat := by simpa [BitVec.msb_eq_decide] using hneg
      rw [BitVec.toNat_neg]
      omega
    next hpos => exact (Int.natAbs_natCast _).symm

theorem subtraction_le (seed : Word) : (subtraction seed).toNat ≤ 2147483647 := by
  rw [subtraction_toNat]
  have hlo := seed.le_toInt
  have hhi := seed.toInt_lt
  split <;> omega

theorem subtraction_neg (seed : Word) : subtraction (-seed) = subtraction seed := by
  by_cases hmin : seed = 0x80000000#32
  · subst hmin; rfl
  · have hneg : (-seed).toInt = -seed.toInt := BitVec.toInt_neg_of_ne_intMin hmin
    have hne : seed.toInt ≠ -2147483648 := fun h => hmin (BitVec.eq_of_toInt_eq h)
    have hhi := seed.toInt_lt
    apply BitVec.eq_of_toNat_eq
    rw [subtraction_toNat, subtraction_toNat, hneg, Int.natAbs_neg, if_neg (by omega), if_neg hne]

/-- The state depends on the seed through the subtraction value alone. -/
theorem initState_congr {a b : Word} (h : subtraction a = subtraction b) : initState a = initState b := by
  unfold initState initBuffer
  rw [h]

/-- Settles O15. Negation keeps the magnitude, and the two extreme seeds share `2^31 - 1`. -/
theorem equalSubtractionEqualState : Obligations.EqualSubtractionEqualState :=
  ⟨fun seed => ⟨subtraction_toNat seed, subtraction_le seed, initState_congr (subtraction_neg seed)⟩,
    initState_congr (by decide)⟩

/-- The sign bit of the subtraction value is clear. -/
theorem toInt_subtraction (seed : Word) : (subtraction seed).toInt = ((subtraction seed).toNat : Int) :=
  BitVec.toInt_eq_toNat_of_lt (by have hle := subtraction_le seed; omega)

/-- The value the buffer starts from; `MAGIC - sub` does not wrap (40_initializer R102). -/
theorem toInt_magic_sub_subtraction (seed : Word) :
    (magic - subtraction seed).toInt = 161803398 - ((subtraction seed).toNat : Int) := by
  have hle := subtraction_le seed
  have hmagic : magic.toInt = 161803398 := by decide
  rw [toInt_sub_eq_w32, toInt_subtraction, hmagic, w32]
  exact Int.bmod_eq_of_le (by omega) (by omega)

/-! ### The passes, one step at a time -/

/-- `ii` never reaches slot 55 (40_initializer R102). -/
theorem nextScrambleIndex_lt {ii : Nat} (h : ii < 55) : nextScrambleIndex ii < 55 := by
  unfold nextScrambleIndex scrambleStep liveSlots
  split <;> omega

/-- The next `mj` is the old `mk`, read back from the slot it was stored in (40_initializer R102). -/
theorem scramble_succ (k : Nat) {ii : Nat} (mj mk : Word) (sb : Vector Word 56) (h : ii < 55) :
    scramble (k + 1) ii mj mk sb =
      scramble k (nextScrambleIndex ii) mk (addMIfNegative (mj - mk))
        (writeSlot sb (nextScrambleIndex ii) mk) := by
  have hread : readSlot (writeSlot sb (nextScrambleIndex ii) mk) (nextScrambleIndex ii) = mk :=
    readSlot_writeSlot_same sb _ mk (Nat.lt_succ_of_lt (nextScrambleIndex_lt h))
  rw [scramble, hread]

/-- The first of the last `k + 1` steps of a mixing pass is the one for slot `55 - k`. -/
theorem mixPass_succ (k : Nat) (sb : Vector Word 56) : mixPass (k + 1) sb = mixPass k (mixSlot sb (55 - k)) := rfl

/-! ### The buffer as a list of integers -/

/-- The list holds the slots of the buffer, read as signed integers. -/
structure Holds (sb : Vector Word 56) (l : List Int) : Prop where
  length : l.length = 56
  slot : ∀ i, (readSlot sb i).toInt = l.getD i 0

theorem Holds.write {sb : Vector Word 56} {l : List Int} (h : Holds sb l) (i : Nat) {v : Word} {z : Int}
    (hv : v.toInt = z) : Holds (writeSlot sb i v) (l.set i z) where
  length := by rw [List.length_set, h.length]
  slot j := by
    by_cases hi : 56 ≤ i
    · rw [writeSlot_outside sb i v hi, List.set_eq_of_length_le (by rw [h.length]; exact hi), h.slot]
    · by_cases hj : j = i
      · subst hj
        have hlen : j < l.length := by rw [h.length]; omega
        rw [readSlot_writeSlot_same sb j v (by omega), hv]
        simp [List.getD, hlen]
      · rw [readSlot_writeSlot_other sb i j v hj, h.slot]
        simp [List.getD, List.getElem?_set_ne (Ne.symm hj)]

theorem holds_zeros : Holds (Vector.replicate 56 0#32) (List.replicate 56 0) where
  length := List.length_replicate
  slot i := by
    by_cases hi : i < 56
    · rw [List.getD_replicate _ hi]; simp [readSlot, hi]
    · rw [List.getD_eq_default _ _ (by rw [List.length_replicate]; omega)]; simp [readSlot, hi]

theorem Holds.scramble {sb : Vector Word 56} {l : List Int} (h : Holds sb l) (k : Nat) {ii : Nat}
    (mj mk : Word) (hii : ii < 55) :
    Holds (scramble k ii mj mk sb) (scrambleInt k ii mj.toInt mk.toInt l) := by
  induction k generalizing sb l ii mj mk with
  | zero => exact h
  | succ k ih =>
    have hwrite := h.write (nextScrambleIndex ii) (rfl : mk.toInt = mk.toInt)
    have hrest := ih hwrite mk (addMIfNegative (mj - mk)) (nextScrambleIndex_lt hii)
    rw [toInt_addMIfNegative_sub] at hrest
    rw [scramble_succ k mj mk sb hii]
    exact hrest

theorem Holds.mixSlot {sb : Vector Word 56} {l : List Int} (h : Holds sb l) (i : Nat) :
    Holds (mixSlot sb i) (l.set i (fixInt (w32 (l.getD i 0 - l.getD (mixSource i) 0)))) :=
  h.write i (by rw [toInt_addMIfNegative_sub, h.slot, h.slot])

/-- The machine counts the steps left, the integer procedure also the slot: `i = 56 - k`. -/
theorem Holds.mixPass {sb : Vector Word 56} {l : List Int} (h : Holds sb l) (k : Nat) (hk : k ≤ 55) :
    Holds (mixPass k sb) (mixInt k (56 - k) l) := by
  induction k generalizing sb l with
  | zero => exact h
  | succ k ih =>
    have hnext : 56 - (k + 1) + 1 = 56 - k := by omega
    have hslot : 56 - (k + 1) = 55 - k := by omega
    rw [mixPass_succ, mixInt, hnext, hslot]
    exact ih (h.mixSlot (55 - k)) (by omega)

/-- The whole procedure: each of its writes keeps the two buffers in agreement. -/
theorem holds_initBuffer (seed : Word) : Holds (initBuffer seed) (initInt seed.toInt) := by
  have hmj : (magic - subtraction seed).toInt =
      w32 (161803398 - (if seed.toInt = -2147483648 then 2147483647 else (seed.toInt.natAbs : Int))) := by
    rw [toInt_sub_eq_w32, toInt_subtraction, subtraction_toNat, Nat.cast_ite]
    rfl
  have hscrambled := (holds_zeros.write 55 hmj).scramble 54 (magic - subtraction seed) 1#32 (ii := 0) (by decide)
  rw [hmj] at hscrambled
  have hpass {sb l} (h : Holds sb l) : Holds (mixPass 55 sb) (mixInt 55 1 l) := h.mixPass 55 (le_refl 55)
  exact hpass (hpass (hpass (hpass hscrambled)))

/-- Settles O14. The word buffer and the integer buffer agree on every slot after the last pass. -/
theorem initStateMatchesIntegerProcedure : Obligations.InitStateMatchesIntegerProcedure :=
  fun seed => ⟨fun i _ _ => (holds_initBuffer seed).slot i, rfl, rfl⟩

end Sys2Proof.Proofs
end

