-- ==== Sys2Proof/Proofs/Construction.lean ====
section
/-!
PROOFS. Every constructed engine meets 10_state R24 (40_initializer R109). After the scrambling pass every live
slot but `SB[55]` is a residue modulo `M` and a known linear function of the initial `mj`. In the first mixing
pass only the steps for the slots 24 and 55 meet the raw `mj`, and each leaves [0, M) for two subtraction values
alone; for those four the first two passes are evaluated. From then on every subtraction is one of residues.
-/
namespace Sys2Proof.Proofs

open Sys2Proof Sys2Proof.Machine

/-! ### Residues modulo `M` -/

/-- The word is a residue modulo `M`: what 10_state R24(a) asks of a live slot. -/
abbrev IsResidue (v : Word) : Prop := 0 ≤ v.toInt ∧ v.toInt < 2147483647

/-- The word is the residue of `z`. -/
def ResidueOf (z : Int) (v : Word) : Prop := v.toInt = z % 2147483647

theorem ResidueOf.isResidue {z : Int} {v : Word} (h : ResidueOf z v) : IsResidue v := by
  unfold ResidueOf at h
  omega

theorem IsResidue.residueOf {v : Word} (h : IsResidue v) : ResidueOf v.toInt v :=
  (Int.emod_eq_of_lt h.1 h.2).symm

/-- A wrapped value is the one value of its range that is congruent to the argument modulo 2^32. -/
theorem w32_eq {v r : Int} (hlo : -2147483648 ≤ r) (hhi : r < 2147483648) (hdvd : 4294967296 ∣ r - v) :
    w32 v = r :=
  (Int.bmod_eq_iff (by decide)).mpr ⟨hlo, hhi, hdvd⟩

/-- The correction of a value in `[-M, M)` is its residue. -/
theorem fixInt_w32_of_small {d : Int} (hlo : -2147483647 ≤ d) (hhi : d < 2147483647) :
    fixInt (w32 d) = d % 2147483647 := by
  have hw : w32 d = d := w32_eq (by omega) (by omega) (by omega)
  rw [hw, fixInt, M]
  split
  next hneg =>
    have hsum : w32 (d + (2147483647 : Nat)) = d + 2147483647 := w32_eq (by omega) (by omega) (by omega)
    omega
  next hpos => omega

/-- The differences of two words, `M`, `M + 1`, `-M - 1` and `-M - 2`, whose correction is `M` or -1. -/
def strayDifferences : List Int := [2147483647, 2147483648, -2147483648, -2147483649]

/-- The correction of a difference that wraps is not its residue, but it lies in `[0, M)` all the same, except at
the four stray differences. -/
theorem fixInt_w32_of_wide {d : Int} (hlo : -4294967296 < d) (hhi : d < 4294967296)
    (h : d ∉ strayDifferences) :
    0 ≤ fixInt (w32 d) ∧ fixInt (w32 d) < 2147483647 := by
  simp only [strayDifferences, List.mem_cons, List.not_mem_nil, or_false, not_or] at h
  obtain ⟨hM, hoverflow, hmin, hunderflow⟩ := h
  obtain habove | hbelow | hsmall :
      2147483648 < d ∨ d < -2147483649 ∨ (-2147483647 ≤ d ∧ d < 2147483647) := by omega
  · have hw : w32 d = d - 4294967296 := w32_eq (by omega) (by omega) (by omega)
    have hsum : w32 (d - 4294967296 + (2147483647 : Nat)) = d - 2147483649 :=
      w32_eq (by omega) (by omega) (by omega)
    rw [hw, fixInt, if_pos (by omega), M, hsum]
    omega
  · have hw : w32 d = d + 4294967296 := w32_eq (by omega) (by omega) (by omega)
    rw [hw, fixInt, if_neg (by omega)]
    omega
  · rw [fixInt_w32_of_small hsmall.1 hsmall.2]
    omega

/-- Residues subtract as their classes do; no such subtraction wraps (40_initializer R109(i)). -/
theorem ResidueOf.sub {x y : Int} {a b : Word} (ha : ResidueOf x a) (hb : ResidueOf y b) :
    ResidueOf (x - y) (addMIfNegative (a - b)) := by
  unfold ResidueOf at *
  rw [toInt_addMIfNegative_sub, fixInt_w32_of_small (by omega) (by omega), ha, hb, ← Int.sub_emod]

theorem IsResidue.sub {a b : Word} (ha : IsResidue a) (hb : IsResidue b) : IsResidue (addMIfNegative (a - b)) :=
  (ha.residueOf.sub hb.residueOf).isResidue

/-- The correction read on words: their differences are wide, but no wider than one wrap. -/
theorem isResidue_addMIfNegative_sub (a b : Word)
    (h : a.toInt - b.toInt ∉ strayDifferences) :
    IsResidue (addMIfNegative (a - b)) := by
  have ha := a.le_toInt
  have ha' := a.toInt_lt
  have hb := b.le_toInt
  have hb' := b.toInt_lt
  rw [IsResidue, toInt_addMIfNegative_sub]
  exact fixInt_w32_of_wide (by omega) (by omega) h

/-! ### The scrambling pass -/

/-- The value stored at step `i + 1` of the scrambling pass, before the reductions, where the pass starts from
`mj = x`: 1, x - 1, 2 - x, 2x - 3, … (40_initializer R102). -/
def scrambleForm (x : Int) (i : Nat) : Int := (-1) ^ i * (Nat.fib (i + 1) - Nat.fib i * x)

theorem scrambleForm_add_two (x : Int) (i : Nat) :
    scrambleForm x (i + 2) = scrambleForm x i - scrambleForm x (i + 1) := by
  unfold scrambleForm
  rw [Nat.fib_add_two, Nat.fib_add_two]
  push_cast
  ring

/-- The first `n` stores of the scrambling pass are made: store `i`, from 0, is in slot `21·(i + 1) mod 55`. -/
def Scrambled (x : Int) (n : Nat) (sb : Vector Word 56) : Prop :=
  ∀ i < n, ResidueOf (scrambleForm x i) (readSlot sb (21 * (i + 1) % 55))

theorem nextScrambleIndex_mul (n : Nat) : nextScrambleIndex (21 * n % 55) = 21 * (n + 1) % 55 := by
  unfold nextScrambleIndex scrambleStep liveSlots
  split <;> omega

theorem Scrambled.write {x : Int} {n : Nat} {sb : Vector Word 56} {v : Word} (h : Scrambled x n sb) (hn : n < 54)
    (hv : ResidueOf (scrambleForm x n) v) :
    Scrambled x (n + 1) (writeSlot sb (21 * (n + 1) % 55) v) := by
  intro i hi
  by_cases hin : i = n
  · rw [hin, readSlot_writeSlot_same _ _ _ (by omega)]; exact hv
  · rw [readSlot_writeSlot_other _ _ _ _ (by omega)]; exact h i (by omega)

/-- `k` steps of the pass, from the step that stores number `n + 1`. -/
theorem scrambled_scramble {x : Int} (k n : Nat) {mj mk : Word} {sb : Vector Word 56} (h : Scrambled x (n + 1) sb)
    (hmj : ResidueOf (scrambleForm x n) mj) (hmk : ResidueOf (scrambleForm x (n + 1)) mk)
    (hk : n + 1 + k ≤ 54) :
    Scrambled x (n + 1 + k) (scramble k (21 * (n + 1) % 55) mj mk sb) := by
  induction k generalizing n mj mk sb with
  | zero => exact h
  | succ k ih =>
    have hnew : ResidueOf (scrambleForm x (n + 2)) (addMIfNegative (mj - mk)) := by
      rw [scrambleForm_add_two]
      exact hmj.sub hmk
    rw [scramble_succ k mj mk sb (by omega), nextScrambleIndex_mul, ← Nat.add_assoc, Nat.add_right_comm]
    exact ih (n + 1) (h.write (by omega) hmk) hmk hnew (by omega)

/-- The scrambling pass leaves slot 55 alone (40_initializer R102). -/
theorem scramble_slot_55 (k : Nat) {ii : Nat} (mj mk : Word) (sb : Vector Word 56) (h : ii < 55) :
    readSlot (scramble k ii mj mk sb) 55 = readSlot sb 55 := by
  induction k generalizing ii mj mk sb with
  | zero => rfl
  | succ k ih =>
    have hlt := nextScrambleIndex_lt h
    rw [scramble_succ k mj mk sb h, ih _ _ _ hlt, readSlot_writeSlot_other _ _ _ _ (by omega)]

/-- The buffer after the scrambling pass. -/
def scrambledBuffer (mj : Word) : Vector Word 56 := scramble 54 0 mj 1#32 (initialBuffer mj)

theorem scrambledBuffer_slot_55 (mj : Word) : readSlot (scrambledBuffer mj) 55 = mj :=
  (scramble_slot_55 54 mj 1#32 (initialBuffer mj) (by decide)).trans
    (readSlot_writeSlot_same _ 55 mj (by decide))

/-- The first step is the one that reads the raw `mj`, and it does not wrap (40_initializer R103). -/
theorem scrambled_scrambledBuffer {mj : Word} (hlo : -2147483646 ≤ mj.toInt) (hhi : mj.toInt ≤ 2147483647) :
    Scrambled mj.toInt 54 (scrambledBuffer mj) := by
  have hmk : ResidueOf (scrambleForm mj.toInt 1) (addMIfNegative (mj - 1#32)) := by
    have hone : (1#32 : Word).toInt = 1 := by decide
    rw [ResidueOf, toInt_addMIfNegative_sub, fixInt_w32_of_small (by omega) (by omega), hone]
    simp [scrambleForm]
  have hmj : ResidueOf (scrambleForm mj.toInt 0) 1#32 := by simp [ResidueOf, scrambleForm]
  have hfirst : Scrambled mj.toInt 1 (writeSlot (initialBuffer mj) 21 1#32) :=
    Scrambled.write (n := 0) (fun i hi => absurd hi (Nat.not_lt_zero i)) (by decide) hmj
  rw [scrambledBuffer, scramble_succ 53 mj 1#32 _ (by decide)]
  exact scrambled_scramble 53 0 hfirst hmj hmk (le_refl 54)

/-- The pass visits every slot from 1 to 54 (40_initializer R102). -/
theorem Scrambled.slot {x : Int} {sb : Vector Word 56} (h : Scrambled x 54 sb) {j : Nat} (h1 : 1 ≤ j)
    (h54 : j ≤ 54) : ResidueOf (scrambleForm x (21 * j % 55 - 1)) (readSlot sb j) := by
  have hstore := h (21 * j % 55 - 1) (by omega)
  have hj : 21 * (21 * j % 55 - 1 + 1) % 55 = j := by omega
  rwa [hj] at hstore

/-! ### A mixing pass -/

/-- The first `n` steps of a mixing pass. -/
def mixedUpTo (n : Nat) (sb : Vector Word 56) : Vector Word 56 :=
  match n with
  | 0 => sb
  | n + 1 => mixSlot (mixedUpTo n sb) (n + 1)

/-- A pass is its first steps, then the rest. -/
theorem mixPass_mixedUpTo (k : Nat) (sb : Vector Word 56) (hk : k ≤ 55) :
    mixPass k (mixedUpTo (55 - k) sb) = mixedUpTo 55 sb := by
  induction k with
  | zero => rfl
  | succ k ih =>
    have hslot : 55 - k = 55 - (k + 1) + 1 := by omega
    rw [mixPass_succ, ← ih (by omega), hslot, mixedUpTo]

/-- A slot that the steps have not reached is as it was. -/
theorem mixedUpTo_slot_later (n j : Nat) (sb : Vector Word 56) (h : n < j) :
    readSlot (mixedUpTo n sb) j = readSlot sb j := by
  induction n with
  | zero => rfl
  | succ n ih =>
    rw [mixedUpTo, mixSlot, readSlot_writeSlot_other _ _ _ _ (by omega), ih (by omega)]

/-- Each slot is written once in a pass: after its own step it stays. -/
theorem mixedUpTo_slot_done (n j : Nat) (sb : Vector Word 56) (h : j ≤ n) :
    readSlot (mixedUpTo n sb) j = readSlot (mixedUpTo j sb) j := by
  induction n, h using Nat.le_induction with
  | base => rfl
  | succ n hjn ih => rw [mixedUpTo, mixSlot, readSlot_writeSlot_other _ _ _ _ (by omega), ih]

/-- The step for slot `n + 1` subtracts the slot `mixSource` names, as the steps before have left it. -/
theorem mixPass_slot_succ (sb : Vector Word 56) {n : Nat} (h : n < 55) :
    readSlot (mixPass 55 sb) (n + 1) =
      addMIfNegative (readSlot sb (n + 1) - readSlot (mixedUpTo n sb) (mixSource (n + 1))) := by
  have hall : mixPass 55 sb = mixedUpTo 55 sb := mixPass_mixedUpTo 55 sb (le_refl 55)
  rw [hall, mixedUpTo_slot_done 55 (n + 1) sb h, mixedUpTo, mixSlot,
    readSlot_writeSlot_same _ _ _ (by omega), mixedUpTo_slot_later n (n + 1) sb (Nat.lt_succ_self n)]

/-- Slots 1 to 24 are reduced by slots 32 to 55, which the pass has not reached (40_initializer R103). -/
theorem mixPass_slot_low (sb : Vector Word 56) {j : Nat} (h1 : 1 ≤ j) (h24 : j ≤ 24) :
    readSlot (mixPass 55 sb) j = addMIfNegative (readSlot sb j - readSlot sb (j + 31)) := by
  obtain ⟨n, rfl⟩ := Nat.exists_eq_add_of_le' h1
  have hsource : mixSource (n + 1) = n + 1 + 31 := by
    unfold mixSource mixOffset liveSlots; split <;> omega
  rw [mixPass_slot_succ sb (by omega), hsource, mixedUpTo_slot_later n _ sb (by omega)]

/-- Slots 25 to 55 are reduced by slots 1 to 31, which the pass has written (40_initializer R103). -/
theorem mixPass_slot_high (sb : Vector Word 56) {j : Nat} (h25 : 25 ≤ j) (h55 : j ≤ 55) :
    readSlot (mixPass 55 sb) j = addMIfNegative (readSlot sb j - readSlot (mixPass 55 sb) (j - 24)) := by
  obtain ⟨n, rfl⟩ := Nat.exists_eq_add_of_le' (Nat.le_trans (by decide : 1 ≤ 25) h25)
  have hsource : mixSource (n + 1) = n + 1 - 24 := by
    unfold mixSource mixOffset liveSlots; split <;> omega
  have hall : mixPass 55 sb = mixedUpTo 55 sb := mixPass_mixedUpTo 55 sb (le_refl 55)
  rw [mixPass_slot_succ sb (by omega), hsource, hall, mixedUpTo_slot_done n _ sb (by omega),
    mixedUpTo_slot_done 55 _ sb (by omega)]

/-! ### Passes over residues -/

/-- The slots from 1 to `n` are residues. -/
abbrev ResiduesTo (n : Nat) (sb : Vector Word 56) : Prop := ∀ j ≤ n, 1 ≤ j → IsResidue (readSlot sb j)

/-- Of the steps that leave the slots below 55, the one for slot 24 alone reads slot 55: where it ends in a
residue, slot 55 may stay out of the claim. -/
theorem residuesTo_mixPass {sb : Vector Word 56} {n : Nat} (hlo : 54 ≤ n) (hhi : n ≤ 55) (h : ResiduesTo n sb)
    (h24 : IsResidue (readSlot (mixPass 55 sb) 24)) : ResiduesTo n (mixPass 55 sb) := by
  intro j
  induction j using Nat.strong_induction_on with
  | _ j ih =>
    intro hj h1
    obtain hlow | rfl | hhigh := Nat.lt_trichotomy j 24
    · rw [mixPass_slot_low sb h1 (by omega)]
      exact (h j hj h1).sub (h (j + 31) (by omega) (by omega))
    · exact h24
    · rw [mixPass_slot_high sb hhigh (by omega)]
      exact (h j hj h1).sub (ih (j - 24) (by omega) (by omega) (by omega))

/-- A pass over residues leaves residues (40_initializer R109). -/
theorem residues_mixPass {sb : Vector Word 56} (h : ResiduesTo 55 sb) : ResiduesTo 55 (mixPass 55 sb) := by
  refine residuesTo_mixPass (by decide) (le_refl 55) h ?_
  rw [mixPass_slot_low sb (by decide) (le_refl 24)]
  exact (h 24 (by decide) (by decide)).sub (h 55 (by decide) (by decide))

/-! ### The first pass -/

/-- The values of the initial `mj` for which the first mixing pass leaves `M` or -1 in a slot, the first two in
slot 24, the others in slot 55. The subtraction values are 1333158113, 1235545220, 614279151, 1235228408. -/
def exceptionalStarts : List Int := [-1171354715, -1073741822, -452475753, -1073425010]

/-- A congruence `a·x + b ≡ x + c` modulo `M` has one solution where `a - 1` has an inverse `u`. -/
theorem start_unique {a b c u x y : Int} (hu : 2147483647 ∣ u * (a - 1) - 1)
    (hx : (a * x + b) % 2147483647 = x + c) (hy : (a * y + b) % 2147483647 = y + c)
    (hlo : -2147483647 < x - y) (hhi : x - y < 2147483647) : x = y := by
  have hdiff : 2147483647 ∣ (a * x + b - (x + c)) - (a * y + b - (y + c)) :=
    (Int.dvd_self_sub_of_emod_eq hx).sub (Int.dvd_self_sub_of_emod_eq hy)
  have hsum : 2147483647 ∣ x - y := by
    have hcombination : x - y =
        u * ((a * x + b - (x + c)) - (a * y + b - (y + c))) - (u * (a - 1) - 1) * (x - y) := by ring
    rw [hcombination]
    exact (hdiff.mul_left u).sub (hu.mul_right (x - y))
  omega

section FirstPass

variable {mj : Word} (hlo : -1985680249 ≤ mj.toInt) (hhi : mj.toInt ≤ 161803398)

include hlo hhi

theorem scrambled_of_start : Scrambled mj.toInt 54 (scrambledBuffer mj) :=
  scrambled_scrambledBuffer (by omega) (by omega)

/-- Slot 24 holds the residue of `34 - 21·mj`. -/
theorem residueOf_scrambledBuffer_slot_24 :
    ResidueOf (-21 * mj.toInt + 34) (readSlot (scrambledBuffer mj) 24) := by
  have hform : scrambleForm mj.toInt 8 = -21 * mj.toInt + 34 := by norm_num [scrambleForm]; ring
  rw [← hform]
  exact (scrambled_of_start hlo hhi).slot (j := 24) (by decide) (by decide)

/-- The step for slot 24 subtracts the raw `mj`. -/
theorem isResidue_firstPass_slot_24 (hreg : mj.toInt ∉ exceptionalStarts) :
    IsResidue (readSlot (mixPass 55 (scrambledBuffer mj)) 24) := by
  have hslot := residueOf_scrambledBuffer_slot_24 hlo hhi
  obtain ⟨h0, hM⟩ := hslot.isResidue
  rw [mixPass_slot_low _ (by decide) (le_refl 24), scrambledBuffer_slot_55]
  apply isResidue_addMIfNegative_sub
  intro hmem
  obtain hdiff | hdiff : (readSlot (scrambledBuffer mj) 24).toInt = mj.toInt + 2147483647 ∨
      (readSlot (scrambledBuffer mj) 24).toInt = mj.toInt + 2147483648 := by
    simp only [strayDifferences, List.mem_cons, List.not_mem_nil, or_false] at hmem
    omega
  · have hx : mj.toInt = -1171354715 :=
      start_unique (u := 97612893) (by decide) (hslot.symm.trans hdiff) (by decide) (by omega) (by omega)
    exact hreg (hx ▸ by decide)
  · have hx : mj.toInt = -1073741822 :=
      start_unique (u := 97612893) (by decide) (hslot.symm.trans hdiff) (by decide) (by omega) (by omega)
    exact hreg (hx ▸ by decide)

/-- Slot 31 ends as `SB[31] - (SB[7] - SB[38])`, over the slots before the pass. -/
theorem residueOf_firstPass_slot_31 :
    ResidueOf (1150029940 * mj.toInt + -1860787531) (readSlot (mixPass 55 (scrambledBuffer mj)) 31) := by
  have hall := scrambled_of_start hlo hhi
  have h7 : ResidueOf (scrambleForm mj.toInt 36) _ := hall.slot (j := 7) (by decide) (by decide)
  have h31 : ResidueOf (scrambleForm mj.toInt 45) _ := hall.slot (j := 31) (by decide) (by decide)
  have h38 : ResidueOf (scrambleForm mj.toInt 27) _ := hall.slot (j := 38) (by decide) (by decide)
  have hform : scrambleForm mj.toInt 45 - (scrambleForm mj.toInt 36 - scrambleForm mj.toInt 27) =
      1150029940 * mj.toInt + -1860787531 := by norm_num [scrambleForm]; ring
  rw [mixPass_slot_high _ (by decide) (by decide), mixPass_slot_low _ (by decide) (by decide), ← hform]
  exact h31.sub (h7.sub h38)

/-- The step for slot 55 subtracts slot 31 from the raw `mj`. -/
theorem isResidue_firstPass_slot_55 (hreg : mj.toInt ∉ exceptionalStarts) :
    IsResidue (readSlot (mixPass 55 (scrambledBuffer mj)) 55) := by
  have hslot := residueOf_firstPass_slot_31 hlo hhi
  obtain ⟨h0, hM⟩ := hslot.isResidue
  have hstep : readSlot (mixPass 55 (scrambledBuffer mj)) 55 =
      addMIfNegative (mj - readSlot (mixPass 55 (scrambledBuffer mj)) 31) := by
    rw [mixPass_slot_high _ (by decide) (le_refl 55), scrambledBuffer_slot_55]
  rw [hstep]
  apply isResidue_addMIfNegative_sub
  intro hmem
  obtain hdiff | hdiff : (readSlot (mixPass 55 (scrambledBuffer mj)) 31).toInt = mj.toInt + 2147483648 ∨
      (readSlot (mixPass 55 (scrambledBuffer mj)) 31).toInt = mj.toInt + 2147483649 := by
    simp only [strayDifferences, List.mem_cons, List.not_mem_nil, or_false] at hmem
    omega
  · have hx : mj.toInt = -452475753 :=
      start_unique (u := 1526534390) (by decide) (hslot.symm.trans hdiff) (by decide) (by omega) (by omega)
    exact hreg (hx ▸ by decide)
  · have hx : mj.toInt = -1073425010 :=
      start_unique (u := 1526534390) (by decide) (hslot.symm.trans hdiff) (by decide) (by omega) (by omega)
    exact hreg (hx ▸ by decide)

theorem residues_firstPass (hreg : mj.toInt ∉ exceptionalStarts) :
    ResiduesTo 55 (mixPass 55 (scrambledBuffer mj)) := by
  have hbefore : ResiduesTo 54 (scrambledBuffer mj) := fun _ hj h1 =>
    ((scrambled_of_start hlo hhi).slot h1 hj).isResidue
  have hbelow := residuesTo_mixPass (le_refl 54) (by decide) hbefore (isResidue_firstPass_slot_24 hlo hhi hreg)
  intro j hj h1
  obtain rfl | hlt := Nat.eq_or_lt_of_le hj
  · exact isResidue_firstPass_slot_55 hlo hhi hreg
  · exact hbelow j (by omega) h1

end FirstPass

/-! ### The whole construction -/

/-- For the exceptional values the second pass brings every slot back into `[0, M)`. -/
theorem residues_secondPass_exceptional : ∀ x ∈ exceptionalStarts,
    ResiduesTo 55 (mixPass 55 (mixPass 55 (scrambledBuffer (BitVec.ofInt 32 x)))) := by
  decide +kernel

theorem residues_secondPass {mj : Word} (hlo : -1985680249 ≤ mj.toInt) (hhi : mj.toInt ≤ 161803398) :
    ResiduesTo 55 (mixPass 55 (mixPass 55 (scrambledBuffer mj))) := by
  by_cases hexc : mj.toInt ∈ exceptionalStarts
  · have heval := residues_secondPass_exceptional mj.toInt hexc
    rwa [BitVec.ofInt_toInt] at heval
  · exact residues_mixPass (residues_firstPass hlo hhi hexc)

theorem residues_initBuffer (seed : Word) : ResiduesTo 55 (initBuffer seed) := by
  have hmj := toInt_magic_sub_subtraction seed
  have hle := subtraction_le seed
  exact residues_mixPass (residues_mixPass (residues_secondPass (by omega) (by omega)))

/-- Settles O17. The slots are residues after the second pass, and the last two passes keep them so; the cursors
are the constants of 40_initializer R104. -/
theorem constructionMeetsInvariant : Obligations.ConstructionMeetsInvariant :=
  fun seed => ⟨fun i h1 => residues_initBuffer seed i.val (Nat.le_of_lt_succ i.isLt) h1, .inl ⟨rfl, rfl⟩⟩

end Sys2Proof.Proofs
end

