-- ==== Sys2Proof/Proofs/Float64.lean ====
section
/-!
PROOFS. Binary64 values that need no rounding: they round to themselves, they survive the trip through their
pattern, and the integers of fewer than 54 bits are among them (00_scope R9).
-/
namespace Sys2Proof.Proofs

open Sys2Proof Sys2Proof.Machine

/-! ### Representable magnitudes -/

/-- A magnitude of 53 significant bits is a whole number of its own units in the last place. -/
theorem ulpAt_dvd {m : Nat} (h : Representable m) : ulpAt m ∣ m := by
  obtain ⟨k, j, hk, rfl⟩ := h
  obtain hzero | hne := Nat.eq_zero_or_pos (k * 2 ^ j)
  · rw [hzero]; exact dvd_zero _
  · have hsize : k * 2 ^ j < 2 ^ (53 + j) := by
      rw [Nat.pow_add]; exact Nat.mul_lt_mul_of_pos_right hk (Nat.two_pow_pos j)
    have hlog : (k * 2 ^ j).log2 < 53 + j := (Nat.log2_lt hne.ne').mpr hsize
    exact (Nat.pow_dvd_pow 2 (by omega)).trans (Nat.dvd_mul_left (2 ^ j) k)

/-- The significand of a magnitude that is not subnormal has exactly 53 bits. -/
theorem significand_bounds {m : Nat} (h : 2 ^ 52 ≤ m) : 2 ^ 52 ≤ m / ulpAt m ∧ m / ulpAt m < 2 ^ 53 := by
  have hne : m ≠ 0 := by omega
  have hlog : 52 ≤ m.log2 := (Nat.le_log2 hne).mpr h
  have hlow : 2 ^ 52 * ulpAt m = 2 ^ m.log2 := by
    rw [ulpAt, ← Nat.pow_add, Nat.add_sub_cancel' hlog]
  have hhigh : 2 ^ 53 * ulpAt m = 2 ^ (m.log2 + 1) := by
    rw [ulpAt, ← Nat.pow_add]; congr 1; omega
  have hpos : 0 < ulpAt m := Nat.two_pow_pos _
  rw [Nat.le_div_iff_mul_le hpos, Nat.div_lt_iff_lt_mul hpos, hlow, hhigh]
  exact ⟨Nat.log2_self_le hne, Nat.lt_log2_self⟩

/-! ### Rounding is exact where it can be -/

theorem roundMag_exact {m den : Nat} (h : Representable m) (hden : 0 < den) : roundMag (m * den) den = m := by
  have hulp : 0 < ulpAt m := Nat.two_pow_pos _
  have hwhole : m / ulpAt m * ulpAt m = m := Nat.div_mul_cancel (ulpAt_dvd h)
  have hquotient : m * den / (den * ulpAt m) = m / ulpAt m := by
    rw [Nat.mul_comm m den, Nat.mul_div_mul_left _ _ hden]
  have hremainder : m * den % (den * ulpAt m) = 0 := by
    rw [Nat.mul_comm m den, Nat.mul_mod_mul_left, Nat.mod_eq_zero_of_dvd (ulpAt_dvd h), Nat.mul_zero]
  simp only [roundMag, Nat.mul_div_cancel m hden, hquotient, hremainder, Nat.mul_zero, hwhole,
    Nat.mul_pos hden hulp, if_true]

theorem roundF64_exact {m den : Nat} (neg : Bool) (h : Representable m) (hlt : m < overflowMag)
    (hden : 0 < den) : roundF64 neg (m * den) den = .fin neg m := by
  simp only [roundF64, roundMag_exact h hden, if_neg (Nat.not_le.mpr hlt)]

/-! ### Patterns of finite values -/

/-- The three fields of a pattern are read back as they were packed (00_scope R9). -/
theorem f64_packF64 (neg : Bool) {expo frac : Nat} (hexpo : expo < 2047) (hfrac : frac < 2 ^ 52) :
    f64 (packF64 neg expo frac) =
      if expo = 0 then .fin neg frac else .fin neg ((2 ^ 52 + frac) * 2 ^ (expo - 1)) := by
  have hneg : neg.toNat ≤ 1 := Bool.toNat_le neg
  have hnat : (packF64 neg expo frac).toNat = neg.toNat * 2 ^ 63 + expo * 2 ^ 52 + frac := by
    rw [packF64, BitVec.toNat_ofNat]; omega
  have hsign : (packF64 neg expo frac).msb = neg := by
    rw [BitVec.msb_eq_decide, hnat]
    cases neg <;> simp <;> omega
  have hexpo' : (neg.toNat * 2 ^ 63 + expo * 2 ^ 52 + frac) / 2 ^ 52 % 2 ^ 11 = expo := by omega
  have hfrac' : (neg.toNat * 2 ^ 63 + expo * 2 ^ 52 + frac) % 2 ^ 52 = frac := by omega
  simp only [f64, hsign, hnat, hexpo', hfrac', if_neg (Nat.ne_of_lt hexpo)]

/-- A representable finite value survives the trip through its pattern. -/
theorem f64_enc64_fin (neg : Bool) {m : Nat} (h : Representable m) (hlt : m < overflowMag) :
    f64 (enc64 (.fin neg m)) = .fin neg m := by
  rw [enc64]
  split
  next hsub => rw [f64_packF64 neg (by decide) hsub, if_pos rfl]
  next hnormal =>
    have hm : 2 ^ 52 ≤ m := Nat.le_of_not_lt hnormal
    have hne : m ≠ 0 := by omega
    have hlo : 52 ≤ m.log2 := (Nat.le_log2 hne).mpr hm
    have hhi : m.log2 < 2098 := by
      have hpow := (Nat.log2_self_le hne).trans_lt (hlt.trans_eq overflowMag_eq)
      exact (pow_lt_pow_iff_right₀ one_lt_two).mp hpow
    obtain ⟨hq, hq'⟩ := significand_bounds hm
    have hexponent : m.log2 - 51 - 1 = m.log2 - 52 := by omega
    rw [f64_packF64 neg (by omega) (by omega), if_neg (by omega), Nat.add_sub_cancel' hq, hexponent, ← ulpAt,
      Nat.div_mul_cancel (ulpAt_dvd h)]

/-! ### Integers -/

theorem unitsPerOne_pos : 0 < unitsPerOne := by
  rw [unitsPerOne_eq]
  exact pow_pos (by decide) 1074

/-- The overflow threshold is 2^1024 whole units. -/
theorem overflowMag_eq_mul : overflowMag = 2 ^ 1024 * unitsPerOne := by
  rw [overflowMag_eq, unitsPerOne_eq, ← pow_add]

theorem representable_units {k : Nat} (h : k < 2 ^ 53) : Representable (k * unitsPerOne) :=
  ⟨k, 1074, h, by rw [unitsPerOne_eq]⟩

theorem units_lt_overflowMag {k : Nat} (h : k < 2 ^ 53) : k * unitsPerOne < overflowMag := by
  rw [overflowMag_eq_mul]
  exact Nat.mul_lt_mul_of_pos_right (h.trans (pow_lt_pow_right₀ (by decide) (by decide))) unitsPerOne_pos

section SmallInteger

variable {n : Int} (h : n.natAbs < 2 ^ 53)

include h

/-- An integer of fewer than 54 bits converts exactly (00_scope R9). -/
theorem toF64_exact : toF64 n = .fin (decide (n < 0)) (n.natAbs * unitsPerOne) := by
  have hround := roundF64_exact (decide (n < 0)) (representable_units h) (units_lt_overflowMag h) Nat.one_pos
  rwa [Nat.mul_one] at hround

theorem f64_enc64_toF64 : f64 (enc64 (toF64 n)) = toF64 n := by
  rw [toF64_exact h]
  exact f64_enc64_fin _ (representable_units h) (units_lt_overflowMag h)

/-- The floor of an integer is that integer. -/
theorem ffloor_toF64 : ffloor (toF64 n) = toF64 n := by
  have hunit := unitsPerOne_pos
  rw [toF64_exact h]
  cases decide (n < 0) with
  | false => rw [ffloor, Nat.mul_div_cancel _ hunit]
  | true =>
    have hup : (n.natAbs * unitsPerOne + unitsPerOne - 1) / unitsPerOne = n.natAbs := by
      rw [Nat.add_sub_assoc hunit, Nat.mul_comm, Nat.mul_add_div hunit, Nat.div_eq_of_lt (by omega),
        Nat.add_zero]
    rw [ffloor, hup]

end SmallInteger

end Sys2Proof.Proofs
end

