-- ==== Sys2Proof/Proofs/Engine.lean ====
section
/-!
PROOFS. The draw step: it is the rule's procedure over the integers, it keeps 10_state R24, its cursors follow
the law of 41_engine R125, and `RAW`, `NEXT` and `NEXTI` deliver the same draw (R128).
-/
namespace Sys2Proof.Proofs

open Sys2Proof Sys2Proof.Machine

/-! ### A draw over the integers -/

/-- The two corrections of a draw on words are those of the integers, in the same order (41_engine R122). -/
theorem toInt_drawValue (a b : Word) : (drawValue a b).toInt = drawnInt a.toInt b.toInt := by
  have hdiff := toInt_sub_eq_w32 a b
  have hM : mWord.toInt = (M : Int) := by decide
  have hbelow : (mWord - 1#32).toInt = (M : Int) - 1 := by decide
  have htest : a - b = mWord ↔ w32 (a.toInt - b.toInt) = (M : Int) := by
    rw [← hdiff, ← hM, BitVec.toInt_inj]
  have hfirst : (if a - b = mWord then a - b - 1#32 else a - b).toInt =
      if w32 (a.toInt - b.toInt) = (M : Int) then w32 (a.toInt - b.toInt) - 1 else w32 (a.toInt - b.toInt) := by
    by_cases heq : a - b = mWord
    · rw [if_pos heq, if_pos (htest.mp heq), htest.mp heq, heq, hbelow]
    · rw [if_neg heq, if_neg (mt htest.mpr heq), hdiff]
  rw [drawValue, toInt_addMIfNegative, hfirst]
  rfl

/-- Settles O10. `drawValue` is `drawnInt` on the slots at the advanced cursors; the write rules of `SB` give the
rest. -/
theorem drawFollowsIntegerRule : Obligations.DrawFollowsIntegerRule := by
  intro e
  have hca : (advance e.ca).val = cursorAfter e.ca.val := advance_val e.ca
  have hcb : (advance e.cb).val = cursorAfter e.cb.val := advance_val e.cb
  exact
    { ca := hca
      cb := hcb
      value := by rw [draw_value, toInt_drawValue, hca, hcb]; rfl
      written := by rw [← hca, Engine.slot, draw_slot_written]; rfl
      kept := fun i _ hi => congrArg s32 (draw_slot_kept e i (hca ▸ hi)) }

/-! ### The invariant of the engine -/

/-- Between residues the `== M` branch is never taken (41_engine R122). -/
theorem drawValue_of_residues {a b : Word} (ha : IsResidue a) (hb : IsResidue b) :
    drawValue a b = addMIfNegative (a - b) := by
  have hne : a - b ≠ mWord := by
    intro heq
    have hM : mWord.toInt = 2147483647 := by decide
    have hdiff : (a - b).toInt = a.toInt - b.toInt := by
      rw [toInt_sub_eq_w32]; exact w32_eq (by omega) (by omega) (by omega)
    rw [heq] at hdiff
    omega
  simp only [drawValue, if_neg hne]

/-- 10_state R24(a) asks that every live slot hold a residue. -/
theorem isResidue_slot {e : Engine} (h : e.SlotsInRange) (c : Fin 56) :
    IsResidue (readSlot e.sb (advance c).val) :=
  h (advance c) (advance_live c).1

theorem isResidue_draw {e : Engine} (h : e.SlotsInRange) : IsResidue (draw e).1 := by
  have ha := isResidue_slot h e.ca
  have hb := isResidue_slot h e.cb
  rw [draw_value, drawValue_of_residues ha hb]
  exact ha.sub hb

/-- The written slot holds the draw, every other slot is kept (41_engine R123). -/
theorem draw_slotsInRange {e : Engine} (h : e.SlotsInRange) : (draw e).2.SlotsInRange := by
  intro i hi
  show IsResidue (readSlot (draw e).2.sb i.val)
  by_cases hwritten : i.val = (advance e.ca).val
  · rw [hwritten, draw_slot_written]; exact isResidue_draw h
  · rw [draw_slot_kept e i.val hwritten]; exact h i hi

/-- Both cursors advance by one with the same wrap, so their distance stays (41_engine R124). -/
theorem draw_cursorsInStep {e : Engine} (h : e.CursorsInStep) : (draw e).2.CursorsInStep := by
  right
  rw [draw_ca, draw_cb, advance_val, advance_val]
  obtain ⟨hca, hcb⟩ | ⟨hlo, hhi, hcb⟩ := h
  · simp [hca, hcb]
  · split <;> split <;> omega

/-- Settles O11. The draw is a residue, it is the one slot that changes, and the cursors keep their distance. -/
theorem drawKeepsEngineInvariant : Obligations.DrawKeepsEngineInvariant := by
  rintro e ⟨hslots, hcursors⟩
  obtain ⟨hlo, hhi⟩ := isResidue_draw hslots
  exact ⟨hlo, hhi, draw_slotsInRange hslots, draw_cursorsInStep hcursors⟩

/-! ### The cursor law -/

/-- The last draw taken apart; `drawMany` itself takes the first one apart. -/
theorem drawMany_succ (k : Nat) (e : Engine) : drawMany (k + 1) e = (draw (drawMany k e)).2 := by
  induction k generalizing e with
  | zero => rfl
  | succ k ih => exact ih (draw e).2

/-- The cursors that draw `k + 1` after a seeding advances to. -/
theorem cursorAfter_drawMany (seed : Word) (k : Nat) :
    cursorAfter (drawMany k (initState seed)).ca.val = k % 55 + 1 ∧
      cursorAfter (drawMany k (initState seed)).cb.val = (k + 21) % 55 + 1 := by
  induction k with
  | zero => exact ⟨rfl, rfl⟩
  | succ k ih =>
    obtain ⟨hca, hcb⟩ := ih
    have hrule := drawFollowsIntegerRule (drawMany k (initState seed))
    rw [drawMany_succ, hrule.ca, hrule.cb, hca, hcb]
    unfold cursorAfter
    constructor <;> split <;> omega

/-- Settles O13. The rule of one draw, at the cursors that `k - 1` draws lead to. -/
theorem cursorLaw : Obligations.CursorLaw := by
  intro seed k hk
  obtain ⟨j, rfl⟩ := Nat.exists_eq_add_of_le' hk
  obtain ⟨hca, hcb⟩ := cursorAfter_drawMany seed j
  obtain ⟨ruleCa, ruleCb, ruleValue, ruleWritten, ruleKept⟩ :=
    drawFollowsIntegerRule (drawMany j (initState seed))
  rw [hca] at ruleCa ruleValue ruleWritten ruleKept
  rw [hcb] at ruleCb ruleValue
  rw [drawMany_succ, Nat.add_sub_cancel]
  exact ⟨ruleCa, ruleCb, ruleWritten.trans ruleValue, ruleKept⟩

/-! ### The three commands that deliver a draw -/

/-- The unsigned reading of a draw in [0, M) is its signed one. -/
theorem IsResidue.toInt_eq_toNat {v : Word} (h : IsResidue v) : v.toInt = (v.toNat : Int) := by
  have hcond := BitVec.toInt_eq_toNat_cond v
  omega

theorem toNat_zext64 (v : Word) : (zext64 v).toNat = v.toNat :=
  BitVec.toNat_setWidth_of_le (by decide)

section Seeded

variable {s : State} {e : Engine} (hg : s.gen = .seeded e)

include hg

theorem execRaw_completes :
    execRaw s =
      .next (((s.setEngine (draw e).2).setResult (zext64 (draw e).1) false).setErr .ok) := by
  rw [execRaw, withEngine_runs s e _ hg, finish_eq]

theorem execNext_completes :
    execNext s =
      .next (((s.setEngine (draw e).2).setResult (enc64 (toF64 (draw e).1.toInt)) false).setErr .ok) :=
  sampleShaped_completes false false toF64 s e hg (checkF_none s)

/-- A draw is an exact double, so its floor changes nothing: `NEXTI` is `NEXT` (42_sampler R147). -/
theorem execNexti_eq_execNext (h : (draw e).1.toInt.natAbs < 2 ^ 53) : execNexti s = execNext s := by
  rw [execNext_completes hg, ← ffloor_toF64 h]
  exact sampleShaped_completes false false (fun r => ffloor (toF64 r)) s e hg (checkF_none s)

end Seeded

/-- Settles O31. Under R24 the draw is in [0, M), so its signed and its unsigned reading agree and the double that
`NEXT` delivers is exact. -/
theorem nextAgreesWithRaw : Obligations.NextAgreesWithRaw := by
  intro s e hg hinv
  have hdraw := isResidue_draw hinv.1
  have hsigned := hdraw.toInt_eq_toNat
  have hsmall : (draw e).1.toInt.natAbs < 2 ^ 53 := by omega
  have hnext := execNext_completes hg
  have hnexti := (execNexti_eq_execNext hg hsmall).trans hnext
  refine ⟨_, _, execRaw_completes hg, hnext, hnexti, ?range, ?double, rfl, rfl, toNat_zext64 _⟩
  case range =>
    show (zext64 (draw e).1).toNat < 2147483647
    rw [toNat_zext64]
    omega
  case double =>
    show f64 (enc64 (toF64 (draw e).1.toInt)) = toF64 (zext64 (draw e).1).toNat
    rw [f64_enc64_toF64 hsmall, toNat_zext64, hsigned]

end Sys2Proof.Proofs
end

