-- ==== Sys2Proof/Proofs/Rounding.lean ====
section
/-!
PROOFS. Rounding to nearest with ties to even keeps the order and answers a representable magnitude (00_scope R9).
-/
namespace Sys2Proof.Proofs

open Sys2Proof Sys2Proof.Machine

/-! ### The nearest whole quotient -/

/-- The whole number nearest to `num / step`, the even one on a tie: the significand that `roundMag` chooses. -/
def nearestQuotient (num step : Nat) : Nat :=
  if 2 * (num % step) < step then num / step
  else if step < 2 * (num % step) then num / step + 1
  else num / step + num / step % 2

theorem roundMag_eq_nearestQuotient (num den : Nat) :
    roundMag num den = nearestQuotient num (den * ulpAt (num / den)) * ulpAt (num / den) := by
  simp only [roundMag, nearestQuotient, ite_mul]

theorem div_le_nearestQuotient (num step : Nat) : num / step ≤ nearestQuotient num step := by
  unfold nearestQuotient
  split_ifs <;> omega

theorem nearestQuotient_le_div_add_one (num step : Nat) : nearestQuotient num step ≤ num / step + 1 := by
  unfold nearestQuotient
  split_ifs <;> omega

/-- Numbers with different quotients are kept apart by the bounds, those with the same one by the remainder. -/
theorem nearestQuotient_mono {num num' : Nat} (step : Nat) (h : num ≤ num') :
    nearestQuotient num step ≤ nearestQuotient num' step := by
  obtain hlt | heq := Nat.lt_or_eq_of_le (Nat.div_le_div_right (c := step) h)
  · calc nearestQuotient num step ≤ num / step + 1 := nearestQuotient_le_div_add_one num step
      _ ≤ num' / step := hlt
      _ ≤ nearestQuotient num' step := div_le_nearestQuotient num' step
  · have hrem : num % step ≤ num' % step := by
      have hnum := Nat.div_add_mod num step
      have hnum' := Nat.div_add_mod num' step
      rw [heq] at hnum
      omega
    unfold nearestQuotient
    rw [heq]
    split_ifs <;> omega

/-! ### Bounds by whole numbers of units in the last place -/

theorem ulpAt_pos (m : Nat) : 0 < ulpAt m := Nat.two_pow_pos _

/-- Rounding does not pass a whole number of units that lies above. -/
theorem roundMag_le_of_ulpAt_dvd {num den p : Nat} (hdvd : ulpAt (num / den) ∣ p) (hlt : num / den < p) :
    roundMag num den ≤ p := by
  obtain ⟨k, rfl⟩ := hdvd
  have hquot : num / (den * ulpAt (num / den)) < k := by
    rw [← Nat.div_div_eq_div_mul]
    exact Nat.div_lt_of_lt_mul hlt
  rw [roundMag_eq_nearestQuotient, Nat.mul_comm]
  exact Nat.mul_le_mul_left _ ((nearestQuotient_le_div_add_one _ _).trans hquot)

/-- Rounding does not pass a whole number of units that lies below. -/
theorem le_roundMag_of_ulpAt_dvd {num den p : Nat} (hdvd : ulpAt (num / den) ∣ p) (hle : p ≤ num / den) :
    p ≤ roundMag num den := by
  obtain ⟨k, rfl⟩ := hdvd
  have hquot : k ≤ num / (den * ulpAt (num / den)) := by
    rw [← Nat.div_div_eq_div_mul, Nat.le_div_iff_mul_le (ulpAt_pos _), Nat.mul_comm]
    exact hle
  rw [roundMag_eq_nearestQuotient, Nat.mul_comm]
  exact Nat.mul_le_mul_right _ (hquot.trans (div_le_nearestQuotient _ _))

/-- A rounded magnitude does not pass the next power of two. -/
theorem roundMag_le_two_pow (num den : Nat) : roundMag num den ≤ 2 ^ ((num / den).log2 + 1) :=
  roundMag_le_of_ulpAt_dvd (Nat.pow_dvd_pow 2 (by omega)) Nat.lt_log2_self

/-- A rounded magnitude does not pass the power of two below. -/
theorem two_pow_le_roundMag {num den : Nat} (h : num / den ≠ 0) : 2 ^ (num / den).log2 ≤ roundMag num den :=
  le_roundMag_of_ulpAt_dvd (Nat.pow_dvd_pow 2 (by omega)) (Nat.log2_self_le h)

/-! ### What rounding keeps -/

/-- Within one power of two the units are the same; between two, the larger power separates the results. -/
theorem roundMag_mono {num num' : Nat} (den : Nat) (h : num ≤ num') : roundMag num den ≤ roundMag num' den := by
  have hquot : num / den ≤ num' / den := Nat.div_le_div_right h
  have hlog : (num / den).log2 ≤ (num' / den).log2 := by
    rw [Nat.log2_eq_log_two, Nat.log2_eq_log_two]
    exact Nat.log_mono_right hquot
  obtain hlt | heq := Nat.lt_or_eq_of_le hlog
  · have hne : num' / den ≠ 0 := by
      intro hzero
      simp [hzero] at hlt
    calc roundMag num den ≤ 2 ^ ((num / den).log2 + 1) := roundMag_le_two_pow num den
      _ ≤ 2 ^ (num' / den).log2 := Nat.pow_le_pow_right (by decide) hlt
      _ ≤ roundMag num' den := two_pow_le_roundMag hne
  · have hulp : ulpAt (num / den) = ulpAt (num' / den) := by rw [ulpAt, ulpAt, heq]
    rw [roundMag_eq_nearestQuotient, roundMag_eq_nearestQuotient, hulp]
    exact Nat.mul_le_mul_right _ (nearestQuotient_mono _ h)

/-- The significand of a result has at most 53 bits, or it is 2^53, which is 2^52 of the next larger units. -/
theorem roundMag_representable (num den : Nat) : Representable (roundMag num den) := by
  have hle : nearestQuotient num (den * ulpAt (num / den)) ≤ 2 ^ 53 := by
    refine Nat.le_of_mul_le_mul_right ?_ (ulpAt_pos (num / den))
    calc nearestQuotient num (den * ulpAt (num / den)) * ulpAt (num / den)
        = roundMag num den := (roundMag_eq_nearestQuotient num den).symm
      _ ≤ 2 ^ ((num / den).log2 + 1) := roundMag_le_two_pow num den
      _ ≤ 2 ^ (53 + ((num / den).log2 - 52)) := Nat.pow_le_pow_right (by decide) (by omega)
      _ = 2 ^ 53 * ulpAt (num / den) := Nat.pow_add 2 53 _
  rw [roundMag_eq_nearestQuotient]
  obtain hlt | heq := Nat.lt_or_eq_of_le hle
  · exact ⟨_, (num / den).log2 - 52, hlt, rfl⟩
  · exact ⟨2 ^ 52, (num / den).log2 - 52 + 1, by decide, by rw [heq, ulpAt, Nat.pow_succ]; omega⟩

end Sys2Proof.Proofs
end

