-- ==== Sys2Proof/Proofs/Sampler.lean ====
section
/-!
PROOFS. The unit sampler: its constants (42_sampler R140) and the interval its values lie in (R151).
-/
namespace Sys2Proof.Proofs

open Sys2Proof Sys2Proof.Machine

/-! ### `Unit` as a rounded magnitude -/

/-- The magnitude of `CINV`: 2^-31 · (1 + 2^-31) in units of 2^-1074 (42_sampler R140). -/
def cinvMag : Nat := 2 ^ 1043 + 2 ^ 1012

/-- The magnitude of `UMAX`: 1 − 2^-31 in units of 2^-1074 (42_sampler R140). -/
def umaxMag : Nat := 2 ^ 1074 - 2 ^ 1043

/-- The magnitude of `Unit(k)`: the product of `k` and `CINV`, rounded once. -/
def unitMag (k : Nat) : Nat := roundMag (k * unitsPerOne * cinvMag) unitsPerOne

theorem cinv_eq_fin : cinv = .fin false cinvMag := by decide +kernel

theorem unitMag_zero : unitMag 0 = 0 := by decide +kernel

theorem unitMag_largest : unitMag 2147483646 = umaxMag := by decide +kernel

theorem unitMag_mono {k k' : Nat} (h : k ≤ k') : unitMag k ≤ unitMag k' :=
  roundMag_mono _ (Nat.mul_le_mul_right _ (Nat.mul_le_mul_right _ h))

theorem umaxMag_lt_unitsPerOne : umaxMag < unitsPerOne := by
  rw [unitsPerOne_eq]
  exact Nat.sub_lt (pow_pos (by decide) 1074) (pow_pos (by decide) 1043)

theorem unitMag_le_umaxMag {k : Nat} (h : k < 2147483647) : unitMag k ≤ umaxMag :=
  (unitMag_mono (Nat.le_of_lt_succ h)).trans_eq unitMag_largest

theorem unitMag_lt_overflowMag {k : Nat} (h : k < 2147483647) : unitMag k < overflowMag := by
  have hone : 1 * unitsPerOne < overflowMag := units_lt_overflowMag (by decide)
  rw [Nat.one_mul] at hone
  exact ((unitMag_le_umaxMag h).trans_lt umaxMag_lt_unitsPerOne).trans hone

theorem toF64_natCast {k : Nat} (h : k < 2 ^ 53) : toF64 k = .fin false (k * unitsPerOne) := by
  rw [toF64_exact (by omega), Int.natAbs_natCast, decide_eq_false (by omega)]

/-- A draw converts exactly, so its `Unit` is one rounding of its product with `CINV`, far below the overflow. -/
theorem unitOf_natCast {k : Nat} (h : k < 2147483647) : unitOf k = .fin false (unitMag k) := by
  have hproduct : unitOf k = roundF64 false (k * unitsPerOne * cinvMag) unitsPerOne := by
    rw [unitOf, toF64_natCast (by omega), cinv_eq_fin, fmul_fin]; rfl
  obtain ⟨hover, -⟩ | ⟨-, hround⟩ := roundF64_cases false (k * unitsPerOne * cinvMag) unitsPerOne
  · exact absurd hover (Nat.not_le.mpr (unitMag_lt_overflowMag h))
  · exact hproduct.trans hround

theorem umax_eq_fin : umax = .fin false umaxMag := by
  have hlargest : umax = unitOf (2147483646 : Nat) := rfl
  rw [hlargest, unitOf_natCast (by decide), unitMag_largest]

theorem unitOf_zero : unitOf 0 = fzero := by
  have hcast : unitOf 0 = unitOf (0 : Nat) := rfl
  rw [hcast, unitOf_natCast (by decide), unitMag_zero]; rfl

/-! ### The order of the values -/

/-- Without a sign, the order of the values is that of the magnitudes. -/
theorem fle_nonneg {m n : Nat} : fle (.fin false m) (.fin false n) = true ↔ m ≤ n := by simp

theorem flt_nonneg {m n : Nat} : flt (.fin false m) (.fin false n) = true ↔ m < n := by simp

/-- A draw is a natural number below `M`. -/
theorem exists_natCast_draw {r : Int} (h0 : 0 ≤ r) (hM : r < (M : Int)) :
    ∃ k : Nat, r = k ∧ k < 2147483647 := by
  have hM' : r < 2147483647 := hM
  exact ⟨r.toNat, by omega, by omega⟩

theorem fle_unitOf {r r' : Int} (h0 : 0 ≤ r) (hle : r ≤ r') (hM : r' < (M : Int)) :
    fle (unitOf r) (unitOf r') = true := by
  obtain ⟨k, rfl, hk⟩ := exists_natCast_draw h0 (hle.trans_lt hM)
  obtain ⟨k', rfl, hk'⟩ := exists_natCast_draw (h0.trans hle) hM
  rw [unitOf_natCast hk, unitOf_natCast hk', fle_nonneg]
  exact unitMag_mono (Int.ofNat_le.mp hle)

theorem fle_fzero_unitOf {r : Int} (h0 : 0 ≤ r) (hM : r < (M : Int)) : fle fzero (unitOf r) = true := by
  rw [← unitOf_zero]
  exact fle_unitOf le_rfl h0 hM

theorem fle_unitOf_umax {r : Int} (h0 : 0 ≤ r) (hM : r < (M : Int)) : fle (unitOf r) umax = true :=
  fle_unitOf h0 (Int.le_sub_one_of_lt hM) (Int.sub_lt_self _ one_pos)

theorem toF64_one : toF64 1 = .fin false unitsPerOne := by
  have hone := toF64_natCast (k := 1) (by decide)
  rwa [Nat.one_mul] at hone

theorem flt_unitOf_one {r : Int} (h0 : 0 ≤ r) (hM : r < (M : Int)) : flt (unitOf r) (toF64 1) = true := by
  obtain ⟨k, rfl, hk⟩ := exists_natCast_draw h0 hM
  rw [unitOf_natCast hk, toF64_one, flt_nonneg]
  exact (unitMag_le_umaxMag hk).trans_lt umaxMag_lt_unitsPerOne

theorem flt_umax_one : flt umax (toF64 1) = true :=
  flt_unitOf_one (r := (M : Int) - 1) (by decide) (Int.sub_lt_self _ one_pos)

/-! ### The command -/

/-- `UNIT` delivers `Unit(r)` unchanged: it is representable. -/
theorem f64_enc64_unitOf {r : Int} (h0 : 0 ≤ r) (hM : r < (M : Int)) : f64 (enc64 (unitOf r)) = unitOf r := by
  obtain ⟨k, rfl, hk⟩ := exists_natCast_draw h0 hM
  rw [unitOf_natCast hk]
  exact f64_enc64_fin false (roundMag_representable _ _) (unitMag_lt_overflowMag hk)

theorem execUnit_completes {s : State} {e : Engine} (hg : s.gen = .seeded e) :
    execUnit s =
      .next (((s.setEngine (draw e).2).setResult (enc64 (unitOf (draw e).1.toInt)) false).setErr .ok) := by
  rw [execUnit, withEngine_runs s e _ hg, finish_eq]; rfl

/-- Settles O33. Rounding keeps the order, so `Unit` is non-decreasing and lies between its values at the ends;
under R24 a draw is in [0, M), and `RES` holds its `Unit` exactly. -/
theorem unitIntervalLaw : Obligations.UnitIntervalLaw := by
  refine ⟨umax_eq_fin, flt_umax_one, fun r h0 hM => ⟨fle_fzero_unitOf h0 hM, fle_unitOf_umax h0 hM⟩,
    fun r r' => fle_unitOf, fun s e hg hinv => ?_⟩
  obtain ⟨hlo, hhi⟩ := isResidue_draw hinv.1
  have hres := f64_enc64_unitOf hlo hhi
  refine ⟨_, execUnit_completes hg, ?_, ?_⟩
  · exact (congrArg (fle fzero) hres).trans (fle_fzero_unitOf hlo hhi)
  · exact (congrArg (flt · (toF64 1)) hres).trans (flt_unitOf_one hlo hhi)

/-! ### The constants -/

theorem enc64_cinv : enc64 cinv = 0x3E00000000200000#64 := by
  rw [cinv_eq_fin]; decide +kernel

theorem enc64_umax : enc64 umax = 0x3FEFFFFFFFC00000#64 := by
  rw [umax_eq_fin]; decide +kernel

/-- Multiplying by the rounded reciprocal is not dividing by `M` (42_sampler R140). -/
theorem unitOf_ne_quotient : unitOf 4198633 ≠ fdiv (toF64 4198633) (toF64 2147483647) := by
  decide +kernel

/-- Settles O32. `Unit` multiplies by `CINV`, which is the rounded quotient of 1 and `M`; the constants follow
from the two magnitudes. -/
theorem unitConstants : Obligations.UnitConstants := by
  have hcinv : cinv = fdiv (toF64 1) (toF64 2147483647) := rfl
  refine ⟨fun r => ?product, enc64_cinv, cinv_eq_fin, enc64_umax, umax_eq_fin, ?largest, unitOf_zero,
    unitOf_ne_quotient⟩
  case product => rw [← hcinv]; rfl
  case largest => rfl

end Sys2Proof.Proofs
end

