-- ==== Sys2Proof/Proofs/Wide.lean ====
section
/-!
PROOFS. The wide value (43_wide R172) as a number in base 256, the `LONG*` commands on it, and what `RES` and
`WRAP` report of their results (R177, R179).
-/
namespace Sys2Proof.Proofs

open Sys2Proof Sys2Proof.Machine

/-! ### The wide value in base 256 -/

/-- The bytes of the first `n` draws, the first draw first. -/
def drawnBytes (n : Nat) (e : Engine) : List Nat := (List.range n).map fun k => (byteOf (drawAt k e)).toNat

/-- The first draw taken apart, as `drawMany` and the machine's own loops take it. -/
theorem drawnBytes_succ (n : Nat) (e : Engine) :
    drawnBytes (n + 1) e = (byteOf (draw e).1).toNat :: drawnBytes n (draw e).2 := by
  simp [drawnBytes, List.range_succ_eq_map, drawAt, drawMany]

theorem drawnBytes_length (n : Nat) (e : Engine) : (drawnBytes n e).length = n := by simp [drawnBytes]

theorem drawnBytes_lt (n : Nat) (e : Engine) : ∀ x ∈ drawnBytes n e, x < 256 := by
  simp only [drawnBytes, List.mem_map]
  rintro _ ⟨k, -, rfl⟩
  exact (byteOf (drawAt k e)).isLt

theorem ofDigits_map_range (b n : Nat) (f : Nat → Nat) :
    Nat.ofDigits b ((List.range n).map f) = ((List.range n).map fun k => f k * b ^ k).sum := by
  induction n with
  | zero => rfl
  | succ n ih => simp [List.range_succ, Nat.ofDigits_append, ih, Nat.mul_comm]

theorem wideValue_eq_ofDigits (e : Engine) : wideValue e = Nat.ofDigits 256 (drawnBytes 8 e) :=
  (ofDigits_map_range 256 8 fun k => (byteOf (drawAt k e)).toNat).symm

/-- `n` more draws add the number their bytes write in base 256, at place `k` (43_wide R172). -/
theorem wideFrom_eq (n k v : Nat) (e : Engine) :
    wideFrom n k v e = (v + 256 ^ k * Nat.ofDigits 256 (drawnBytes n e), drawMany n e) := by
  induction n generalizing k v e with
  | zero => rfl
  | succ n ih =>
    have hplace : (2 : Nat) ^ (8 * k) = 256 ^ k := Nat.pow_mul 2 8 k
    rw [wideFrom, ih, drawnBytes_succ, Nat.ofDigits_cons, hplace]
    refine Prod.ext ?_ rfl
    show v + _ * 256 ^ k + 256 ^ (k + 1) * _ = v + 256 ^ k * (_ + 256 * _)
    ring

theorem wide_eq (e : Engine) : wide e = (wideValue e, drawMany 8 e) := by
  rw [wide, wideBytes, wideFrom_eq, wideValue_eq_ofDigits]
  simp

/-- 43_wide R172: `V` is in [0, 2^64). -/
theorem wideValue_lt (e : Engine) : wideValue e < 18446744073709551616 := by
  have hlt := Nat.ofDigits_lt_base_pow_length (by decide : 1 < 256) (drawnBytes_lt 8 e)
  rwa [← wideValue_eq_ofDigits, drawnBytes_length] at hlt

/-! ### What `RES` and `WRAP` report -/

@[simp] theorem reportedLong_setErr (s : State) (c : ErrCode) : reportedLong (s.setErr c) = reportedLong s := rfl

/-- `WRAP` tells the two ends of the range from the middle, and `RES[63]` tells the ends from each other
(43_wide R177). -/
theorem reportedLong_setResult (s : State) {z : Int} (hlo : -9223372036854775808 ≤ z)
    (hhi : z < 27670116110564327424) : reportedLong (s.setResult (bits64 z) (wrapOf z)) = z := by
  have hres : ((bits64 z).toNat : Int) = z % 18446744073709551616 := by
    simp only [bits64, BitVec.toNat_ofInt]; omega
  have hmsb : (bits64 z).msb = decide (9223372036854775808 ≤ (bits64 z).toNat) := BitVec.msb_eq_decide _
  have hsigned := BitVec.toInt_eq_toNat_cond (bits64 z)
  have hwrap := wrapOf_eq_true z
  simp only [reportedLong, setResult_res, setResult_wrap, hmsb, hwrap, decide_eq_true_eq]
  split
  · split <;> omega
  · omega

/-! ### The `LONG*` commands -/

/-- What a `LONG*` with the exact result `z` leaves of `s`, from the engine `e`. -/
def afterLong (s : State) (e : Engine) (z : Int) : State :=
  ((s.setEngine (drawMany 8 e)).setResult (bits64 z) (wrapOf z)).setErr .ok

@[simp] theorem afterLong_gen (s : State) (e : Engine) (z : Int) :
    (afterLong s e z).gen = .seeded (drawMany 8 e) := rfl

@[simp] theorem afterLong_res (s : State) (e : Engine) (z : Int) : (afterLong s e z).res = bits64 z := rfl

theorem sampleWide_eq_afterLong {s : State} {e : Engine} (hg : s.gen = .seeded e) (f : Int → Int) :
    sampleWide none f s = .next (afterLong s e (f (wideValue e))) := by
  rw [sampleWide_completes f s e hg, wide_eq]
  rfl

/-- The remainder by the width of [lo, hi), added to `lo`, lies in it (43_wide R179). -/
theorem emod_add_mem_range {lo hi : Int} (h : lo < hi) (v : Int) :
    lo ≤ v % (hi - lo) + lo ∧ v % (hi - lo) + lo < hi := by
  have hwidth := Int.sub_pos.mpr h
  have hnonneg := Int.emod_nonneg v hwidth.ne'
  have hbelow := Int.emod_lt_of_pos v hwidth
  omega

theorem not_rangeError_longMax {s : State} : ¬ RangeError .longMax s ↔ 0 < s.opb.toInt := by
  simp [RangeError]

theorem not_rangeError_longMm {s : State} : ¬ RangeError .longMm s ↔ s.opa.toInt < s.opb.toInt := by
  simp [RangeError]

section Accepted

variable {i : Instr} {s : State} {e : Engine} {z : Int}
  (hz : longResult i s e = some z) (hr : ¬ RangeError i s)

include hz hr

/-- An accepted `LONG*` on a seeded block completes with its exact result (43_wide R173 to R176). -/
theorem exec_eq_afterLong (hg : s.gen = .seeded e) : exec i s = .next (afterLong s e z) := by
  cases i with
  | long =>
    cases hz
    exact sampleWide_eq_afterLong hg fun v => v
  | longMin =>
    cases hz
    exact sampleWide_eq_afterLong hg fun v => v + minL s
  | longMax =>
    cases hz
    have hmax : 0 < maxL s := not_rangeError_longMax.mp hr
    have hrem : (((wideValue e : Int) % maxL s).natAbs : Int) = wideValue e % maxL s :=
      Int.natAbs_of_nonneg (Int.emod_nonneg _ hmax.ne')
    show execLongMax s = _
    rw [execLongMax, checkLongMax, if_pos hmax, sampleWide_eq_afterLong hg, hrem]
    rfl
  | longMm =>
    cases hz
    have hlt : minL s < maxL s := not_rangeError_longMm.mp hr
    have hrem : (((wideValue e : Int) % (maxL s - minL s)).natAbs : Int) = wideValue e % (maxL s - minL s) :=
      Int.natAbs_of_nonneg (Int.emod_nonneg _ (Int.sub_pos.mpr hlt).ne')
    show execLongMm s = _
    rw [execLongMm, checkLongMm, if_pos hlt, sampleWide_eq_afterLong hg, hrem]
    rfl
  | _ => cases hz

/-- "Every `LONG*` result lies in [−2^63, 2^64 + 2^63)" (43_wide R177). -/
theorem longResult_bounds : -9223372036854775808 ≤ z ∧ z < 27670116110564327424 := by
  have hwide := wideValue_lt e
  have hminLo : -9223372036854775808 ≤ s.opa.toInt := BitVec.le_toInt s.opa
  have hminHi : s.opa.toInt < 9223372036854775808 := BitVec.toInt_lt
  have hmaxHi : s.opb.toInt < 9223372036854775808 := BitVec.toInt_lt
  cases i with
  | long => cases hz; omega
  | longMin => cases hz; omega
  | longMax =>
    cases hz
    have hmax := not_rangeError_longMax.mp hr
    have hlo := Int.emod_nonneg (wideValue e : Int) hmax.ne'
    have hhi := Int.emod_lt_of_pos (wideValue e : Int) hmax
    omega
  | longMm =>
    cases hz
    have hrange := emod_add_mem_range (not_rangeError_longMm.mp hr) (wideValue e)
    omega
  | _ => cases hz

theorem reportedLong_afterLong : reportedLong (afterLong s e z) = z := by
  obtain ⟨hlo, hhi⟩ := longResult_bounds hz hr
  rw [afterLong, reportedLong_setErr, reportedLong_setResult _ hlo hhi]

theorem reportedLong_of_exec (hg : s.gen = .seeded e) {t : State} (ht : exec i s = .next t) :
    reportedLong t = z := by
  have hafter := exec_eq_afterLong hz hr hg
  obtain rfl : t = afterLong s e z := Host.Outcome.next.inj (ht.symm.trans hafter)
  exact reportedLong_afterLong hz hr

end Accepted

/-- Settles O28. The reading is exact on the whole range of results, and every accepted `LONG*` delivers a result
of that range. -/
theorem resAndWrapGiveLongResult : Obligations.ResAndWrapGiveLongResult := by
  refine ⟨fun s z hlo hhi => ⟨reportedLong_setResult s hlo hhi, wrapOf_eq_true z⟩, fun s t e hg => ?_⟩
  have hlong : ¬ RangeError .long s := by simp [RangeError]
  have hlongMin : ¬ RangeError .longMin s := by simp [RangeError]
  exact ⟨reportedLong_of_exec (longResult_long s e) hlong hg,
    reportedLong_of_exec (longResult_longMin s e) hlongMin hg,
    fun hmax => reportedLong_of_exec (longResult_longMax s e) (not_rangeError_longMax.mpr hmax) hg,
    fun hlt => reportedLong_of_exec (longResult_longMm s e) (not_rangeError_longMm.mpr hlt) hg⟩

/-- Settles O29. Each completes and reports its exact result, a remainder by a positive divisor. -/
theorem longRangeLaw : Obligations.LongRangeLaw := by
  refine fun s e hg => ⟨fun hlt => ?mm, fun hmax => ?max⟩
  case mm =>
    have hz := longResult_longMm s e
    have hr := not_rangeError_longMm.mpr hlt
    refine ⟨_, exec_eq_afterLong hz hr hg, ?_⟩
    rw [reportedLong_afterLong hz hr]
    exact emod_add_mem_range hlt _
  case max =>
    have hz := longResult_longMax s e
    have hr := not_rangeError_longMax.mpr hmax
    refine ⟨_, exec_eq_afterLong hz hr hg, ?_⟩
    rw [reportedLong_afterLong hz hr]
    exact ⟨Int.emod_nonneg _ hmax.ne', Int.emod_lt_of_pos _ hmax⟩

end Sys2Proof.Proofs
end

