-- ==== Sys2Proof/Proofs/ByteFill.lean ====
section
/-!
PROOFS. The byte fill (43_wide R171): draw `k` gives the byte at `dst + k`, and a fill of 8 writes the bytes that
`LONG` composes (R178).
-/
namespace Sys2Proof.Proofs

open Sys2Proof Sys2Proof.Machine

/-! ### The fill -/

theorem fillBytes_engine (n a : Nat) (m : Memory) (e : Engine) : (fillBytes n a m e).2 = drawMany n e := by
  induction n generalizing a m e with
  | zero => rfl
  | succ n ih => exact ih _ _ _

/-- Draw `k` gives the byte at `dst + k`, which no later draw touches (20_memory R46). -/
theorem read_fillBytes {n k : Nat} (hk : k < n) (a : Nat) (m : Memory) (e : Engine) :
    Memory.read (fillBytes n a m e).1 (a + k) = some (byteOf (drawAt k e)) := by
  induction n generalizing k a m e with
  | zero => omega
  | succ n ih =>
    cases k with
    | zero =>
      exact (Memory.read_fillBytes_outside n (a + 1) _ _ a (by omega)).trans (Memory.read_write_same m a _)
    | succ k =>
      rw [show a + (k + 1) = a + 1 + k by omega]
      exact ih (by omega) (a + 1) _ _

/-- What a `BYTES` that fills its range leaves of `s`, from the engine `e`. -/
def afterBytes (s : State) (e : Engine) : State :=
  ((s.setDma (fillBytes (byteCount s) (dstAddr s) s.dma e).1).setEngine (drawMany (byteCount s) e)).setErr .ok

@[simp] theorem afterBytes_gen (s : State) (e : Engine) :
    (afterBytes s e).gen = .seeded (drawMany (byteCount s) e) := rfl

theorem read_afterBytes {s : State} {k : Nat} (hk : k < byteCount s) (e : Engine) :
    Memory.read (afterBytes s e).dma (s.opa.toNat + k) = some (byteOf (drawAt k e)) :=
  read_fillBytes hk (dstAddr s) s.dma e

/-- A `BYTES` inside the DMA space, with every byte admitted, completes. -/
theorem execBytes_eq_afterBytes {s : State} {e : Engine} (hg : s.gen = .seeded e) (hc : checkBytes s = none)
    (hadmit : ∀ k, k < byteCount s → admits s.platform (s.opa.toNat + k) = true) :
    execBytes s = .next (afterBytes s e) := by
  have hall : admitsAll s.platform (dstAddr s) (byteCount s) = true := (admitsAll_iff _ _ _).mpr hadmit
  rw [execBytes_cases s e hg hc, if_pos hall, fillBytes_engine]
  rfl

/-! ### The bytes of a wide value -/

/-- A number written in base 256 gives each of its digits back. -/
theorem ofDigits_drawnBytes_div {n k : Nat} (hk : k < n) (e : Engine) :
    Nat.ofDigits 256 (drawnBytes n e) / 256 ^ k % 256 = (byteOf (drawAt k e)).toNat := by
  have hlen : k < (drawnBytes n e).length := by rwa [drawnBytes_length]
  have hdigit : (drawnBytes n e)[k] = (byteOf (drawAt k e)).toNat := by simp [drawnBytes]
  rw [Nat.ofDigits_div_pow_eq_ofDigits_drop k (by decide) _ (drawnBytes_lt n e),
    List.drop_eq_getElem_cons hlen, Nat.ofDigits_cons, Nat.add_mul_mod_self_left, hdigit]
  exact Nat.mod_eq_of_lt (byteOf (drawAt k e)).isLt

/-- Byte `k` of the delivered `V` is the byte of draw `k` (43_wide R172, R173). -/
theorem bits64_wideValue_byte {k : Nat} (hk : k < 8) (e : Engine) :
    (bits64 (wideValue e)).extractLsb' (8 * k) 8 = byteOf (drawAt k e) := by
  apply BitVec.eq_of_toNat_eq
  have hres : (bits64 (wideValue e)).toNat = wideValue e := by
    rw [bits64, BitVec.ofInt_natCast, BitVec.toNat_ofNat, Nat.mod_eq_of_lt (wideValue_lt e)]
  rw [BitVec.extractLsb'_toNat, hres, Nat.shiftRight_eq_div_pow, Nat.pow_mul, wideValue_eq_ofDigits]
  exact ofDigits_drawnBytes_div hk e

/-- Settles O30. Both commands make 8 draws, and byte `k` of each is the byte of draw `k`. -/
theorem bytesAgreesWithLong : Obligations.BytesAgreesWithLong := by
  intro s e hg hcount hspace hadmit
  have hn : byteCount s = 8 := (byteCount_eq_mod s).trans hcount
  have hcheck : checkBytes s = none := by
    rw [checkBytes_none, hn, dstAddr, u64]; omega
  have hbytes : exec .bytes s = .next (afterBytes s e) :=
    execBytes_eq_afterBytes hg hcheck (by rwa [hn])
  have hlong : exec .long s = .next (afterLong s e (wideValue e)) :=
    exec_eq_afterLong (longResult_long s e) (by simp [RangeError]) hg
  refine ⟨_, _, hbytes, hlong, ?engine, fun k hk => ?byte⟩
  case engine => rw [afterBytes_gen, hn, afterLong_gen]
  case byte => rw [read_afterBytes (hn ▸ hk), afterLong_res, bits64_wideValue_byte hk]

end Sys2Proof.Proofs
end

