-- ==== Sys2Proof/Proofs/Exceptions.lean ====
section
/-!
PROOFS. The completion codes (60_exceptions): which words are illegal, which code each command earns, and that a
rejected command changes `STATUS.ERR` alone.
-/
namespace Sys2Proof.Proofs

open Sys2Proof Sys2Proof.Machine

/-! ### Illegal words -/

theorem not_illegalWord_encode (i : Instr) : ¬ IllegalWord (encode i) := by
  unfold IllegalWord
  cases i <;> decide

/-- The decoder accepts only the words of commands, and none of these is illegal. -/
theorem decode_eq_error_of_illegalWord {w : Word} (h : IllegalWord w) : ∃ x, decode w = .error x := by
  cases hd : decode w with
  | error x => exact ⟨x, rfl⟩
  | ok i =>
    obtain rfl := (decode_eq_ok_iff w i).mp hd
    exact absurd h (not_illegalWord_encode i)

theorem runCommand_of_illegalWord {w : Word} (h : IllegalWord w) (s : State) :
    runCommand w s = .next (s.setErr .illegal) := by
  obtain ⟨x, hx⟩ := decode_eq_error_of_illegalWord h
  exact runCommand_illegal w x s hx

/-- The next event a write to `CMD`: unless the command is stuck, the step is its execution. -/
theorem step_cmdWrite {s : State} {w : Word} {rest : List BusEvent}
    (hp : s.pending = cmdWrite s.platform w :: rest)
    (hns : runCommand w (s.setPending rest) ≠ .fault .stuckDma) :
    step s = runCommand w (s.setPending rest) := by
  have hreach := cmdWrite_reaches (s.setPending rest) w
  rw [← hreach] at hns ⊢
  exact step_access_of_not_stuck s _ rest hp hns

/-- Settles O6. An illegal word is not decoded, so it is rejected before `SEEDED` is looked at; a rejection is not a
stuck command, so what follows it on the bus makes no difference. -/
theorem illegalWordSetsErrIllegal : Obligations.IllegalWordSetsErrIllegal := by
  intro s w rest hw hp
  have hrun := runCommand_of_illegalWord hw (s.setPending rest)
  rw [step_cmdWrite hp (by simp [hrun]), hrun]
  rfl

/-! ### The check of each command -/

/-- The check a seeded command makes of its operands before any draw (60_exceptions R208); a command that reads
neither operand as binary64 passes `CheckF`. `exec_eq_withEngine` ties it to the machine. -/
def operandCheck (i : Instr) (s : State) : Option ErrCode :=
  match i with
  | .bytes => checkBytes s
  | .longMax => checkLongMax s
  | .longMm => checkLongMm s
  | _ => checkF (readsMinF i) (readsMaxF i) s

/-- `CheckF` raises `ERR_RANGE` exactly where the operands are finite and the shape's range is empty or too wide
(42_sampler R142). -/
theorem checkF_range (hasMin hasMax : Bool) (s : State) :
    checkF hasMin hasMax s = some .range ↔
      ¬ ((hasMin = true ∧ isFinite (minF s) = false) ∨ (hasMax = true ∧ isFinite (maxF s) = false)) ∧
      ((hasMin = true ∧ hasMax = true ∧
          (fgt (maxF s) (minF s) = false ∨ isFinite (fsub (maxF s) (minF s)) = false)) ∨
        (hasMin = false ∧ hasMax = true ∧ fgt (maxF s) fzero = false)) := by
  cases hasMin <;> cases hasMax
  case false.false => simp
  case true.false => simp [checkF]
  case false.true => cases hmax : isFinite (maxF s) <;> simp [checkF, hmax]
  case true.true =>
    cases hmin : isFinite (minF s)
    case false => simp [checkF, hmin]
    case true =>
      cases hmax : isFinite (maxF s)
      case false => simp [checkF, hmin, hmax]
      case true => cases hlt : fgt (maxF s) (minF s) <;> simp [checkF, hmin, hmax, hlt]

theorem checkLongMax_eq_some {s : State} {c : ErrCode} :
    checkLongMax s = some c ↔ s.opb.toInt ≤ 0 ∧ c = .range := by
  rw [← not_lt, checkLongMax, maxL, s64]
  split <;> simp [*, eq_comm]

theorem checkLongMm_eq_some {s : State} {c : ErrCode} :
    checkLongMm s = some c ↔ s.opb.toInt ≤ s.opa.toInt ∧ c = .range := by
  rw [← not_lt, checkLongMm, minL, maxL, s64, s64]
  split <;> simp [*, eq_comm]

/-- The check of `BYTES` raises no other code than `ERR_ADDR`. -/
theorem eq_addr_of_checkBytes {s : State} {c : ErrCode} (h : checkBytes s = some c) : c = .addr := by
  unfold checkBytes at h
  split at h
  · exact (Option.some.inj h).symm
  · cases h

theorem operandCheck_operand (i : Instr) (s : State) :
    operandCheck i s = some .operand ↔ OperandError i s := by
  cases i with
  | bytes => simp [operandCheck, checkBytes, OperandError, readsMinF, readsMaxF]
  | longMax => simp [operandCheck, checkLongMax_eq_some, OperandError, readsMinF, readsMaxF]
  | longMm => simp [operandCheck, checkLongMm_eq_some, OperandError, readsMinF, readsMaxF]
  | _ => exact checkF_operand _ _ s

theorem operandCheck_range (i : Instr) (s : State) :
    operandCheck i s = some .range ↔ ¬ OperandError i s ∧ RangeError i s := by
  cases i with
  | bytes => simp [operandCheck, checkBytes, RangeError]
  | longMax => simp [operandCheck, checkLongMax_eq_some, OperandError, RangeError, readsMinF, readsMaxF]
  | longMm => simp [operandCheck, checkLongMm_eq_some, OperandError, RangeError, readsMinF, readsMaxF]
  | _ =>
    refine (checkF_range _ _ s).trans (and_congr_right' ?_)
    simp [RangeError, readsMinF, readsMaxF, minF, maxF]

theorem operandCheck_addr (i : Instr) (s : State) : operandCheck i s = some .addr ↔ AddrError i s := by
  cases i with
  | bytes => exact (checkBytes_addr s).trans (by simp [AddrError])
  | longMax => simp [operandCheck, checkLongMax_eq_some, AddrError]
  | longMm => simp [operandCheck, checkLongMm_eq_some, AddrError]
  | _ =>
    refine iff_of_false (fun h => ?_) (by simp [AddrError])
    simpa using checkF_codes _ _ s _ h

/-- The codes the check of a command can raise. -/
theorem operandCheck_codes {i : Instr} {s : State} {c : ErrCode} (h : operandCheck i s = some c) :
    c = .operand ∨ c = .range ∨ c = .addr := by
  cases i with
  | bytes => exact .inr (.inr (eq_addr_of_checkBytes h))
  | longMax => exact .inr (.inl (checkLongMax_eq_some.mp h).2)
  | longMm => exact .inr (.inl (checkLongMm_eq_some.mp h).2)
  | _ => exact (checkF_codes _ _ s c h).imp_right .inl

theorem operandCheck_none {i : Instr} {s : State} (hoperand : ¬ OperandError i s) (hrange : ¬ RangeError i s)
    (haddr : ¬ AddrError i s) : operandCheck i s = none := by
  rw [Option.eq_none_iff_forall_ne_some]
  intro c hc
  obtain rfl | rfl | rfl := operandCheck_codes hc
  · exact hoperand ((operandCheck_operand i s).mp hc)
  · exact hrange ((operandCheck_range i s).mp hc).2
  · exact haddr ((operandCheck_addr i s).mp hc)

/-! ### How a legal command ends -/

/-- A command no check rejects: it completes with `OK` (60_exceptions R209), or it is stuck (20_memory R48). -/
def CompletesOrSticks (r : Result) : Prop :=
  match r with
  | .next t => t.err = .ok
  | .fault _ => True
  | .refused _ => False

/-- Every command but the two seedings makes its check behind `SEEDED`, and nothing after it rejects. -/
theorem exec_eq_withEngine {i : Instr} (hseed : i ≠ .seed) (hseedr : i ≠ .seedr) (s : State) :
    ∃ body, exec i s = withEngine s (operandCheck i s) body ∧ ∀ e, CompletesOrSticks (body e) := by
  cases i with
  | seed => exact absurd rfl hseed
  | seedr => exact absurd rfl hseedr
  | bytes =>
    refine ⟨_, rfl, fun e => ?_⟩
    split
    · rfl
    · trivial
  | _ => exact ⟨_, rfl, fun _ => rfl⟩

theorem exec_of_unseededError {i : Instr} {s : State} (h : UnseededError i s) :
    exec i s = .next (s.setErr .unseeded) := by
  obtain ⟨hseed, hseedr, hg⟩ := h
  obtain ⟨body, hexec, -⟩ := exec_eq_withEngine hseed hseedr s
  rw [hexec, withEngine_unseeded s _ body hg]

/-- All that a command past the `SEEDED` check can do (60_exceptions R207). -/
theorem exec_of_not_unseededError {i : Instr} {s : State} (h : ¬ UnseededError i s) :
    (∃ c, operandCheck i s = some c ∧ exec i s = .next (s.setErr c)) ∨
      (operandCheck i s = none ∧ CompletesOrSticks (exec i s)) := by
  by_cases hseed : i = .seed
  · subst hseed
    exact .inr ⟨rfl, rfl⟩
  by_cases hseedr : i = .seedr
  · subst hseedr
    exact .inr ⟨rfl, rfl⟩
  obtain ⟨body, hexec, hbody⟩ := exec_eq_withEngine hseed hseedr s
  rw [hexec]
  obtain ⟨hg, -⟩ | ⟨e, c, -, hcheck, hreject⟩ | ⟨e, -, hcheck, hrun⟩ :=
    withEngine_cases s (operandCheck i s) body
  · exact absurd ⟨hseed, hseedr, hg⟩ h
  · exact .inl ⟨c, hcheck, hreject⟩
  · exact .inr ⟨hcheck, hrun ▸ hbody e⟩

theorem exec_rejected {i : Instr} {s : State} {c : ErrCode} (h : ¬ UnseededError i s)
    (hc : operandCheck i s = some c) : exec i s = .next (s.setErr c) := by
  obtain ⟨d, hd, hexec⟩ | ⟨hnone, -⟩ := exec_of_not_unseededError h
  · rwa [Option.some.inj (hd.symm.trans hc)] at hexec
  · simp [hc] at hnone

theorem exec_completesOrSticks {i : Instr} {s : State} (h : ¬ UnseededError i s) (hc : operandCheck i s = none) :
    CompletesOrSticks (exec i s) := by
  obtain ⟨c, hsome, -⟩ | ⟨-, hends⟩ := exec_of_not_unseededError h
  · simp [hc] at hsome
  · exact hends

/-! ### The code a command word earns -/

theorem exec_of_earnsCode {i : Instr} {s : State} {c : ErrCode} (h : EarnsCode i s c) (hc : c ≠ .ok) :
    exec i s = .next (s.setErr c) := by
  cases c with
  | ok => exact absurd rfl hc
  | illegal => exact h.elim
  | unseeded => exact exec_of_unseededError h
  | operand =>
    obtain ⟨hseeded, hoperand⟩ := h
    exact exec_rejected hseeded ((operandCheck_operand i s).mpr hoperand)
  | range =>
    obtain ⟨hseeded, hoperand, hrange⟩ := h
    exact exec_rejected hseeded ((operandCheck_range i s).mpr ⟨hoperand, hrange⟩)
  | addr =>
    obtain ⟨hseeded, -, -, haddr⟩ := h
    exact exec_rejected hseeded ((operandCheck_addr i s).mpr haddr)

theorem exec_of_earnsCode_ok {i : Instr} {s : State} (h : EarnsCode i s .ok) :
    CompletesOrSticks (exec i s) := by
  obtain ⟨hseeded, hoperand, hrange, haddr⟩ := h
  exact exec_completesOrSticks hseeded (operandCheck_none hoperand hrange haddr)

/-- Settles O41. `SEEDED` is looked at before the command's own check, whose codes come in the order of R207. -/
theorem rejectionsFollowPriority : Obligations.RejectionsFollowPriority := by
  refine ⟨fun w s hw => runCommand_of_illegalWord hw s, ?rejected, ?completed⟩
  case rejected =>
    intro w i s c hd hearns hc
    exact (runCommand_legal w i s hd).trans (exec_of_earnsCode hearns hc)
  case completed =>
    intro w i s t hd hearns ht
    have hends := exec_of_earnsCode_ok hearns
    rwa [← runCommand_legal w i s hd, ht] at hends

/-! ### A rejection changes `STATUS.ERR` alone -/

/-- All that a command word can do: it is rejected, or no check rejects it. -/
theorem runCommand_cases (w : Word) (s : State) :
    (∃ c, runCommand w s = .next (s.setErr c)) ∨ CompletesOrSticks (runCommand w s) := by
  cases hd : decode w with
  | error x => exact .inl ⟨_, runCommand_illegal w x s hd⟩
  | ok i =>
    rw [runCommand_legal w i s hd]
    by_cases h : UnseededError i s
    · exact .inl ⟨_, exec_of_unseededError h⟩
    · exact (exec_of_not_unseededError h).imp (fun ⟨c, _, hexec⟩ => ⟨c, hexec⟩) fun ⟨_, hends⟩ => hends

@[simp] theorem entropyNext_setErr (s : State) (c : ErrCode) : (s.setErr c).entropyNext = s.entropyNext := rfl

theorem takeEntropy_setErr (s : State) (c : ErrCode) : (s.setErr c).takeEntropy = s.takeEntropy.setErr c := by
  unfold State.takeEntropy
  rw [setErr_entropy]
  split <;> rfl

/-- No command reads `ERR` and each writes it at its end; only the entropy port's two cases keep this from being
true by definition for `SEEDR`. -/
theorem exec_setErr (i : Instr) (s : State) (c : ErrCode) : exec i (s.setErr c) = exec i s := by
  cases i with
  | seedr =>
    show construct (s.setErr c).entropyNext (s.setErr c).takeEntropy = construct s.entropyNext s.takeEntropy
    rw [entropyNext_setErr, takeEntropy_setErr]
    rfl
  | _ => rfl

theorem runCommand_setErr (w : Word) (s : State) (c : ErrCode) :
    runCommand w (s.setErr c) = runCommand w s := by
  cases hd : decode w with
  | error x => rw [runCommand_illegal w x _ hd, runCommand_illegal w x s hd]; rfl
  | ok i => rw [runCommand_legal w i _ hd, runCommand_legal w i s hd, exec_setErr]

/-- Settles O42. A command word is rejected, which writes `ERR` alone, or passes its checks, and then it neither ends
with another code than `OK` nor is refused. -/
theorem rejectedCommandChangesOnlyErr : Obligations.RejectedCommandChangesOnlyErr := by
  refine fun w s => ⟨fun t ht herr => ?frame, fun c => runCommand_setErr w s c, fun r hr => ?refused⟩
  case frame =>
    obtain ⟨c, hreject⟩ | hends := runCommand_cases w s
    · obtain rfl : t = s.setErr c := Host.Outcome.next.inj (ht.symm.trans hreject)
      rfl
    · rw [ht] at hends
      exact absurd hends herr
  case refused =>
    obtain ⟨c, hreject⟩ | hends := runCommand_cases w s
    · simp [hr] at hreject
    · rwa [hr] at hends

end Sys2Proof.Proofs
end

