-- ==== Sys2Proof/Proofs/Effects.lean ====
section
/-!
PROOFS. What each command leaves of the state, said once: the value a sampler delivers, the states the families
leave, and the one inversion lemma that the frames and the invariants are read from (10_state section 4).
-/
namespace Sys2Proof.Proofs

open Sys2Proof Sys2Proof.Machine

/-! ### The binary64 samplers -/

/-- The value of a binary64 sampler at the draw `r` (42_sampler R141 to R150); `none` for every other command. -/
def sampleValue (i : Instr) (s : State) : Option (Int → F64) :=
  match i with
  | .unit => some unitOf
  | .next => some toF64
  | .nextMin => some fun r => fadd (unitOf r) (minF s)
  | .nextMax => some fun r => fmul (unitOf r) (maxF s)
  | .nextMm => some (betweenBounds s)
  | .nexti => some fun r => ffloor (toF64 r)
  | .nextiMin => some fun r => ffloor (fadd (unitOf r) (minF s))
  | .nextiMax => some fun r => ffloor (fmul (unitOf r) (maxF s))
  | .nextiMm => some fun r => ffloor (betweenBounds s r)
  | .seed | .seedr | .raw | .bytes | .long | .longMin | .longMax | .longMm => none

/-- What a command of one draw leaves of `s`, from the engine `e`, with `res` in `RES`. -/
def afterDraw (s : State) (e : Engine) (res : DWord) : State :=
  ((s.setEngine (draw e).2).setResult res false).setErr .ok

/-! ### What a command can leave -/

/-- What a construction from `seed` leaves of `s` (40_initializer R106, R107). -/
def afterSeeding (seed : Word) (s : State) : State :=
  ((s.setEngine (initState seed)).setResult (bits64 (s32 seed)) false).setErr .ok

/-- All the next states of a command, by family (10_state R35). -/
inductive CommandEffect (i : Instr) (s : State) : State → Prop
  | rejected (c : ErrCode) (hc : c ≠ .ok) (hseed : i ≠ .seed) (hseedr : i ≠ .seedr) :
      CommandEffect i s (s.setErr c)
  | seed (hi : i = .seed) : CommandEffect i s (afterSeeding (seedOperand s) s)
  | seedr (hi : i = .seedr) : CommandEffect i s (afterSeeding s.entropyNext s.takeEntropy)
  | drawn (e : Engine) (res : DWord) (hg : s.gen = .seeded e)
      (hi : i ∈ [.raw, .unit, .next, .nextMin, .nextMax, .nextMm, .nexti, .nextiMin, .nextiMax, .nextiMm]) :
      CommandEffect i s (afterDraw s e res)
  | filled (e : Engine) (hg : s.gen = .seeded e) (hi : i = .bytes) (hc : checkBytes s = none) :
      CommandEffect i s (afterBytes s e)
  | wide (e : Engine) (z : Int) (hg : s.gen = .seeded e) (hz : longResult i s e = some z) :
      CommandEffect i s (afterLong s e z)

/-- What an accepted command other than a seeding or a `BYTES` leaves of `s`, from the engine `e`: a sampler its
value, a `LONG*` its result, and `RAW` the draw itself. -/
def afterAccepted (i : Instr) (s : State) (e : Engine) : State :=
  match sampleValue i s, longResult i s e with
  | some f, _ => afterDraw s e (enc64 (f (draw e).1.toInt))
  | none, some z => afterLong s e z
  | none, none => afterDraw s e (zext64 (draw e).1)

theorem sampleWide_eq (check : Option ErrCode) (f : Int → Int) (s : State) :
    sampleWide check f s = withEngine s check fun e => .next (afterLong s e (f (wideValue e))) := by
  simp only [sampleWide, wide_eq]
  rfl

/-- The magnitude that R175 and R176 take of a remainder changes nothing: `V` is not negative. -/
theorem natAbs_natCast_emod (v : Nat) (d : Int) : (((v : Int) % d).natAbs : Int) = (v : Int) % d := by
  obtain rfl | hd := eq_or_ne d 0
  · simp
  · exact Int.natAbs_of_nonneg (Int.emod_nonneg _ hd)

/-- Each of these commands is its check behind `SEEDED`, then its one next state (60_exceptions R207, R208). -/
theorem exec_eq_afterAccepted {i : Instr} (hseed : i ≠ .seed) (hseedr : i ≠ .seedr) (hbytes : i ≠ .bytes)
    (s : State) : exec i s = withEngine s (operandCheck i s) fun e => .next (afterAccepted i s e) := by
  cases i with
  | seed => exact absurd rfl hseed
  | seedr => exact absurd rfl hseedr
  | bytes => exact absurd rfl hbytes
  | long => exact sampleWide_eq none (fun v => v) s
  | longMin => exact sampleWide_eq none (fun v => v + minL s) s
  | longMax =>
    refine (sampleWide_eq (checkLongMax s) (fun v => ((v % maxL s).natAbs : Int)) s).trans ?_
    simp only [natAbs_natCast_emod]
    rfl
  | longMm =>
    refine (sampleWide_eq (checkLongMm s) (fun v => ((v % (maxL s - minL s)).natAbs : Int) + minL s) s).trans ?_
    simp only [natAbs_natCast_emod]
    rfl
  | _ => rfl

/-- An accepted sampler on a seeded block completes with its value at the draw. -/
theorem exec_eq_afterDraw {i : Instr} {s : State} {e : Engine} {f : Int → F64} (hf : sampleValue i s = some f)
    (hg : s.gen = .seeded e) (hc : operandCheck i s = none) :
    exec i s = .next (afterDraw s e (enc64 (f (draw e).1.toInt))) := by
  have hseed : i ≠ .seed := by rintro rfl; cases hf
  have hseedr : i ≠ .seedr := by rintro rfl; cases hf
  have hbytes : i ≠ .bytes := by rintro rfl; cases hf
  rw [exec_eq_afterAccepted hseed hseedr hbytes, hc, withEngine_runs s e _ hg, afterAccepted, hf]

theorem eq_of_next {r : Result} {t u : State} (ht : r = .next t) (hu : r = .next u) : t = u :=
  Host.Outcome.next.inj (ht.symm.trans hu)

theorem afterAccepted_effect {i : Instr} {s : State} {e : Engine} (hg : s.gen = .seeded e) (hseed : i ≠ .seed)
    (hseedr : i ≠ .seedr) (hbytes : i ≠ .bytes) : CommandEffect i s (afterAccepted i s e) := by
  cases i with
  | seed => exact absurd rfl hseed
  | seedr => exact absurd rfl hseedr
  | bytes => exact absurd rfl hbytes
  | long => exact .wide e _ hg rfl
  | longMin => exact .wide e _ hg rfl
  | longMax => exact .wide e _ hg rfl
  | longMm => exact .wide e _ hg rfl
  | _ => exact .drawn e _ hg (by simp)

/-- A seeded block runs every command whose check passes. -/
theorem accepted_effect {i : Instr} {s t : State} {e : Engine} (hg : s.gen = .seeded e) (hseed : i ≠ .seed)
    (hseedr : i ≠ .seedr) (hc : operandCheck i s = none) (ht : exec i s = .next t) : CommandEffect i s t := by
  by_cases hbytes : i = .bytes
  · subst hbytes
    have hcases : execBytes s = _ := execBytes_cases s e hg hc
    by_cases hall : admitsAll s.platform (dstAddr s) (byteCount s) = true
    · rw [if_pos hall, fillBytes_engine] at hcases
      exact eq_of_next ht hcases ▸ .filled e hg rfl hc
    · rw [if_neg hall] at hcases
      cases ht.symm.trans hcases
  · rw [exec_eq_afterAccepted hseed hseedr hbytes, hc, withEngine_runs s e _ hg] at ht
    exact eq_of_next ht rfl ▸ afterAccepted_effect hg hseed hseedr hbytes

/-- The inversion lemma: a next state of a command is one of `CommandEffect`. -/
theorem exec_effect {i : Instr} {s t : State} (ht : exec i s = .next t) : CommandEffect i s t := by
  by_cases hseed : i = .seed
  · subst hseed
    exact eq_of_next ht rfl ▸ .seed rfl
  by_cases hseedr : i = .seedr
  · subst hseedr
    exact eq_of_next ht rfl ▸ .seedr rfl
  cases hg : s.gen with
  | unseeded =>
    exact eq_of_next ht (exec_of_unseededError ⟨hseed, hseedr, hg⟩) ▸ .rejected _ (by decide) hseed hseedr
  | seeded e =>
    have hu : ¬ UnseededError i s := fun ⟨_, _, hgen⟩ => by simp [hg] at hgen
    obtain ⟨c, hc, hexec⟩ | ⟨hc, -⟩ := exec_of_not_unseededError hu
    · refine eq_of_next ht hexec ▸ .rejected c ?_ hseed hseedr
      obtain rfl | rfl | rfl := operandCheck_codes hc <;> decide
    · exact accepted_effect hg hseed hseedr hc ht

/-! ### What a command word can do -/

/-- A command word answers what its command does, or is rejected as illegal (60_exceptions R202). -/
theorem runCommand_effect {w : Word} {s t : State} (ht : runCommand w s = .next t) :
    (∃ i, decode w = .ok i ∧ CommandEffect i s t) ∨ (∃ x, decode w = .error x ∧ t = s.setErr .illegal) := by
  cases hd : decode w with
  | error x => exact .inr ⟨x, rfl, eq_of_next ht (runCommand_illegal w x s hd)⟩
  | ok i => exact .inl ⟨i, rfl, exec_effect ((runCommand_legal w i s hd).symm.trans ht)⟩

end Sys2Proof.Proofs
end

