-- ==== Sys2Proof/Proofs/Frames.lean ====
section
/-!
PROOFS. What each command writes and what it leaves alone (10_state R23, R33, R35; 20_memory R40; 70_reset R236),
and the draws of a run of commands (41_engine R126). Each is read off the effects of a command.
-/
namespace Sys2Proof.Proofs

open Sys2Proof Sys2Proof.Machine

/-! ### Fields that no command writes -/

/-- What 70_reset R236 keeps, and with it the model's own fields. -/
structure SameOutside (s t : State) : Prop where
  opa : t.opa = s.opa
  opb : t.opb = s.opb
  platform : t.platform = s.platform
  pending : t.pending = s.pending
  readLog : t.readLog = s.readLog

theorem CommandEffect.sameOutside {i : Instr} {s t : State} (h : CommandEffect i s t) : SameOutside s t := by
  cases h with
  | seedr => constructor <;> simp [afterSeeding]
  | _ => exact ⟨rfl, rfl, rfl, rfl, rfl⟩

theorem runCommand_sameOutside {w : Word} {s t : State} (ht : runCommand w s = .next t) : SameOutside s t := by
  obtain ⟨i, -, heffect⟩ | ⟨x, -, rfl⟩ := runCommand_effect ht
  · exact heffect.sameOutside
  · exact ⟨rfl, rfl, rfl, rfl, rfl⟩

/-- Settles O43. No effect of a command touches these fields; `SEEDR` takes from the entropy port alone. -/
theorem operandsPersist : Obligations.OperandsPersist := by
  intro w s t ht
  obtain ⟨hopa, hopb, hplatform, hpending, hreadLog⟩ := runCommand_sameOutside ht
  exact ⟨hopa, hopb, hplatform, hpending, hreadLog⟩

/-! ### The DMA space, the entropy port, `SEEDED` -/

theorem CommandEffect.dma_eq {i : Instr} {s t : State} (h : CommandEffect i s t) (hi : i ≠ .bytes) :
    t.dma = s.dma := by
  cases h with
  | seedr => simp [afterSeeding]
  | filled _ _ hbytes => exact absurd hbytes hi
  | _ => rfl

/-- Settles O45. A fill is the one effect that writes the DMA space. -/
theorem onlyBytesTouchesDma : Obligations.OnlyBytesTouchesDma := by
  intro w s t hw ht
  obtain ⟨i, hd, heffect⟩ | ⟨x, -, rfl⟩ := runCommand_effect ht
  · exact heffect.dma_eq fun hi => hw (hi ▸ hd)
  · rfl

theorem CommandEffect.entropy_eq {i : Instr} {s t : State} (h : CommandEffect i s t) (hi : i ≠ .seedr) :
    t.entropy = s.entropy ∧ t.freeTick = s.freeTick := by
  cases h with
  | seedr hseedr => exact absurd hseedr hi
  | _ => exact ⟨rfl, rfl⟩

/-- One word, placed or free, and no more (10_state R33). -/
theorem takeEntropy_entropy (s : State) :
    s.takeEntropy.entropy = s.entropy.tail ∧
      s.takeEntropy.freeTick = if s.entropy = [] then s.freeTick + 1 else s.freeTick := by
  cases h : s.entropy with
  | nil => simp [takeEntropy_free s h, h]
  | cons w rest => simp [takeEntropy_placed s w rest h]

/-- Settles O46. `SEEDR` runs on the port after one word has been taken; no other effect touches it. -/
theorem onlySeedrTakesEntropy : Obligations.OnlySeedrTakesEntropy := by
  intro w s t ht
  constructor
  · intro hw
    obtain ⟨i, hd, heffect⟩ | ⟨x, -, rfl⟩ := runCommand_effect ht
    · exact heffect.entropy_eq fun hi => hw (hi ▸ hd)
    · exact ⟨rfl, rfl⟩
  · intro hw
    obtain rfl := eq_of_next ht (runCommand_legal w .seedr s hw)
    exact takeEntropy_entropy s

/-- `SEEDED` after a command: set by the two seedings, else as before (10_state R23). -/
theorem CommandEffect.isSeeded_iff {i : Instr} {s t : State} (h : CommandEffect i s t) :
    t.isSeeded = true ↔ s.isSeeded = true ∨ i = .seed ∨ i = .seedr := by
  cases h with
  | rejected c _ hseed hseedr => simp [hseed, hseedr]
  | seed hi => simp [afterSeeding, hi]
  | seedr hi => simp [afterSeeding, hi]
  | drawn e res hg => simp [afterDraw, (isSeeded_eq_true s).mpr ⟨e, hg⟩]
  | filled e hg => simp [afterBytes, (isSeeded_eq_true s).mpr ⟨e, hg⟩]
  | wide e z hg => simp [afterLong, (isSeeded_eq_true s).mpr ⟨e, hg⟩]

/-- Settles O47. An illegal word leaves `SEEDED` alone, and the effects of a legal one say when it is set. -/
theorem seededSetBySeedingOnly : Obligations.SeededSetBySeedingOnly := by
  intro w s t ht
  obtain ⟨i, hd, heffect⟩ | ⟨x, hd, rfl⟩ := runCommand_effect ht
  · rw [heffect.isSeeded_iff, hd]
    simp
  · rw [hd]
    simp

/-! ### The draws of a command -/

theorem longResult_drawCount {i : Instr} {s : State} {e : Engine} {z : Int} (hz : longResult i s e = some z) :
    drawCount i s = 8 := by
  cases i with
  | long | longMin | longMax | longMm => rfl
  | _ => cases hz

/-- A completed command other than a seeding leaves the engine after its own draws, a rejected one makes none
(10_state R35, 60_exceptions R208). -/
theorem CommandEffect.gen_eq {i : Instr} {s t : State} {e : Engine} (h : CommandEffect i s t)
    (hg : s.gen = .seeded e) (hseed : i ≠ .seed) (hseedr : i ≠ .seedr) :
    t.gen = .seeded (drawMany (if t.err = .ok then drawCount i s else 0) e) := by
  cases h with
  | rejected c hc =>
    have herr : (s.setErr c).err ≠ .ok := hc
    rw [if_neg herr]
    exact hg
  | seed hi => exact absurd hi hseed
  | seedr hi => exact absurd hi hseedr
  | drawn e' res hg' hi =>
    obtain rfl : e = e' := Generator.seeded.inj (hg.symm.trans hg')
    have hone : drawCount i s = 1 := by fin_cases hi <;> rfl
    rw [if_pos (by rfl), hone]
    rfl
  | filled e' hg' hi =>
    obtain rfl : e = e' := Generator.seeded.inj (hg.symm.trans hg')
    rw [if_pos (by rfl), afterBytes_gen, byteCount_eq_mod, hi]
    rfl
  | wide e' z hg' hz =>
    rw [if_pos (by rfl), longResult_drawCount hz, Generator.seeded.inj (hg.symm.trans hg')]
    rfl

theorem drawMany_add (a b : Nat) (e : Engine) : drawMany (a + b) e = drawMany b (drawMany a e) := by
  induction b with
  | zero => rfl
  | succ b ih => rw [← Nat.add_assoc, drawMany_succ, drawMany_succ, ih]

/-- A run of commands without a seeding leaves the engine after the draws of its completed commands. -/
theorem runCommands_gen {cs : List Instr} {s t : State} {e : Engine} (hg : s.gen = .seeded e)
    (hcs : ∀ i ∈ cs, i ≠ .seed ∧ i ≠ .seedr) (ht : runCommands cs s = .next t) :
    t.gen = .seeded (drawMany (totalDraws cs s) e) := by
  induction cs generalizing s e with
  | nil =>
    obtain rfl := Host.Outcome.next.inj ht
    exact hg
  | cons i rest ih =>
    obtain ⟨hi, hrest⟩ := List.forall_mem_cons.mp hcs
    cases hexec : exec i s with
    | next u =>
      have hu := (exec_effect hexec).gen_eq hg hi.1 hi.2
      simp only [runCommands, hexec] at ht
      simp only [totalDraws, hexec, drawMany_add]
      exact ih hu hrest ht
    | fault f => simp [runCommands, hexec] at ht
    | refused r => simp [runCommands, hexec] at ht

/-- Settles O48. Both clauses by `runCommands_gen`: the engine depends on the start and the number of draws. -/
theorem drawsIndependentOfGrouping : Obligations.DrawsIndependentOfGrouping := by
  refine ⟨fun cs s t e hg hcs ht => runCommands_gen hg hcs ht, ?_⟩
  intro cs cs' s s' t t' seed hg hg' hcs hcs' ht ht' htotal
  rw [runCommands_gen hg hcs ht, runCommands_gen hg' hcs' ht', htotal]

/-! ### The matrix of what each command writes -/

/-- `RES` after a construction is the seed, sign-extended (30_encoding R65). -/
theorem bits64_s32 (seed : Word) : bits64 (s32 seed) = seed.signExtend 64 := rfl

section Completed

variable {i : Instr} {s t : State} (h : CommandEffect i s t) (hok : t.err = .ok)

include h hok

theorem CommandEffect.seeding (hi : i = .seed ∨ i = .seedr) :
    ∃ seed : Word, t.gen = .seeded (initState seed) ∧ t.res = seed.signExtend 64 ∧ t.wrap = false := by
  cases h with
  | rejected c hc => exact absurd hok hc
  | seed => exact ⟨_, rfl, bits64_s32 _, rfl⟩
  | seedr => exact ⟨_, rfl, bits64_s32 _, rfl⟩
  | drawn _ _ _ hmem => obtain rfl | rfl := hi <;> simp at hmem
  | filled _ _ hbytes => subst hbytes; simp at hi
  | wide _ _ _ hz => obtain rfl | rfl := hi <;> cases hz

theorem CommandEffect.exists_engine (hseed : i ≠ .seed) (hseedr : i ≠ .seedr) :
    ∃ e, s.gen = .seeded e ∧ t.gen = .seeded (drawMany (drawCount i s) e) := by
  obtain ⟨e, hg⟩ : ∃ e, s.gen = .seeded e := by
    cases h with
    | rejected c hc => exact absurd hok hc
    | seed hi => exact absurd hi hseed
    | seedr hi => exact absurd hi hseedr
    | drawn e _ hg => exact ⟨e, hg⟩
    | filled e hg => exact ⟨e, hg⟩
    | wide e _ hg => exact ⟨e, hg⟩
  have hgen := h.gen_eq hg hseed hseedr
  rw [if_pos hok] at hgen
  exact ⟨e, hg, hgen⟩

theorem CommandEffect.bytes_result (hi : i = .bytes) : t.res = s.res ∧ t.wrap = s.wrap := by
  subst hi
  cases h with
  | rejected c hc => exact absurd hok hc
  | seed hi => cases hi
  | seedr hi => cases hi
  | drawn _ _ _ hmem => simp at hmem
  | filled => exact ⟨rfl, rfl⟩
  | wide _ _ _ hz => cases hz

theorem CommandEffect.long_result {e : Engine} {z : Int} (hg : s.gen = .seeded e)
    (hz : longResult i s e = some z) : t.res = bits64 z ∧ t.wrap = wrapOf z := by
  cases h with
  | rejected c hc => exact absurd hok hc
  | seed hi => subst hi; cases hz
  | seedr hi => subst hi; cases hz
  | drawn _ _ _ hmem => fin_cases hmem <;> cases hz
  | filled _ _ hi => subst hi; cases hz
  | wide e' z' hg' hz' =>
    obtain rfl : e = e' := Generator.seeded.inj (hg.symm.trans hg')
    obtain rfl : z = z' := Option.some.inj (hz.symm.trans hz')
    exact ⟨rfl, rfl⟩

theorem CommandEffect.drawn_wrap
    (hmem : i ∈ [.raw, .unit, .next, .nextMin, .nextMax, .nextMm, .nexti, .nextiMin, .nextiMax, .nextiMm]) :
    t.wrap = false := by
  cases h with
  | rejected c hc => exact absurd hok hc
  | seed => rfl
  | seedr => rfl
  | drawn => rfl
  | filled _ _ hi => subst hi; simp at hmem
  | wide _ _ _ hz => fin_cases hmem <;> cases hz

end Completed

/-- A byte outside the range of a `BYTES` is as it was (20_memory R46). -/
theorem CommandEffect.read_dma {i : Instr} {s t : State} (h : CommandEffect i s t) {a : Nat}
    (ha : i = .bytes → a < s.opa.toNat ∨ s.opa.toNat + s.opb.toNat % 4294967296 ≤ a) :
    Memory.read t.dma a = Memory.read s.dma a := by
  by_cases hi : i = .bytes
  · cases h with
    | filled e =>
      exact Memory.read_fillBytes_outside _ _ _ _ _ (byteCount_eq_mod s ▸ ha hi)
    | seedr => simp [afterSeeding]
    | _ => rfl
  · rw [h.dma_eq hi]

/-- A rejection changes `ERR` alone. -/
theorem CommandEffect.eq_of_err {i : Instr} {s t : State} (h : CommandEffect i s t) (herr : t.err ≠ .ok) :
    t = { s with err := t.err } := by
  cases h with
  | rejected => rfl
  | _ => exact absurd rfl herr

/-- Settles O44. One lemma per line of the matrix. -/
theorem commandEffectsFollowMatrix : Obligations.CommandEffectsFollowMatrix := by
  intro i s t ht
  have h := exec_effect ht
  refine ⟨h.eq_of_err, fun hok => ⟨h.seeding hok, h.exists_engine hok, h.bytes_result hok, ?_,
    h.drawn_wrap hok, fun a ha => h.read_dma ha⟩⟩
  intro e z hg hz
  obtain ⟨hres, hwrap⟩ := h.long_result hok hg hz
  exact ⟨hres, hwrap, hwrap ▸ wrapOf_eq_true z⟩

end Sys2Proof.Proofs
end

