-- ==== Sys2Proof/Proofs/Completion.lean ====
section
/-!
PROOFS. The next state of each command that completes, over the draw of 41_engine R120, and the one command that
can be stuck (20_memory R48).
-/
namespace Sys2Proof.Proofs

open Sys2Proof Sys2Proof.Machine

/-! ### Seeding -/

/-- Settles O18. `SEED` is a construction from the low half of `OPA`. -/
theorem seedCompletes : Obligations.SeedCompletes := by
  intro s
  have hconstruct := construct_eq (seedOperand s) s
  rwa [bits64_s32] at hconstruct

/-- Settles O19. `SEEDR` is a construction from the word the port delivers, on the port after it. -/
theorem seedrTakesOneWord : Obligations.SeedrTakesOneWord := by
  have hseedr (s : State) : exec .seedr s = .next (afterSeeding s.entropyNext s.takeEntropy) := rfl
  constructor
  · intro s e rest h
    obtain ⟨hword, hport⟩ := takeEntropy_placed s e rest h
    rw [hseedr, hword, hport, afterSeeding, bits64_s32]
    rfl
  · intro s h
    obtain ⟨hword, hport⟩ := takeEntropy_free s h
    rw [hseedr, hword, hport, afterSeeding, bits64_s32]
    rfl

/-- `ii` after `i` steps (40_initializer R102). -/
theorem nextScrambleIndex_iterate (i : Nat) : nextScrambleIndex^[i] 0 = 21 * i % 55 := by
  induction i with
  | zero => rfl
  | succ i ih => rw [Function.iterate_succ_apply', ih, nextScrambleIndex_mul]

/-- Settles O16. 21 is its own inverse modulo 55, so the step that reaches `j` is `21·j mod 55`. -/
theorem scrambleVisitsEachSlotOnce : Obligations.ScrambleVisitsEachSlotOnce := by
  refine ⟨fun i _ => nextScrambleIndex_iterate i, fun j h1 h54 => ?_⟩
  simp only [nextScrambleIndex_iterate]
  exact ⟨21 * j % 55, by omega, fun i hi => by omega⟩

/-! ### One draw -/

/-- Settles O12. Between residues a draw is one corrected subtraction, and that is the residue of the difference. -/
theorem drawIsDifferenceModuloM : Obligations.DrawIsDifferenceModuloM := by
  rintro e ⟨hslots, -⟩
  have ha := isResidue_slot hslots e.ca
  have hb := isResidue_slot hslots e.cb
  have hca : (advance e.ca).val = cursorAfter e.ca.val := advance_val e.ca
  have hcb : (advance e.cb).val = cursorAfter e.cb.val := advance_val e.cb
  rw [draw_value, drawValue_of_residues ha hb, ha.residueOf.sub hb.residueOf, hca, hcb]
  rfl

/-- Settles O21. Both make the one draw; `RAW` delivers its pattern, `UNIT` its product with `CINV`. -/
theorem rawAndUnitComplete : Obligations.RawAndUnitComplete := by
  intro s e hg
  refine ⟨_, _, drawFollowsIntegerRule e, ?raw, execUnit_completes hg⟩
  rw [BitVec.ofInt_toInt]
  exact execRaw_completes hg

/-- Settles O22. Each shape's checks are the hypotheses, and each delivers its formula at the one draw. -/
theorem nextShapesComplete : Obligations.NextShapesComplete := by
  intro s e hg
  refine ⟨_, _, drawFollowsIntegerRule e, execNext_completes hg, fun hmin => ?_, fun hmax hpos => ?_,
    fun hmin hmax hlt hfin => ?_⟩
  · exact exec_eq_afterDraw (i := .nextMin) rfl hg (checkF_min_passes s hmin)
  · exact exec_eq_afterDraw (i := .nextMax) rfl hg (checkF_max_passes s hmax hpos)
  · exact exec_eq_afterDraw (i := .nextMm) rfl hg (checkF_both_passes s hmin hmax hlt hfin)

/-- Settles O23. As for `NEXT`, with the floor of each formula. -/
theorem nextiShapesComplete : Obligations.NextiShapesComplete := by
  intro s e hg
  refine ⟨_, _, drawFollowsIntegerRule e, ?_, fun hmin => ?_, fun hmax hpos => ?_,
    fun hmin hmax hlt hfin => ?_⟩
  · exact exec_eq_afterDraw (i := .nexti) rfl hg (checkF_none s)
  · exact exec_eq_afterDraw (i := .nextiMin) rfl hg (checkF_min_passes s hmin)
  · exact exec_eq_afterDraw (i := .nextiMax) rfl hg (checkF_max_passes s hmax hpos)
  · exact exec_eq_afterDraw (i := .nextiMm) rfl hg (checkF_both_passes s hmin hmax hlt hfin)

/-! ### The wide sampler -/

theorem wrapOf_eq_false {z : Int} (hlo : 0 ≤ z) (hhi : z < 18446744073709551616) : wrapOf z = false := by
  simp only [wrapOf, Bool.or_eq_false_iff, decide_eq_false_iff_not]
  omega

/-- Settles O27. Each completes with its exact result; `WRAP` can be set only where the result can leave
[0, 2^64). -/
theorem longShapesComplete : Obligations.LongShapesComplete := by
  intro s e hg
  have hwide := wideValue_lt e
  have hmaxHi : s.opb.toInt < 9223372036854775808 := BitVec.toInt_lt
  refine ⟨?long, ?longMin, fun hmax => ?longMax, fun hlt => ?longMm⟩
  case long =>
    have hwrap : wrapOf (wideValue e) = false := wrapOf_eq_false (by omega) (by omega)
    rw [exec_eq_afterLong (longResult_long s e) (by simp [RangeError]) hg, afterLong, hwrap, bits64,
      BitVec.ofInt_natCast]
    rfl
  case longMin =>
    rw [exec_eq_afterLong (longResult_longMin s e) (by simp [RangeError]) hg, afterLong, wrapOf, Bool.decide_or]
    rfl
  case longMax =>
    have hlo := Int.emod_nonneg (wideValue e : Int) hmax.ne'
    have hhi := Int.emod_lt_of_pos (wideValue e : Int) hmax
    have hwrap : wrapOf ((wideValue e : Int) % s.opb.toInt) = false := wrapOf_eq_false hlo (by omega)
    rw [exec_eq_afterLong (longResult_longMax s e) (not_rangeError_longMax.mpr hmax) hg, afterLong, hwrap]
    rfl
  case longMm =>
    obtain ⟨-, hhi⟩ := emod_add_mem_range hlt (wideValue e)
    have hwrap : wrapOf ((wideValue e : Int) % (s.opb.toInt - s.opa.toInt) + s.opa.toInt) =
        decide ((wideValue e : Int) % (s.opb.toInt - s.opa.toInt) + s.opa.toInt < 0) := by
      rw [wrapOf, decide_eq_false (p := _ ≤ _) (by omega), Bool.or_false]
    rw [exec_eq_afterLong (longResult_longMm s e) (not_rangeError_longMm.mpr hlt) hg, afterLong, hwrap]
    rfl

/-! ### The byte fill -/

/-- `Byte(r)` is `r mod 256` (43_wide R170). -/
theorem byteOf_eq_mod (r : Word) : byteOf r = BitVec.ofInt 8 (r.toInt % 256) := by
  apply BitVec.eq_of_toNat_eq
  have hcond := BitVec.toInt_eq_toNat_cond r
  have hlow : (byteOf r).toNat = r.toNat % 256 := by simp [byteOf]
  rw [hlow, BitVec.toNat_ofInt]
  omega

/-- The range of a `BYTES` lies in the DMA space (20_memory R47). -/
theorem checkBytes_none_iff (s : State) :
    checkBytes s = none ↔ s.opa.toNat < 2 ^ s.platform.addrW ∧
      s.opa.toNat + s.opb.toNat % 4294967296 ≤ 2 ^ s.platform.addrW := by
  rw [checkBytes_none, byteCount_eq_mod]
  rfl

/-- Settles O24. The fill writes draw `k` at `dst + k` and reads as before outside its range. -/
theorem bytesFillsItsRange : Obligations.BytesFillsItsRange := by
  intro s e hg hdst hend hadmit
  rw [← byteCount_eq_mod] at hend hadmit ⊢
  have hcheck : checkBytes s = none := (checkBytes_none s).mpr ⟨hdst, hend⟩
  refine ⟨afterBytes s e, execBytes_eq_afterBytes hg hcheck hadmit, rfl, fun k hk => ?inside,
    fun a ha => ?outside⟩
  case inside => rw [read_afterBytes hk, byteOf_eq_mod]
  case outside => exact Memory.read_fillBytes_outside _ _ _ e _ ha

/-! ### The stuck command -/

theorem withEngine_ne_fault {s : State} {check : Option ErrCode} {body : Engine → Result} {f : Fault}
    (hbody : ∀ e, body e ≠ .fault f) : withEngine s check body ≠ .fault f := by
  obtain ⟨-, h⟩ | ⟨_, _, -, -, h⟩ | ⟨e, -, -, h⟩ := withEngine_cases s check body
  · simp [h]
  · simp [h]
  · exact h ▸ hbody e

theorem exec_ne_fault {i : Instr} (hbytes : i ≠ .bytes) (s : State) (f : Fault) : exec i s ≠ .fault f := by
  by_cases hseed : i = .seed
  · subst hseed; exact nofun
  by_cases hseedr : i = .seedr
  · subst hseedr; exact nofun
  rw [exec_eq_afterAccepted hseed hseedr hbytes]
  exact withEngine_ne_fault fun e => nofun

/-- `BYTES` is stuck exactly where its check passes and a byte of its range is not admitted. -/
theorem execBytes_fault_iff (s : State) (f : Fault) :
    execBytes s = .fault f ↔ s.gen ≠ .unseeded ∧ checkBytes s = none ∧
      admitsAll s.platform (dstAddr s) (byteCount s) = false := by
  cases hg : s.gen with
  | unseeded => simp [execBytes, withEngine_unseeded s _ _ hg]
  | seeded e =>
    cases hc : checkBytes s with
    | some c => simp [execBytes_rejected s e c hg hc]
    | none =>
      rw [execBytes_cases s e hg hc]
      cases f
      split <;> simp [*]

/-- Settles O26. `BYTES` by the branches of its fill; no other command has a branch that faults. -/
theorem stuckExactlyWhenNotAdmitted : Obligations.StuckExactlyWhenNotAdmitted := by
  intro i s f
  by_cases hi : i = .bytes
  · subst hi
    have hadmit : admitsAll s.platform (dstAddr s) (byteCount s) = false ↔
        ∃ k, k < s.opb.toNat % 4294967296 ∧ admits s.platform (s.opa.toNat + k) = false := by
      rw [← Bool.not_eq_true, admitsAll_iff, byteCount_eq_mod]
      simp [dstAddr, u64]
    have hexec : exec .bytes s = execBytes s := rfl
    rw [hexec, execBytes_fault_iff, checkBytes_none_iff, hadmit, and_assoc]
    simp
  · simp [exec_ne_fault hi, hi]

end Sys2Proof.Proofs
end

