-- ==== Sys2Proof/Proofs/Port.lean ====
section
/-!
PROOFS. The register port and the delivery of events: resets, reads and writes of the map, the words of `CMD`
(20_memory R41 to R49, 10_state R29, R30, 70_reset R230, R232).
-/
namespace Sys2Proof.Proofs

open Sys2Proof Sys2Proof.Machine

/-! ### Command words -/

/-- Settles O7. The fields cover the word, and each command has fields of its own. -/
theorem decodeExactlyInvertsEncode : Obligations.DecodeExactlyInvertsEncode := decode_eq_ok_iff

/-- Settles O9. Each word is the encoding of its command. -/
theorem writtenOutWordsDecode : Obligations.WrittenOutWordsDecode := by
  simp only [Obligations.WrittenOutWordsDecode, decode_eq_ok_iff]
  decide

/-! ### Events that are no access -/

/-- Settles O4. The empty list is the first case of the delivery. -/
theorem idleBlockWaits : Obligations.IdleBlockWaits := step_idle

/-- Settles O2. `resetBlock` writes the block's own fields (10_state R31). -/
theorem resetInputClearsBlock : Obligations.ResetInputClearsBlock := step_reset

/-! ### Accesses of the port -/

/-- Settles O54. An access outside the window is refused, which no reset aborts. -/
theorem accessOutsideWindowRefused : Obligations.AccessOutsideWindowRefused := by
  intro s a rest hp hout
  have hwindow : a.inWindow s.platform.regBase = false := by
    simp only [Access.inWindow, Bool.and_eq_false_iff, decide_eq_false_iff_not]
    omega
  have hrefused : busAccess a (s.setPending rest) = .refused .outsideWindow := by simp [busAccess, hwindow]
  rw [step_access_of_not_stuck s a rest hp (by simp [hrefused]), hrefused]

section Aligned

variable (s : State) {o : Nat} (ho : o < 64) (halign : o % 4 = 0)

include ho halign

theorem busAccess_read :
    busAccess { kind := .read, addr := s.platform.regBase + o, size := 4 } s = .next (s.logRead (portRead s o)) := by
  simp [busAccess, Access.inWindow, Access.accepted, ho, halign]

theorem busAccess_write (v : Word) :
    busAccess { kind := .write v, addr := s.platform.regBase + o, size := 4 } s = portWrite s o v := by
  simp [busAccess, Access.inWindow, Access.accepted, ho, halign]

/-- The offsets of the map: the eight named registers and the reserved rest (20_memory R41). -/
theorem offset_cases : o = 0 ∨ o = 4 ∨ o = 8 ∨ o = 12 ∨ o = 16 ∨ o = 20 ∨ o = 24 ∨ o = 28 ∨ 32 ≤ o := by omega

end Aligned

theorem regAt_reserved {o : Nat} (h : 32 ≤ o) : regAt o = none := by
  unfold regAt
  split
  case h_9 => rfl
  all_goals omega

/-! ### The words a read returns -/

theorem loHalf_eq_ofNat (x : DWord) : loHalf x = BitVec.ofNat 32 (x.toNat % 4294967296) := by
  apply BitVec.eq_of_toNat_eq
  simp [loHalf]

theorem hiHalf_eq_ofNat (x : DWord) : hiHalf x = BitVec.ofNat 32 (x.toNat / 4294967296) := by
  apply BitVec.eq_of_toNat_eq
  simp [hiHalf, Nat.shiftRight_eq_div_pow]

/-- A word of the fields of `STATUS`, as a number (10_state R29). -/
theorem statusFields_eq_ofNat : ∀ (c : BitVec 4) (wrap seeded : Bool),
    0#24 ++ c ++ 0#2 ++ BitVec.ofBool wrap ++ BitVec.ofBool seeded =
      BitVec.ofNat 32 (seeded.toNat + 2 * wrap.toNat + 16 * c.toNat) := by
  decide

theorem statusWord_eq_ofNat (s : State) :
    statusWord s = BitVec.ofNat 32 (s.isSeeded.toNat + 2 * s.wrap.toNat + 16 * (errNumber s.err).toNat) :=
  statusFields_eq_ofNat _ _ _

theorem portRead_eq_mapValue (s : State) {o : Nat} (ho : o < 64) (halign : o % 4 = 0) :
    portRead s o = BitVec.ofNat 32 (mapValue s o) := by
  obtain rfl | rfl | rfl | rfl | rfl | rfl | rfl | rfl | hres := offset_cases ho halign
  · rfl
  · exact statusWord_eq_ofNat s
  · exact loHalf_eq_ofNat s.opa
  · exact hiHalf_eq_ofNat s.opa
  · exact loHalf_eq_ofNat s.opb
  · exact hiHalf_eq_ofNat s.opb
  · exact loHalf_eq_ofNat s.res
  · exact hiHalf_eq_ofNat s.res
  · have hzero : mapValue s o = 0 := by
      unfold mapValue
      repeat rw [if_neg (by omega)]
    rw [portRead, regAt_reserved hres, hzero]

/-- Each field is read back from the word put together of them. -/
theorem statusFields_read : ∀ (c : BitVec 4) (wrap seeded : Bool),
    (0#24 ++ c ++ 0#2 ++ BitVec.ofBool wrap ++ BitVec.ofBool seeded).getLsbD 0 = seeded ∧
    (0#24 ++ c ++ 0#2 ++ BitVec.ofBool wrap ++ BitVec.ofBool seeded).getLsbD 1 = wrap ∧
    (0#24 ++ c ++ 0#2 ++ BitVec.ofBool wrap ++ BitVec.ofBool seeded).extractLsb' 2 2 = 0#2 ∧
    (0#24 ++ c ++ 0#2 ++ BitVec.ofBool wrap ++ BitVec.ofBool seeded).extractLsb' 4 4 = c ∧
    (0#24 ++ c ++ 0#2 ++ BitVec.ofBool wrap ++ BitVec.ofBool seeded).extractLsb' 8 24 = 0#24 := by
  decide

/-- The codes 6 to 15 are never written (60_exceptions R201). -/
theorem errNumber_le (c : ErrCode) : (errNumber c).toNat ≤ 5 := by cases c <;> decide

/-- Settles O52. `STATUS` is put together of its fields, each of which is read back. -/
theorem statusWordLayout : Obligations.StatusWordLayout := by
  intro s
  obtain ⟨hseeded, hwrap, hlow, herr, hhigh⟩ := statusFields_read (errNumber s.err) s.wrap s.isSeeded
  exact ⟨hseeded, hwrap, hlow, herr, hhigh, errNumber_le s.err, rfl, rfl, rfl, rfl, rfl, rfl⟩

/-! ### The halves a write replaces -/

theorem ofHalves_eq_ofNat (hi lo : Word) :
    ofHalves hi lo = BitVec.ofNat 64 (hi.toNat * 4294967296 + lo.toNat) := by
  apply BitVec.eq_of_toNat_eq
  have hlo := lo.isLt
  have hhi := hi.isLt
  rw [ofHalves, BitVec.toNat_append, ← Nat.shiftLeft_add_eq_or_of_lt hlo, Nat.shiftLeft_eq, BitVec.toNat_ofNat]
  omega

theorem toNat_loHalf (x : DWord) : (loHalf x).toNat = x.toNat % 4294967296 := by
  rw [loHalf_eq_ofNat, BitVec.toNat_ofNat]
  omega

theorem toNat_hiHalf (x : DWord) : (hiHalf x).toNat = x.toNat / 4294967296 := by
  have hx := x.isLt
  rw [hiHalf_eq_ofNat, BitVec.toNat_ofNat]
  omega

theorem ofHalves_hiHalf (x : DWord) (v : Word) :
    ofHalves (hiHalf x) v = BitVec.ofNat 64 (x.toNat / 4294967296 * 4294967296 + v.toNat) := by
  rw [ofHalves_eq_ofNat, toNat_hiHalf]

theorem ofHalves_loHalf (x : DWord) (v : Word) :
    ofHalves v (loHalf x) = BitVec.ofNat 64 (v.toNat * 4294967296 + x.toNat % 4294967296) := by
  rw [ofHalves_eq_ofNat, toNat_loHalf]

/-- `OPA` after a write of `v` to the offset `o` (20_memory R41, R43). -/
def opaAfterWrite (s : State) (o : Nat) (v : Word) : DWord :=
  if o = 8 then BitVec.ofNat 64 (s.opa.toNat / 4294967296 * 4294967296 + v.toNat)
  else if o = 12 then BitVec.ofNat 64 (v.toNat * 4294967296 + s.opa.toNat % 4294967296)
  else s.opa

/-- `OPB` after a write of `v` to the offset `o` (20_memory R41, R43). -/
def opbAfterWrite (s : State) (o : Nat) (v : Word) : DWord :=
  if o = 16 then BitVec.ofNat 64 (s.opb.toNat / 4294967296 * 4294967296 + v.toNat)
  else if o = 20 then BitVec.ofNat 64 (v.toNat * 4294967296 + s.opb.toNat % 4294967296)
  else s.opb

theorem opaAfterWrite_kept (s : State) {o : Nat} (h8 : o ≠ 8) (h12 : o ≠ 12) (v : Word) :
    opaAfterWrite s o v = s.opa := by
  rw [opaAfterWrite, if_neg h8, if_neg h12]

theorem opbAfterWrite_kept (s : State) {o : Nat} (h16 : o ≠ 16) (h20 : o ≠ 20) (v : Word) :
    opbAfterWrite s o v = s.opb := by
  rw [opbAfterWrite, if_neg h16, if_neg h20]

/-- A write changes the half it names, and one to another offset than `CMD` nothing (20_memory R49). -/
theorem portWrite_eq (s : State) {o : Nat} (ho : o < 64) (halign : o % 4 = 0) (hcmd : o ≠ 0) (v : Word) :
    portWrite s o v = .next { s with opa := opaAfterWrite s o v, opb := opbAfterWrite s o v } := by
  have hkept (h8 : o ≠ 8) (h12 : o ≠ 12) (h16 : o ≠ 16) (h20 : o ≠ 20) :
      { s with opa := opaAfterWrite s o v, opb := opbAfterWrite s o v } = s := by
    rw [opaAfterWrite_kept s h8 h12, opbAfterWrite_kept s h16 h20]
  obtain rfl | rfl | rfl | rfl | rfl | rfl | rfl | rfl | hres := offset_cases ho halign
  · exact absurd rfl hcmd
  · rw [hkept (by decide) (by decide) (by decide) (by decide)]; rfl
  · rw [opbAfterWrite_kept s (by decide) (by decide), opaAfterWrite, if_pos rfl, ← ofHalves_hiHalf]; rfl
  · rw [opbAfterWrite_kept s (by decide) (by decide), opaAfterWrite, if_neg (by decide), if_pos rfl,
      ← ofHalves_loHalf]; rfl
  · rw [opaAfterWrite_kept s (by decide) (by decide), opbAfterWrite, if_pos rfl, ← ofHalves_hiHalf]; rfl
  · rw [opaAfterWrite_kept s (by decide) (by decide), opbAfterWrite, if_neg (by decide), if_pos rfl,
      ← ofHalves_loHalf]; rfl
  · rw [hkept (by decide) (by decide) (by decide) (by decide)]; rfl
  · rw [hkept (by decide) (by decide) (by decide) (by decide)]; rfl
  · rw [hkept (by omega) (by omega) (by omega) (by omega), portWrite, regAt_reserved hres]

/-- Settles O51. Neither a read nor a write of an operand can be stuck, so the step is the access. -/
theorem portAccessesFollowMap : Obligations.PortAccessesFollowMap := by
  intro s o rest ho halign
  refine ⟨fun hp => ?read, fun v hcmd hp => ?write⟩
  case read =>
    have haccess := busAccess_read (s.setPending rest) ho halign
    rw [portRead_eq_mapValue _ ho halign] at haccess
    rw [step_access_of_not_stuck s _ rest hp (by rw [← setPending_platform s rest, haccess]; exact nofun)]
    exact haccess
  case write =>
    have haccess := busAccess_write (s.setPending rest) ho halign v
    rw [portWrite_eq _ ho halign hcmd] at haccess
    rw [step_access_of_not_stuck s _ rest hp (by rw [← setPending_platform s rest, haccess]; exact nofun)]
    exact haccess

/-! ### The word of the next command -/

/-- Settles O5. A read of `CMD` is not stuck, and a command that is, is stuck with no reset behind it. -/
theorem stepRunsDecodedCommand : Obligations.StepRunsDecodedCommand := by
  intro s rest
  refine ⟨fun w i hp hd hcase => ?legal, fun w x hp hd => ?illegal, fun hp => ?read⟩
  case legal =>
    have hrun : runCommand w (s.setPending rest) = exec i (s.setPending rest) := runCommand_legal w i _ hd
    obtain hreset | hns := hcase
    · rw [step_access s _ rest hp hreset, ← hrun]
      exact cmdWrite_reaches (s.setPending rest) w
    · rw [step_cmdWrite hp (hrun ▸ hns), hrun]
  case illegal =>
    have hrun := runCommand_illegal w x (s.setPending rest) hd
    rw [step_cmdWrite hp (by simp [hrun]), hrun]
    rfl
  case read =>
    obtain ⟨hread, -⟩ := portAccessesFollowMap s 0 rest (by decide) (by decide)
    exact hread hp

/-! ### A reset that aborts a stuck `BYTES` -/

/-- What an abort leaves of the DMA bytes: the first bytes of the fill (log entry 10). -/
theorem abortStuck_dma {s : State} {e : Engine} (hg : s.gen = .seeded e) :
    ∃ k ≤ admittedPrefix s.platform (dstAddr s) (byteCount s),
      (abortStuck s).dma = (fillBytes k (dstAddr s) s.dma e).1 := by
  refine ⟨Config.stuckProgress s.freeTick % (admittedPrefix s.platform (dstAddr s) (byteCount s) + 1),
    Nat.le_of_lt_succ (Nat.mod_lt _ (Nat.succ_pos _)), ?_⟩
  unfold abortStuck
  rw [hg]
  rfl

/-- Settles O3. The reset takes the abort's branch; the values are those of `abortStuck_block`. -/
theorem resetAbortsStuckBytes : Obligations.ResetAbortsStuckBytes := by
  intro s e rest hp hg hstuck
  have haccess := cmdWrite_reaches (s.setPending (.reset :: rest)) (encode .bytes)
  rw [runCommand_legal _ .bytes _ ((decode_eq_ok_iff _ _).mpr rfl), hstuck] at haccess
  obtain ⟨-, hstep⟩ | ⟨hns, -⟩ := step_access_reset s _ rest hp
  · obtain ⟨hgen, hopa, hopb, hres, hwrap, herr, hplatform, hentropy, hpending, hreadLog⟩ :=
      abortStuck_block (s.setPending rest)
    obtain ⟨k, hk, hdma⟩ := abortStuck_dma (s := s.setPending rest) hg
    rw [byteCount_eq_mod] at hk
    have hseeded := (isSeeded_eq_false _).mpr hgen
    refine ⟨_, k, hstep, hgen, ?_, hopa, hopb, hres, hplatform, hentropy, hpending, hreadLog, hk, hdma⟩
    rw [statusWord_eq_ofNat, hseeded, hwrap, herr]
    rfl
  · exact absurd haccess hns

end Sys2Proof.Proofs
end

