-- ==== Sys2Proof/Proofs/Invariants.lean ====
section
/-!
PROOFS. What every step keeps (10_state R24, 20_memory section 2): one inversion lemma for a step, then the
generator, the platform and the DMA space read off its cases.
-/
namespace Sys2Proof.Proofs

open Sys2Proof Sys2Proof.Machine

/-! ### What a step can do -/

/-- The next states of a register access: a read, an ignored write, half an operand, a command word. -/
inductive AccessEffect (s : State) : State → Prop
  | read (v : Word) : AccessEffect s (s.logRead v)
  | ignored : AccessEffect s s
  | opa (v : DWord) : AccessEffect s (s.setOpa v)
  | opb (v : DWord) : AccessEffect s (s.setOpb v)
  | illegal : AccessEffect s (s.setErr .illegal)
  | command (i : Instr) {t : State} (h : CommandEffect i s t) : AccessEffect s t

theorem runCommand_accessEffect {w : Word} {s t : State} (ht : runCommand w s = .next t) : AccessEffect s t := by
  obtain ⟨i, -, heffect⟩ | ⟨x, -, rfl⟩ := runCommand_effect ht
  · exact .command i heffect
  · exact .illegal

theorem busAccess_effect {a : Access} {s t : State} (ht : busAccess a s = .next t) : AccessEffect s t := by
  obtain h | h | ⟨-, h⟩ | ⟨v, -, h⟩ := busAccess_cases a s
  · cases ht.symm.trans h
  · cases ht.symm.trans h
  · exact eq_of_next ht h ▸ .read _
  · obtain hw | hw | ⟨x, hw⟩ | ⟨x, hw⟩ := portWrite_cases s (a.addr - s.platform.regBase) v
    · exact runCommand_accessEffect (hw.symm.trans (h.symm.trans ht))
    · exact eq_of_next (h.symm.trans ht) hw ▸ .ignored
    · exact eq_of_next (h.symm.trans ht) hw ▸ .opa x
    · exact eq_of_next (h.symm.trans ht) hw ▸ .opb x

/-- Only a `BYTES` whose range has passed its check is stuck (20_memory R48). -/
theorem busAccess_stuck {a : Access} {s : State} {f : Fault} (h : busAccess a s = .fault f) :
    (∃ e, s.gen = .seeded e) ∧ checkBytes s = none := by
  have hrun : ∃ w, runCommand w s = .fault f := by
    obtain hb | hb | ⟨-, hb⟩ | ⟨v, -, hb⟩ := busAccess_cases a s
    · cases h.symm.trans hb
    · cases h.symm.trans hb
    · cases h.symm.trans hb
    · obtain hw | hw | ⟨x, hw⟩ | ⟨x, hw⟩ := portWrite_cases s (a.addr - s.platform.regBase) v
      · exact ⟨v, hw.symm.trans (hb.symm.trans h)⟩
      · cases h.symm.trans (hb.trans hw)
      · cases h.symm.trans (hb.trans hw)
      · cases h.symm.trans (hb.trans hw)
  obtain ⟨w, hw⟩ := hrun
  cases hd : decode w with
  | error x => cases hw.symm.trans (runCommand_illegal w x s hd)
  | ok i =>
    rw [runCommand_legal w i s hd] at hw
    by_cases hi : i = .bytes
    · subst hi
      obtain ⟨hgen, hcheck, -⟩ := (execBytes_fault_iff s f).mp hw
      cases hg : s.gen with
      | unseeded => exact absurd hg hgen
      | seeded e => exact ⟨⟨e, rfl⟩, hcheck⟩
    · exact absurd hw (exec_ne_fault hi s f)

/-- The next states of a step: waiting, a reset, an access, a reset that aborts a stuck `BYTES`. -/
inductive StepEffect (s : State) : State → Prop
  | idle : StepEffect s s
  | reset (rest : List BusEvent) : StepEffect s (s.setPending rest).resetBlock
  | access (rest : List BusEvent) {t : State} (h : AccessEffect (s.setPending rest) t) : StepEffect s t
  | abort (rest : List BusEvent) (e : Engine) (hg : s.gen = .seeded e) (hc : checkBytes s = none) :
      StepEffect s (abortStuck (s.setPending rest))

theorem step_effect {s t : State} (ht : step s = .next t) : StepEffect s t := by
  cases hp : s.pending with
  | nil => exact eq_of_next ht (step_idle s hp) ▸ .idle
  | cons ev rest =>
    cases ev with
    | reset => exact eq_of_next ht (step_reset s rest hp) ▸ .reset rest
    | access a =>
      by_cases hr : rest.head? = some .reset
      · obtain ⟨tail, rfl⟩ : ∃ tail, rest = .reset :: tail := List.head?_eq_some_iff.mp hr
        obtain ⟨hstuck, hstep⟩ | ⟨-, hstep⟩ := step_access_reset s a tail hp
        · obtain ⟨⟨e, hg⟩, hc⟩ := busAccess_stuck hstuck
          exact eq_of_next ht hstep ▸ .abort tail e hg hc
        · exact .access _ (busAccess_effect (hstep.symm.trans ht))
      · exact .access rest (busAccess_effect ((step_access s a rest hp hr).symm.trans ht))

/-! ### The generator -/

theorem drawMany_inv {e : Engine} (h : e.Inv) (n : Nat) : (drawMany n e).Inv := by
  induction n with
  | zero => exact h
  | succ n ih =>
    rw [drawMany_succ]
    obtain ⟨-, -, hinv⟩ := drawKeepsEngineInvariant _ ih
    exact hinv

/-- A seeding makes the invariant (40_initializer R109), draws keep it (41_engine R124). -/
theorem CommandEffect.gen_inv {i : Instr} {s t : State} (h : CommandEffect i s t) (hs : s.gen.Inv) :
    t.gen.Inv := by
  cases h with
  | rejected => exact hs
  | seed => exact constructionMeetsInvariant _
  | seedr => exact constructionMeetsInvariant _
  | drawn e _ hg =>
    rw [hg] at hs
    exact drawMany_inv hs 1
  | filled e hg =>
    rw [hg] at hs
    exact drawMany_inv hs _
  | wide e _ hg =>
    rw [hg] at hs
    exact drawMany_inv hs 8

theorem AccessEffect.gen_inv {s t : State} (h : AccessEffect s t) (hs : s.gen.Inv) : t.gen.Inv := by
  cases h with
  | command i h => exact h.gen_inv hs
  | _ => exact hs

theorem StepEffect.gen_inv {s t : State} (h : StepEffect s t) (hs : s.gen.Inv) : t.gen.Inv := by
  cases h with
  | idle => exact hs
  | reset rest => exact trivial
  | access rest h => exact h.gen_inv hs
  | abort rest =>
    obtain ⟨hgen, -⟩ := abortStuck_block (s.setPending rest)
    rw [hgen]
    exact trivial

/-! ### The platform and the DMA space -/

/-- The platform stays, and the DMA bytes stay or become those of a fill inside the DMA space of `s`. -/
structure FillsInSpace (s t : State) : Prop where
  platform : t.platform = s.platform
  dma : t.dma = s.dma ∨
    ∃ k a e, a + k ≤ 2 ^ s.platform.addrW ∧ t.dma = (fillBytes k a s.dma e).1

theorem CommandEffect.fillsInSpace {i : Instr} {s t : State} (h : CommandEffect i s t) : FillsInSpace s t where
  platform := h.sameOutside.platform
  dma := by
    by_cases hi : i = .bytes
    · cases h with
      | filled e _ _ hc =>
        obtain ⟨-, hend⟩ := (checkBytes_none s).mp hc
        exact .inr ⟨byteCount s, dstAddr s, e, hend, rfl⟩
      | seedr => exact .inl (by simp [afterSeeding])
      | _ => exact .inl rfl
    · exact .inl (h.dma_eq hi)

theorem AccessEffect.fillsInSpace {s t : State} (h : AccessEffect s t) : FillsInSpace s t := by
  cases h with
  | command i h => exact h.fillsInSpace
  | _ => exact ⟨rfl, .inl rfl⟩

theorem StepEffect.fillsInSpace {s t : State} (h : StepEffect s t) : FillsInSpace s t := by
  cases h with
  | idle => exact ⟨rfl, .inl rfl⟩
  | reset rest => exact ⟨rfl, .inl rfl⟩
  | access rest h =>
    obtain ⟨hplatform, hdma⟩ := h.fillsInSpace
    exact ⟨hplatform, hdma⟩
  | abort rest e hg hc =>
    obtain ⟨-, -, -, -, -, -, hplatform, -⟩ := abortStuck_block (s.setPending rest)
    obtain ⟨k, hk, hdma⟩ := abortStuck_dma (s := s.setPending rest) hg
    obtain ⟨-, hend⟩ := (checkBytes_none s).mp hc
    have hroom : k ≤ byteCount s := hk.trans (admittedPrefix_le _ _ _)
    exact ⟨hplatform, .inr ⟨k, dstAddr s, e, (Nat.add_le_add_left hroom _).trans hend, hdma⟩⟩

theorem FillsInSpace.wf {s t : State} (h : FillsInSpace s t) (hs : Memory.wf s.dma = true) :
    Memory.wf t.dma = true := by
  obtain ⟨-, hdma | ⟨k, a, e, -, hdma⟩⟩ := h
  · rwa [hdma]
  · rw [hdma]
    exact Memory.wf_fillBytes k a s.dma e hs

theorem FillsInSpace.dmaInSpace {s t : State} (h : FillsInSpace s t) (hs : DmaInSpace s) : DmaInSpace t := by
  obtain ⟨hplatform, hdma | ⟨k, a, e, hend, hdma⟩⟩ := h
  · rwa [DmaInSpace, hplatform, hdma]
  · intro c hc
    rw [hplatform]
    rw [hdma] at hc
    obtain ⟨-, hlt⟩ | hold := Memory.fillBytes_addresses k a s.dma e c hc
    · exact hlt.trans_le hend
    · exact hs c hold

/-! ### The statements -/

/-- Settles O55. No generator and no DMA byte, so the platform's parameters alone are checked. -/
theorem resetIsGoodState : Obligations.ResetIsGoodState where
  generator := trivial
  dmaCanonical := reset_dma_wf
  dmaInSpace := nofun
  platform := by decide

/-- Settles O57. A step writes the DMA space by a fill or not at all. -/
theorem everyStepKeepsCanonicalDma : Obligations.EveryStepKeepsCanonicalDma := by
  intro s t hs ht
  have hfills := (step_effect ht).fillsInSpace
  exact ⟨hfills.wf hs, hfills.platform⟩

/-- Settles O56. The generator by its effects, the rest by where a step can write. -/
theorem everyStepKeepsGoodState : Obligations.EveryStepKeepsGoodState := by
  intro s t hs ht
  have heffect := step_effect ht
  have hfills := heffect.fillsInSpace
  exact
    { generator := heffect.gen_inv hs.generator
      dmaCanonical := hfills.wf hs.dmaCanonical
      dmaInSpace := hfills.dmaInSpace hs.dmaInSpace
      platform := hfills.platform.symm ▸ hs.platform }

end Sys2Proof.Proofs
end

