-- ==== Sys2Proof/Proofs/Independence.lean ====
section
/-!
PROOFS. What a command does not read: an operand it does not select (30_encoding R63), an ignored half (R64), the
DMA space, the bus and the values read; so a seeding discards the past (40_initializer R108).
-/
namespace Sys2Proof.Proofs

open Sys2Proof Sys2Proof.Machine

/-! ### Outcomes under an update -/

/-- The same outcome with `u` done to its next state; `withOpa` and `withOpb` are of this form. -/
def mapNext (u : State → State) (r : Result) : Result :=
  match r with
  | .next s => .next (u s)
  | .fault f => .fault f
  | .refused q => .refused q

@[simp] theorem mapNext_next (u : State → State) (s : State) : mapNext u (.next s) = .next (u s) := rfl

theorem withOpa_eq_mapNext (v : DWord) (r : Result) : withOpa v r = mapNext (·.setOpa v) r := by cases r <;> rfl

theorem withOpb_eq_mapNext (v : DWord) (r : Result) : withOpb v r = mapNext (·.setOpb v) r := by cases r <;> rfl

/-- A command with the same check commutes with an update that its body commutes with. -/
theorem withEngine_mapNext {u : State → State} {s : State} {check : Option ErrCode} {body body' : Engine → Result}
    (hgen : (u s).gen = s.gen) (herr : ∀ c, (u s).setErr c = u (s.setErr c))
    (hbody : ∀ e, body' e = mapNext u (body e)) :
    withEngine (u s) check body' = mapNext u (withEngine s check body) := by
  cases hg : s.gen with
  | unseeded => simp [withEngine_unseeded, hgen, hg, herr]
  | seeded e =>
    cases check with
    | none => rw [withEngine_runs s e _ hg, withEngine_runs (u s) e _ (hgen.trans hg), hbody]
    | some c => simp [withEngine_rejected s e c _ hg, withEngine_rejected (u s) e c _ (hgen.trans hg), herr]

/-- `SEEDR` commutes with an update that the entropy port does not see. -/
theorem execSeedr_mapNext {u : State → State} {s : State} (hword : (u s).entropyNext = s.entropyNext)
    (hport : (u s).takeEntropy = u s.takeEntropy)
    (hseeding : ∀ seed t, construct seed (u t) = mapNext u (construct seed t)) :
    execSeedr (u s) = mapNext u (execSeedr s) := by
  rw [execSeedr, execSeedr, hword, hport, hseeding]

/-! ### Operands that are not selected -/

theorem takeEntropy_setOpa (s : State) (v : DWord) : (s.setOpa v).takeEntropy = s.takeEntropy.setOpa v := by
  unfold State.takeEntropy
  rw [setOpa_entropy]
  split <;> rfl

theorem takeEntropy_setOpb (s : State) (v : DWord) : (s.setOpb v).takeEntropy = s.takeEntropy.setOpb v := by
  unfold State.takeEntropy
  rw [setOpb_entropy]
  split <;> rfl

/-- The update keeps the generator and commutes with the writes of a command. -/
structure CommutesWithWrites (u : State → State) (s : State) : Prop where
  gen : (u s).gen = s.gen
  err : ∀ c, (u s).setErr c = u (s.setErr c)
  drawn : ∀ e res, afterDraw (u s) e res = u (afterDraw s e res)
  long : ∀ e z, afterLong (u s) e z = u (afterLong s e z)

/-- The command checks and computes the same in both states. -/
structure ReadsSame (i : Instr) (s t : State) : Prop where
  check : operandCheck i t = operandCheck i s
  sample : sampleValue i t = sampleValue i s
  long : ∀ e, longResult i t e = longResult i s e

theorem exec_mapNext {u : State → State} {i : Instr} {s : State} (hseed : i ≠ .seed) (hseedr : i ≠ .seedr)
    (hbytes : i ≠ .bytes) (hu : CommutesWithWrites u s) (hreads : ReadsSame i s (u s)) :
    exec i (u s) = mapNext u (exec i s) := by
  have hafter (e : Engine) : afterAccepted i (u s) e = u (afterAccepted i s e) := by
    unfold afterAccepted
    rw [hreads.sample, hreads.long]
    split
    · exact hu.drawn _ _
    · exact hu.long _ _
    · exact hu.drawn _ _
  rw [exec_eq_afterAccepted hseed hseedr hbytes, exec_eq_afterAccepted hseed hseedr hbytes, hreads.check]
  exact withEngine_mapNext hu.gen hu.err fun e => congrArg Host.Outcome.next (hafter e)

/-- `CheckF` looks at the selected operands alone (42_sampler R142). -/
theorem checkF_congr {hasMin hasMax : Bool} {s t : State} (hmin : hasMin = true → minF t = minF s)
    (hmax : hasMax = true → maxF t = maxF s) : checkF hasMin hasMax t = checkF hasMin hasMax s := by
  cases hasMin <;> cases hasMax <;> simp_all [checkF]

theorem operandCheck_setOpa {i : Instr} (h : readsOpa i = false) (s : State) (v : DWord) :
    operandCheck i (s.setOpa v) = operandCheck i s := by
  have hmin : ¬ readsMinF i = true := fun hread => by simp [readsOpa, hread] at h
  cases i with
  | bytes | longMm => cases h
  | longMax => rfl
  | _ => exact checkF_congr (fun hread => absurd hread hmin) fun _ => rfl

theorem operandCheck_setOpb {i : Instr} (h : readsOpb i = false) (s : State) (v : DWord) :
    operandCheck i (s.setOpb v) = operandCheck i s := by
  have hmax : ¬ readsMaxF i = true := fun hread => by simp [readsOpb, hread] at h
  cases i with
  | bytes | longMax | longMm => cases h
  | _ => exact checkF_congr (fun _ => rfl) fun hread => absurd hread hmax

theorem readsSame_setOpa {i : Instr} (h : readsOpa i = false) (s : State) (v : DWord) :
    ReadsSame i s (s.setOpa v) := by
  refine ⟨operandCheck_setOpa h s v, ?_, fun e => ?_⟩ <;>
  cases i with
  | seed | nextMin | nextMm | nextiMin | nextiMm | bytes | longMin | longMm => cases h
  | _ => rfl

theorem readsSame_setOpb {i : Instr} (h : readsOpb i = false) (s : State) (v : DWord) :
    ReadsSame i s (s.setOpb v) := by
  refine ⟨operandCheck_setOpb h s v, ?_, fun e => ?_⟩ <;>
  cases i with
  | nextMax | nextMm | nextiMax | nextiMm | bytes | longMax | longMm => cases h
  | _ => rfl

theorem exec_setOpa {i : Instr} (h : readsOpa i = false) (s : State) (v : DWord) :
    exec i (s.setOpa v) = mapNext (·.setOpa v) (exec i s) := by
  by_cases hseedr : i = .seedr
  · subst hseedr
    exact execSeedr_mapNext (u := (·.setOpa v)) rfl (takeEntropy_setOpa s v) fun _ _ => rfl
  · have hseed : i ≠ .seed := by rintro rfl; cases h
    have hbytes : i ≠ .bytes := by rintro rfl; cases h
    exact exec_mapNext (u := (·.setOpa v)) hseed hseedr hbytes
      ⟨rfl, fun _ => rfl, fun _ _ => rfl, fun _ _ => rfl⟩ (readsSame_setOpa h s v)

theorem exec_setOpb {i : Instr} (h : readsOpb i = false) (s : State) (v : DWord) :
    exec i (s.setOpb v) = mapNext (·.setOpb v) (exec i s) := by
  by_cases hseedr : i = .seedr
  · subst hseedr
    exact execSeedr_mapNext (u := (·.setOpb v)) rfl (takeEntropy_setOpb s v) fun _ _ => rfl
  by_cases hseed : i = .seed
  · subst hseed
    rfl
  · have hbytes : i ≠ .bytes := by rintro rfl; cases h
    exact exec_mapNext (u := (·.setOpb v)) hseed hseedr hbytes
      ⟨rfl, fun _ => rfl, fun _ _ => rfl, fun _ _ => rfl⟩ (readsSame_setOpb h s v)

/-- Settles O49. The checks and the results of a command name the operands it selects and no other. -/
theorem unselectedOperandNotRead : Obligations.UnselectedOperandNotRead := by
  intro i s v
  rw [withOpa_eq_mapNext, withOpb_eq_mapNext]
  exact ⟨fun h => exec_setOpa h s v, fun h => exec_setOpb h s v⟩

/-! ### Ignored halves -/

theorem loHalf_append (hi : Word) (x : DWord) : loHalf (hi ++ loHalf x) = loHalf x := by
  apply BitVec.eq_of_toNat_eq
  have hlow := (loHalf x).isLt
  rw [toNat_loHalf, BitVec.toNat_append, ← Nat.shiftLeft_add_eq_or_of_lt hlow, Nat.shiftLeft_eq]
  omega

/-- `BYTES` reads of `OPB` its low half alone (30_encoding R64). -/
theorem execBytes_setOpb {s : State} {v : DWord} (h : loHalf v = loHalf s.opb) :
    execBytes (s.setOpb v) = mapNext (·.setOpb v) (execBytes s) := by
  have hcount : byteCount (s.setOpb v) = byteCount s := congrArg BitVec.toNat h
  have hcheck : checkBytes (s.setOpb v) = checkBytes s := by
    rw [checkBytes, hcount]
    rfl
  unfold execBytes
  rw [hcheck, hcount]
  refine withEngine_mapNext (u := (·.setOpb v)) rfl (fun _ => rfl) fun e => ?_
  rw [apply_ite (mapNext (·.setOpb v))]
  rfl

/-- Settles O50. Both commands read the low half alone, which the replacement keeps. -/
theorem ignoredOperandHalves : Obligations.IgnoredOperandHalves := by
  intro s h
  rw [withOpa_eq_mapNext, withOpb_eq_mapNext]
  constructor
  · have hseed : seedOperand (s.setOpa (h ++ loHalf s.opa)) = seedOperand s := loHalf_append h s.opa
    show construct (seedOperand (s.setOpa (h ++ loHalf s.opa))) _ = _
    rw [hseed]
    rfl
  · exact execBytes_setOpb (loHalf_append h s.opb)

end Sys2Proof.Proofs
end

