-- ==== Sys2Proof/Proofs/History.lean ====
section
/-!
PROOFS. Seeding discards the past (40_initializer R108): two runs from states that agree on the block stay in
agreement, whatever the DMA space held, and a seeding makes two states agree.
-/
namespace Sys2Proof.Proofs

open Sys2Proof Sys2Proof.Machine

/-! ### Related outcomes -/

/-- Next states related by `R`, or the same stop. -/
def RelNext (R : State → State → Prop) (a b : Result) : Prop :=
  match a, b with
  | .next s, .next t => R s t
  | .fault f, .fault g => f = g
  | .refused q, .refused r => q = r
  | _, _ => False

theorem sameOutcome_iff {a b : Result} : SameOutcome a b ↔ RelNext SameBlock a b := by
  cases a <;> cases b <;> exact Iff.rfl

theorem sameRunOutcome_iff {s₁ s₂ : State} {a b : Result} :
    SameRunOutcome s₁ s₂ a b ↔ RelNext (SameRun s₁ s₂) a b := by
  cases a <;> cases b <;> exact Iff.rfl

theorem RelNext.imp {R Q : State → State → Prop} {a b : Result} (h : RelNext R a b)
    (himp : ∀ s t, a = .next s → b = .next t → R s t → Q s t) : RelNext Q a b := by
  cases a <;> cases b
  case next.next s t => exact himp s t rfl rfl h
  all_goals exact h

theorem RelNext.fault_iff {R : State → State → Prop} {a b : Result} (h : RelNext R a b) (f : Fault) :
    a = .fault f ↔ b = .fault f := by
  cases a <;> cases b
  case fault.fault => exact (show _ = _ from h) ▸ Iff.rfl
  case next.next | refused.refused => exact iff_of_false nofun nofun
  all_goals exact h.elim

/-- The outcome of `k` after `r`, which stops where `r` does. -/
def andThen (r : Result) (k : State → Result) : Result :=
  match r with
  | .next s => k s
  | .fault f => .fault f
  | .refused q => .refused q

theorem runCommands_cons (i : Instr) (cs : List Instr) (s : State) :
    runCommands (i :: cs) s = andThen (exec i s) (runCommands cs) := rfl

theorem runSteps_succ (n : Nat) (s : State) : runSteps (n + 1) s = andThen (step s) (runSteps n) := rfl

theorem RelNext.andThen {R Q : State → State → Prop} {a b : Result} {k l : State → Result} (h : RelNext R a b)
    (hnext : ∀ s t, R s t → RelNext Q (k s) (l t)) : RelNext Q (andThen a k) (andThen b l) := by
  cases a <;> cases b
  case next.next s t => exact hnext s t h
  case fault.fault => exact h
  case refused.refused => exact h
  all_goals exact h.elim

/-! ### DMA bytes written by two runs -/

theorem sameDmaWrites_unchanged (m₁ m₂ : Memory) : SameDmaWrites m₁ m₂ m₁ m₂ := fun _ => .inr ⟨rfl, rfl⟩

theorem sameDmaWrites_trans {m₁ m₂ n₁ n₂ p₁ p₂ : Memory} (h : SameDmaWrites m₁ m₂ n₁ n₂)
    (h' : SameDmaWrites n₁ n₂ p₁ p₂) : SameDmaWrites m₁ m₂ p₁ p₂ := by
  intro a
  obtain heq | ⟨h₁, h₂⟩ := h' a
  · exact .inl heq
  · rw [h₁, h₂]
    exact h a

/-- The same fill of two memories: the same bytes in its range, none outside. -/
theorem sameDmaWrites_fillBytes (n a : Nat) (m₁ m₂ : Memory) (e : Engine) :
    SameDmaWrites m₁ m₂ (fillBytes n a m₁ e).1 (fillBytes n a m₂ e).1 := by
  intro b
  by_cases hb : a ≤ b ∧ b < a + n
  · obtain ⟨k, rfl⟩ := Nat.exists_eq_add_of_le hb.1
    have hk : k < n := by omega
    exact .inl ((read_fillBytes hk a m₁ e).trans (read_fillBytes hk a m₂ e).symm)
  · exact .inr ⟨Memory.read_fillBytes_outside n a m₁ e b (by omega),
      Memory.read_fillBytes_outside n a m₂ e b (by omega)⟩

/-! ### One command from two states that agree on the block -/

/-- Next states from `s₁` and `s₂` that agree on the block and on the DMA bytes written. -/
structure SameEffect (s₁ s₂ t₁ t₂ : State) : Prop where
  block : SameBlock t₁ t₂
  dma : SameDmaWrites s₁.dma s₂.dma t₁.dma t₂.dma

/-- The state with other DMA bytes, another bus and other values read. -/
def withBus (m : Memory) (evs : List BusEvent) (l : List Word) (s : State) : State :=
  { s with dma := m, pending := evs, readLog := l }

theorem eq_withBus {s₁ s₂ : State} (h : SameBlock s₁ s₂) :
    s₂ = withBus s₂.dma s₂.pending s₂.readLog s₁ := by
  cases s₁
  cases s₂
  cases h
  simp_all [withBus]

theorem sameBlock_withBus (m : Memory) (evs : List BusEvent) (l : List Word) (s : State) :
    SameBlock s (withBus m evs l s) := ⟨rfl, rfl, rfl, rfl, rfl, rfl, rfl, rfl, rfl⟩

@[simp] theorem withBus_entropy (m : Memory) (evs : List BusEvent) (l : List Word) (s : State) :
    (withBus m evs l s).entropy = s.entropy := rfl

theorem takeEntropy_withBus (m : Memory) (evs : List BusEvent) (l : List Word) (s : State) :
    (withBus m evs l s).takeEntropy = withBus m evs l s.takeEntropy := by
  unfold State.takeEntropy
  rw [withBus_entropy]
  split <;> rfl

theorem readsSame_withBus {i : Instr} (hbytes : i ≠ .bytes) (m : Memory) (evs : List BusEvent) (l : List Word)
    (s : State) : ReadsSame i s (withBus m evs l s) where
  check := by
    cases i with
    | bytes => exact absurd rfl hbytes
    | longMax => rfl
    | longMm => rfl
    | _ => exact checkF_congr (fun _ => rfl) fun _ => rfl
  sample := by cases i <;> rfl
  long e := by cases i <;> rfl

/-- No command but `BYTES` sees the DMA space, the bus or the values read. -/
theorem exec_withBus {i : Instr} (hbytes : i ≠ .bytes) (m : Memory) (evs : List BusEvent) (l : List Word)
    (s : State) : exec i (withBus m evs l s) = mapNext (withBus m evs l) (exec i s) := by
  by_cases hseedr : i = .seedr
  · subst hseedr
    exact execSeedr_mapNext (u := withBus m evs l) rfl (takeEntropy_withBus m evs l s) fun _ _ => rfl
  by_cases hseed : i = .seed
  · subst hseed
    rfl
  · exact exec_mapNext (u := withBus m evs l) hseed hseedr hbytes
      ⟨rfl, fun _ => rfl, fun _ _ => rfl, fun _ _ => rfl⟩ (readsSame_withBus hbytes m evs l s)

section Agreeing

variable {s₁ s₂ : State} (h : SameBlock s₁ s₂)

include h

theorem exec_agree_of_ne_bytes {i : Instr} (hbytes : i ≠ .bytes) :
    RelNext (SameEffect s₁ s₂) (exec i s₁) (exec i s₂) := by
  have hexec := exec_withBus hbytes s₂.dma s₂.pending s₂.readLog s₁
  rw [← eq_withBus h] at hexec
  rw [hexec]
  cases ht : exec i s₁ with
  | next t =>
    have hdma : t.dma = s₁.dma := (exec_effect ht).dma_eq hbytes
    exact ⟨sameBlock_withBus _ _ _ t, fun _ => .inr ⟨congrArg (Memory.read · _) hdma, rfl⟩⟩
  | fault f => rfl
  | refused r => rfl

theorem sameBlock_setErr (c : ErrCode) : SameBlock (s₁.setErr c) (s₂.setErr c) :=
  { h with err := rfl }

/-- The two rejections write `ERR`, the two fills the same bytes, and being stuck is the same stop. -/
theorem execBytes_agree : RelNext (SameEffect s₁ s₂) (execBytes s₁) (execBytes s₂) := by
  have hrejected (c : ErrCode) : SameEffect s₁ s₂ (s₁.setErr c) (s₂.setErr c) :=
    ⟨sameBlock_setErr h c, sameDmaWrites_unchanged _ _⟩
  have hcount : byteCount s₂ = byteCount s₁ := by rw [byteCount, byteCount, h.opb]
  have hdst : dstAddr s₂ = dstAddr s₁ := by rw [dstAddr, dstAddr, h.opa]
  have hcheck : checkBytes s₂ = checkBytes s₁ := by rw [checkBytes, checkBytes, hcount, hdst, h.platform]
  cases hg : s₁.gen with
  | unseeded =>
    rw [execBytes, execBytes, withEngine_unseeded s₁ _ _ hg, withEngine_unseeded s₂ _ _ (h.gen.symm.trans hg)]
    exact hrejected .unseeded
  | seeded e =>
    have hg₂ : s₂.gen = .seeded e := h.gen.symm.trans hg
    cases hc : checkBytes s₁ with
    | some c =>
      rw [execBytes_rejected s₁ e c hg hc, execBytes_rejected s₂ e c hg₂ (hcheck.trans hc)]
      exact hrejected c
    | none =>
      rw [execBytes_cases s₁ e hg hc, execBytes_cases s₂ e hg₂ (hcheck.trans hc), hcount, hdst, ← h.platform]
      split
      · refine ⟨{ h with gen := ?_, err := rfl }, ?_⟩
        · rw [setErr_gen, setEngine_gen, setErr_gen, setEngine_gen, fillBytes_engine, fillBytes_engine]
        · exact sameDmaWrites_fillBytes _ _ _ _ e
      · rfl

theorem exec_agree (i : Instr) : RelNext (SameEffect s₁ s₂) (exec i s₁) (exec i s₂) := by
  by_cases hbytes : i = .bytes
  · subst hbytes
    exact execBytes_agree h
  · exact exec_agree_of_ne_bytes h hbytes

end Agreeing

/-! ### Runs of commands -/

theorem SameEffect.trans {s₁ s₂ t₁ t₂ u₁ u₂ : State} (h : SameEffect s₁ s₂ t₁ t₂) (h' : SameEffect t₁ t₂ u₁ u₂) :
    SameEffect s₁ s₂ u₁ u₂ :=
  ⟨h'.block, sameDmaWrites_trans h.dma h'.dma⟩

theorem runCommands_agree (cs : List Instr) {s₁ s₂ : State} (h : SameBlock s₁ s₂) :
    RelNext (SameEffect s₁ s₂) (runCommands cs s₁) (runCommands cs s₂) := by
  induction cs generalizing s₁ s₂ with
  | nil => exact ⟨h, sameDmaWrites_unchanged _ _⟩
  | cons i cs ih =>
    rw [runCommands_cons, runCommands_cons]
    refine (exec_agree h i).andThen fun t₁ t₂ ht => ?_
    exact (ih ht.block).imp fun _ _ _ _ hu => ht.trans hu

/-- Taking an event off the list is not seen of a run. -/
theorem sameRun_of_setPending {s₁ s₂ t₁ t₂ : State} {evs₁ evs₂ : List BusEvent}
    (h : SameRun (s₁.setPending evs₁) (s₂.setPending evs₂) t₁ t₂) : SameRun s₁ s₂ t₁ t₂ :=
  ⟨h.block, h.pending, h.reads, h.dma⟩

/-! ### One event from two states that agree on the block -/

section SameEvent

variable {s₁ s₂ : State} (h : SameBlock s₁ s₂) (hpending : s₁.pending = s₂.pending)

include h

theorem isSeeded_agree : s₁.isSeeded = s₂.isSeeded := by
  unfold State.isSeeded
  rw [h.gen]

theorem portRead_agree (o : Nat) : portRead s₁ o = portRead s₂ o := by
  have hstatus : statusWord s₁ = statusWord s₂ := by
    rw [statusWord_eq_ofNat, statusWord_eq_ofNat, isSeeded_agree h, h.wrap, h.err]
  unfold portRead
  rw [hstatus, h.opa, h.opb, h.res]

theorem abortStuck_agree (hpending : s₁.pending = s₂.pending) :
    SameRun s₁ s₂ (abortStuck s₁) (abortStuck s₂) := by
  cases hg : s₁.gen with
  | unseeded =>
    have hg₂ : s₂.gen = .unseeded := h.gen.symm.trans hg
    unfold abortStuck
    rw [hg, hg₂]
    exact ⟨{ h with gen := rfl, opa := rfl, opb := rfl, res := rfl, wrap := rfl, err := rfl }, hpending,
      ⟨[], rfl, rfl⟩, sameDmaWrites_unchanged _ _⟩
  | seeded e =>
    have hg₂ : s₂.gen = .seeded e := h.gen.symm.trans hg
    have hcount : byteCount s₂ = byteCount s₁ := by rw [byteCount, byteCount, h.opb]
    have hdst : dstAddr s₂ = dstAddr s₁ := by rw [dstAddr, dstAddr, h.opa]
    unfold abortStuck
    rw [hg, hg₂, hcount, hdst, ← h.platform, ← h.freeTick]
    exact ⟨⟨rfl, rfl, rfl, rfl, rfl, rfl, rfl, h.entropy, rfl⟩, hpending,
      ⟨[], rfl, rfl⟩, sameDmaWrites_fillBytes _ _ _ _ e⟩

include hpending

/-- No command touches the events still to come or the values read. -/
theorem runCommand_agree (w : Word) : RelNext (SameRun s₁ s₂) (runCommand w s₁) (runCommand w s₂) := by
  have hagree : RelNext (SameEffect s₁ s₂) (runCommand w s₁) (runCommand w s₂) := by
    cases hd : decode w with
    | ok i =>
      rw [runCommand_legal w i s₁ hd, runCommand_legal w i s₂ hd]
      exact exec_agree h i
    | error x =>
      rw [runCommand_illegal w x s₁ hd, runCommand_illegal w x s₂ hd]
      exact ⟨sameBlock_setErr h _, sameDmaWrites_unchanged _ _⟩
  refine hagree.imp fun t₁ t₂ ht₁ ht₂ ht => ?_
  have houtside₁ := runCommand_sameOutside ht₁
  have houtside₂ := runCommand_sameOutside ht₂
  exact ⟨ht.block, by rw [houtside₁.pending, houtside₂.pending, hpending],
    ⟨[], houtside₁.readLog, houtside₂.readLog⟩, ht.dma⟩

theorem sameRun_refl : SameRun s₁ s₂ s₁ s₂ := ⟨h, hpending, ⟨[], rfl, rfl⟩, sameDmaWrites_unchanged _ _⟩

theorem portWrite_agree (o : Nat) (v : Word) : RelNext (SameRun s₁ s₂) (portWrite s₁ o v) (portWrite s₂ o v) := by
  have hsame := sameRun_refl h hpending
  unfold portWrite
  cases regAt o with
  | none => exact hsame
  | some r =>
    cases r with
    | cmd => exact runCommand_agree h hpending v
    | opaLo => exact { hsame with block := { h with opa := by simp [h.opa] } }
    | opaHi => exact { hsame with block := { h with opa := by simp [h.opa] } }
    | opbLo => exact { hsame with block := { h with opb := by simp [h.opb] } }
    | opbHi => exact { hsame with block := { h with opb := by simp [h.opb] } }
    | _ => exact hsame

theorem busAccess_agree (a : Access) : RelNext (SameRun s₁ s₂) (busAccess a s₁) (busAccess a s₂) := by
  unfold busAccess
  rw [← h.platform]
  split
  · split
    · cases a.kind with
      | read =>
        rw [← portRead_agree h]
        exact ⟨{ h with }, hpending, ⟨[_], rfl, rfl⟩, sameDmaWrites_unchanged _ _⟩
      | write v => exact portWrite_agree h hpending _ v
    · rfl
  · rfl

theorem step_agree : RelNext (SameRun s₁ s₂) (step s₁) (step s₂) := by
  cases hp : s₁.pending with
  | nil =>
    rw [step_idle s₁ hp, step_idle s₂ (hpending.symm.trans hp)]
    exact sameRun_refl h hpending
  | cons ev rest =>
    have hp₂ : s₂.pending = ev :: rest := hpending.symm.trans hp
    cases ev with
    | reset =>
      rw [step_reset s₁ rest hp, step_reset s₂ rest hp₂]
      exact ⟨{ h with gen := rfl, opa := rfl, opb := rfl, res := rfl, wrap := rfl, err := rfl }, rfl,
        ⟨[], rfl, rfl⟩, sameDmaWrites_unchanged _ _⟩
    | access a =>
      have haccess := busAccess_agree (s₁ := s₁.setPending rest) (s₂ := s₂.setPending rest) { h with } rfl a
      by_cases hr : rest.head? = some .reset
      · obtain ⟨tail, rfl⟩ : ∃ tail, rest = .reset :: tail := List.head?_eq_some_iff.mp hr
        obtain ⟨hs₁, hstep₁⟩ | ⟨hs₁, hstep₁⟩ := step_access_reset s₁ a tail hp <;>
        obtain ⟨hs₂, hstep₂⟩ | ⟨hs₂, hstep₂⟩ := step_access_reset s₂ a tail hp₂
        · rw [hstep₁, hstep₂]
          have habort := abortStuck_agree (s₁ := s₁.setPending tail) (s₂ := s₂.setPending tail) { h with } rfl
          exact sameRun_of_setPending habort
        · exact absurd ((haccess.fault_iff _).mp hs₁) hs₂
        · exact absurd ((haccess.fault_iff _).mpr hs₂) hs₁
        · rw [hstep₁, hstep₂]
          exact haccess.imp fun _ _ _ _ => sameRun_of_setPending
      · rw [step_access s₁ a rest hp hr, step_access s₂ a rest hp₂ hr]
        exact haccess.imp fun _ _ _ _ => sameRun_of_setPending

end SameEvent

/-! ### Runs of events -/

theorem sameRun_trans {s₁ s₂ t₁ t₂ u₁ u₂ : State} (h : SameRun s₁ s₂ t₁ t₂) (h' : SameRun t₁ t₂ u₁ u₂) :
    SameRun s₁ s₂ u₁ u₂ := by
  obtain ⟨l, hl₁, hl₂⟩ := h.reads
  obtain ⟨l', hl₁', hl₂'⟩ := h'.reads
  exact ⟨h'.block, h'.pending,
    ⟨l' ++ l, by rw [hl₁', hl₁, List.append_assoc], by rw [hl₂', hl₂, List.append_assoc]⟩,
    sameDmaWrites_trans h.dma h'.dma⟩

theorem runSteps_agree (n : Nat) {s₁ s₂ : State} (h : SameBlock s₁ s₂) (hpending : s₁.pending = s₂.pending) :
    RelNext (SameRun s₁ s₂) (runSteps n s₁) (runSteps n s₂) := by
  induction n generalizing s₁ s₂ with
  | zero => exact sameRun_refl h hpending
  | succ n ih =>
    rw [runSteps_succ, runSteps_succ]
    refine (step_agree h hpending).andThen fun t₁ t₂ ht => ?_
    exact (ih ht.block ht.pending).imp fun _ _ _ _ hu => sameRun_trans ht hu

/-! ### Seeding -/

theorem step_cmd_seed {s : State} {evs : List BusEvent} (hp : s.pending = cmd s.platform .seed :: evs) :
    step s = .next (afterSeeding (seedOperand s) (s.setPending evs)) := by
  have hrun : runCommand (encode .seed) (s.setPending evs) = exec .seed (s.setPending evs) :=
    runCommand_legal _ _ _ ((decode_eq_ok_iff _ _).mpr rfl)
  have hexec : exec .seed (s.setPending evs) = .next (afterSeeding (seedOperand s) (s.setPending evs)) := rfl
  rw [hexec] at hrun
  rw [step_cmdWrite hp (by simp [hrun]), hrun]

section Seeding

variable {s₁ s₂ : State} (hopa : s₁.opa = s₂.opa) (hopb : s₁.opb = s₂.opb) (hplatform : s₁.platform = s₂.platform)
  (hentropy : s₁.entropy = s₂.entropy) (hfreeTick : s₁.freeTick = s₂.freeTick)

include hopa hopb hplatform hentropy hfreeTick

/-- A seeding leaves nothing of the generator, `RES`, `WRAP` and `ERR` it found. -/
theorem sameBlock_afterSeeding (seed : Word) : SameBlock (afterSeeding seed s₁) (afterSeeding seed s₂) :=
  ⟨rfl, hopa, hopb, rfl, rfl, rfl, hplatform, hentropy, hfreeTick⟩

theorem seed_runCommands_agree (cs : List Instr) :
    RelNext (SameEffect s₁ s₂) (runCommands (.seed :: cs) s₁) (runCommands (.seed :: cs) s₂) := by
  have hseed : seedOperand s₁ = seedOperand s₂ := congrArg loHalf hopa
  have hblock := sameBlock_afterSeeding hopa hopb hplatform hentropy hfreeTick (seedOperand s₁)
  have hrest := runCommands_agree cs hblock
  have hstart (s : State) : runCommands (.seed :: cs) s = runCommands cs (afterSeeding (seedOperand s) s) := rfl
  rw [hstart, hstart, ← hseed]
  exact hrest.imp fun _ _ _ _ h => ⟨h.block, h.dma⟩

theorem seed_runSteps_agree {evs : List BusEvent} (n : Nat) (hp₁ : s₁.pending = cmd s₁.platform .seed :: evs)
    (hp₂ : s₂.pending = cmd s₂.platform .seed :: evs) :
    RelNext (SameRun s₁ s₂) (runSteps (n + 1) s₁) (runSteps (n + 1) s₂) := by
  have hseed : seedOperand s₁ = seedOperand s₂ := congrArg loHalf hopa
  rw [runSteps_of_next n s₁ _ (step_cmd_seed hp₁), runSteps_of_next n s₂ _ (step_cmd_seed hp₂), ← hseed]
  have hblock : SameBlock (afterSeeding (seedOperand s₁) (s₁.setPending evs))
      (afterSeeding (seedOperand s₁) (s₂.setPending evs)) :=
    sameBlock_afterSeeding (s₁ := s₁.setPending evs) (s₂ := s₂.setPending evs) hopa hopb hplatform hentropy
      hfreeTick _
  exact (runSteps_agree n hblock rfl).imp fun _ _ _ _ h => ⟨h.block, h.pending, h.reads, h.dma⟩

end Seeding

/-- Settles O20. After the seeding the two states agree on the block, and a command or an event from states that do
has the same effect on both. -/
theorem seedingDiscardsHistory : Obligations.SeedingDiscardsHistory := by
  constructor
  · intro s₁ s₂ cs hopa hopb hplatform hentropy hfreeTick
    have hagree := seed_runCommands_agree hopa hopb hplatform hentropy hfreeTick cs
    refine ⟨sameOutcome_iff.mpr (hagree.imp fun _ _ _ _ h => h.block), fun t₁ t₂ ht₁ ht₂ => ?_⟩
    rw [ht₁, ht₂] at hagree
    exact SameEffect.dma hagree
  · intro s₁ s₂ evs n hopa hopb hplatform hentropy hfreeTick hp₁ hp₂
    exact sameRunOutcome_iff.mpr (seed_runSteps_agree hopa hopb hplatform hentropy hfreeTick n hp₁ hp₂)

end Sys2Proof.Proofs
end

