-- ==== Sys2Proof/Proofs/Binary64.lean ====
section
/-!
PROOFS. The binary64 primitives against exact terms (00_scope R9): patterns and their values, the comparisons as
the order of the numbers, the floor, and rounding as the nearest representable magnitude with ties to even.
-/
namespace Sys2Proof.Proofs

open Sys2Proof Sys2Proof.Machine

/-! ### Patterns and their fields -/

theorem packF64_toNat (neg : Bool) {expo frac : Nat} (hexpo : expo < 2048) (hfrac : frac < 2 ^ 52) :
    (packF64 neg expo frac).toNat = neg.toNat * 2 ^ 63 + expo * 2 ^ 52 + frac := by
  have hneg : neg.toNat ≤ 1 := Bool.toNat_le neg
  rw [packF64, BitVec.toNat_ofNat]
  omega

/-- A pattern is its sign, its exponent and its fraction put together. -/
theorem append_eq_packF64 (neg : Bool) (expo : BitVec 11) (frac : BitVec 52) :
    BitVec.ofBool neg ++ expo ++ frac = packF64 neg expo.toNat frac.toNat := by
  apply BitVec.eq_of_toNat_eq
  have hexpo := expo.isLt
  have hfrac := frac.isLt
  rw [packF64_toNat neg hexpo hfrac, BitVec.toNat_append, BitVec.toNat_append, BitVec.toNat_ofBool,
    ← Nat.shiftLeft_add_eq_or_of_lt hexpo, ← Nat.shiftLeft_add_eq_or_of_lt hfrac, Nat.shiftLeft_eq,
    Nat.shiftLeft_eq]
  omega

theorem eq_packF64_fields (b : DWord) :
    b = packF64 b.msb (b.toNat / 2 ^ 52 % 2 ^ 11) (b.toNat % 2 ^ 52) := by
  apply BitVec.eq_of_toNat_eq
  have hb := b.isLt
  have hsign : b.msb.toNat = b.toNat / 2 ^ 63 := by
    rw [BitVec.msb_eq_decide]
    by_cases h : 2 ^ (64 - 1) ≤ b.toNat
    · rw [decide_eq_true h, Bool.toNat_true]; omega
    · rw [decide_eq_false h, Bool.toNat_false]; omega
  have hexpo : b.toNat / 2 ^ 52 % 2 ^ 11 < 2048 := by omega
  rw [packF64_toNat _ hexpo (Nat.mod_lt _ (by decide)), hsign]
  omega

/-- The exponent 2047 stands for the infinities and not-a-number (00_scope R9). -/
theorem f64_packF64_special (neg : Bool) {frac : Nat} (hfrac : frac < 2 ^ 52) :
    f64 (packF64 neg 2047 frac) = if frac = 0 then .inf neg else .nan := by
  have hneg : neg.toNat ≤ 1 := Bool.toNat_le neg
  have hnat := packF64_toNat neg (expo := 2047) (by decide) hfrac
  have hsign : (packF64 neg 2047 frac).msb = neg := by
    rw [BitVec.msb_eq_decide, hnat]
    cases neg <;> simp <;> omega
  have hexpo : (neg.toNat * 2 ^ 63 + 2047 * 2 ^ 52 + frac) / 2 ^ 52 % 2 ^ 11 = 2047 := by omega
  have hfrac' : (neg.toNat * 2 ^ 63 + 2047 * 2 ^ 52 + frac) % 2 ^ 52 = frac := by omega
  simp only [f64, hsign, hnat, hexpo, hfrac', if_true]

theorem isFinite_eq_false_iff (x : F64) : isFinite x = false ↔ x = .nan ∨ x = .inf false ∨ x = .inf true := by
  cases x with
  | nan => simp
  | inf neg => cases neg <;> simp
  | fin neg mag => simp

/-- Settles O58. The pattern put together of its fields is read back by `f64_packF64`. -/
theorem patternsHaveTheirValues : Obligations.PatternsHaveTheirValues := by
  refine ⟨fun neg expo frac => ?_, isFinite_eq_false_iff⟩
  rw [append_eq_packF64]
  have hfrac := frac.isLt
  have hzero : frac = 0#52 ↔ frac.toNat = 0 := BitVec.toNat_inj.symm
  refine ⟨?infinite, ?nan, ?subnormal, ?normal⟩
  case infinite =>
    rintro rfl h
    exact (f64_packF64_special neg hfrac).trans (if_pos (hzero.mp h))
  case nan =>
    rintro rfl h
    exact (f64_packF64_special neg hfrac).trans (if_neg (mt hzero.mpr h))
  case subnormal =>
    rintro rfl
    exact (f64_packF64 neg (by decide) hfrac).trans (if_pos rfl)
  case normal =>
    intro hne hne'
    have hexpo : expo.toNat < 2047 := by
      have hlt := expo.isLt
      have hne2047 : expo.toNat ≠ 2047 := fun h => hne' (BitVec.eq_of_toNat_eq h)
      omega
    have hexpo0 : expo.toNat ≠ 0 := fun h => hne (BitVec.eq_of_toNat_eq h)
    exact (f64_packF64 neg hexpo hfrac).trans (if_neg hexpo0)

/-! ### Finite patterns -/

/-- The pattern of a normal magnitude is read off its leading bit (00_scope R9). -/
theorem enc64_normal (neg : Bool) {expo frac : Nat} (hexpo : expo ≠ 0) (hfrac : frac < 2 ^ 52) :
    enc64 (.fin neg ((2 ^ 52 + frac) * 2 ^ (expo - 1))) = packF64 neg expo frac := by
  have hpos : 0 < 2 ^ (expo - 1) := Nat.two_pow_pos _
  have hlo : 2 ^ 52 * 2 ^ (expo - 1) ≤ (2 ^ 52 + frac) * 2 ^ (expo - 1) := Nat.mul_le_mul_right _ (by omega)
  have hhi : (2 ^ 52 + frac) * 2 ^ (expo - 1) < 2 ^ 53 * 2 ^ (expo - 1) :=
    Nat.mul_lt_mul_of_pos_right (by omega) hpos
  have hsub : ¬ (2 ^ 52 + frac) * 2 ^ (expo - 1) < 2 ^ 52 := by omega
  have hlog : ((2 ^ 52 + frac) * 2 ^ (expo - 1)).log2 = 52 + (expo - 1) := by
    rw [Nat.log2_eq_iff (by omega), Nat.pow_add, Nat.add_right_comm, Nat.pow_add]
    exact ⟨hlo, hhi⟩
  have hexponent : 52 + (expo - 1) - 51 = expo := by omega
  simp only [enc64, if_neg hsub, ulpAt, hlog, Nat.add_sub_cancel_left, Nat.mul_div_cancel _ hpos, hexponent]

/-- The pattern of a finite value has another exponent than 2047. -/
theorem exists_packF64_of_isFinite {b : DWord} (h : isFinite (f64 b) = true) :
    ∃ neg expo frac, expo < 2047 ∧ frac < 2 ^ 52 ∧ b = packF64 neg expo frac := by
  have hfrac : b.toNat % 2 ^ 52 < 2 ^ 52 := Nat.mod_lt _ (by decide)
  refine ⟨b.msb, b.toNat / 2 ^ 52 % 2 ^ 11, b.toNat % 2 ^ 52, ?_, hfrac, eq_packF64_fields b⟩
  by_contra hexpo
  have hspecial : b.toNat / 2 ^ 52 % 2 ^ 11 = 2047 := by omega
  have hb := eq_packF64_fields b
  rw [hspecial] at hb
  rw [hb, f64_packF64_special _ hfrac] at h
  split at h <;> cases h

theorem enc64_f64 {b : DWord} (h : isFinite (f64 b) = true) : enc64 (f64 b) = b := by
  obtain ⟨neg, expo, frac, hexpo, hfrac, rfl⟩ := exists_packF64_of_isFinite h
  rw [f64_packF64 neg hexpo hfrac]
  split
  next hzero => rw [hzero, enc64, if_pos hfrac]
  next hnormal => exact enc64_normal neg hnormal hfrac

/-- Settles O36. A finite pattern is subnormal or normal; a representable value has the significand its pattern
holds. -/
theorem finitePatternRoundTrips : Obligations.FinitePatternRoundTrips :=
  ⟨fun _ h => enc64_f64 h, fun neg _ hrep hlt => f64_enc64_fin neg hrep hlt⟩

/-! ### The comparisons -/

theorem place_lt_posInf (z : Int) : ((z : WithTop Int) : WithBot (WithTop Int)) < ⊤ :=
  WithBot.coe_lt_coe.mpr (WithTop.coe_lt_top z)

/-- `x < y` is the order of the places, by the kinds of the two values: not-a-number, an infinity, a number. -/
theorem flt_iff (x y : F64) : flt x y = true ↔ ∃ p q, placeOf x = some p ∧ placeOf y = some q ∧ p < q := by
  rcases x with _ | (_ | _) | ⟨a, m⟩ <;> rcases y with _ | (_ | _) | ⟨b, n⟩ <;> simp [flt, place_lt_posInf]

theorem fle_iff (x y : F64) : fle x y = true ↔ ∃ p q, placeOf x = some p ∧ placeOf y = some q ∧ p ≤ q := by
  rcases x with _ | (_ | _) | ⟨a, m⟩ <;> rcases y with _ | (_ | _) | ⟨b, n⟩ <;> simp [fle]

/-- Settles O59. `x > y` is `y < x`, so its places come in the other order. -/
theorem comparisonsAreOrdered : Obligations.ComparisonsAreOrdered := by
  intro x y
  refine ⟨flt_iff x y, (flt_iff y x).trans ?_, fle_iff x y⟩
  constructor
  · rintro ⟨q, p, hq, hp, hlt⟩
    exact ⟨p, q, hp, hq, hlt⟩
  · rintro ⟨p, q, hp, hq, hlt⟩
    exact ⟨q, p, hq, hp, hlt⟩

/-! ### The floor -/

/-- The whole number that `ffloor` answers, where `unit` units make 1. -/
def floorUnits (unit : Nat) (neg : Bool) (mag : Nat) : Nat :=
  if neg then (mag + unit - 1) / unit else mag / unit

theorem ffloor_fin (neg : Bool) (mag : Nat) :
    ffloor (.fin neg mag) = .fin neg (floorUnits unitsPerOne neg mag * unitsPerOne) := by
  cases neg with
  | false => rw [ffloor, floorUnits, if_neg Bool.false_ne_true]
  | true => rw [ffloor, floorUnits, if_pos rfl]

/-- Rounding up divides with the remainder on the other side. -/
theorem div_up_bounds (m : Nat) {d : Nat} (hd : 0 < d) :
    m ≤ (m + d - 1) / d * d ∧ (m + d - 1) / d * d < m + d := by
  have hdiv := Nat.div_add_mod (m + d - 1) d
  have hmod := Nat.mod_lt (m + d - 1) hd
  rw [Nat.mul_comm] at hdiv
  omega

theorem signedUnits_mul (neg : Bool) (k d : Nat) : signedUnits neg (k * d) = signedUnits neg k * d := by
  cases neg <;> simp

/-- The floor is the whole number at or below the value, by less than 1. -/
theorem floorUnits_bounds {unit : Nat} (hunit : 0 < unit) (neg : Bool) (mag : Nat) :
    signedUnits neg (floorUnits unit neg mag * unit) ≤ signedUnits neg mag ∧
      signedUnits neg mag < (signedUnits neg (floorUnits unit neg mag) + 1) * unit := by
  rw [add_mul, one_mul, ← signedUnits_mul]
  cases neg with
  | false =>
    have hle := Nat.div_mul_le_self mag unit
    have hlt := Nat.lt_div_mul_add hunit (a := mag)
    rw [floorUnits, if_neg Bool.false_ne_true, signedUnits_false, signedUnits_false]
    omega
  | true =>
    obtain ⟨hle, hlt⟩ := div_up_bounds mag hunit
    rw [floorUnits, if_pos rfl, signedUnits_true, signedUnits_true]
    omega

theorem unitsPerOne_cast : (unitsPerOne : Int) = 2 ^ 1074 := by
  rw [unitsPerOne_eq, Nat.cast_pow, Nat.cast_ofNat]

/-- Settles O35. `floorUnits` is the whole number, with the sign of the value. -/
theorem floorIsGreatestIntegerBelow : Obligations.FloorIsGreatestIntegerBelow := by
  intro neg mag
  have hfloor := ffloor_fin neg mag
  have hbounds := floorUnits_bounds unitsPerOne_pos neg mag
  rw [← unitsPerOne_cast]
  generalize unitsPerOne = unit at hfloor hbounds ⊢
  exact ⟨_, _, hfloor, signedUnits_mul _ _ _, hbounds⟩

end Sys2Proof.Proofs
end

