-- ==== Sys2Proof/Proofs/NearestEven.lean ====
section
/-!
PROOFS. Rounding is roundTiesToEven: it answers the nearest magnitude of 53 significant bits, the even one on a tie
(00_scope R9), and with it each arithmetic operation is the exact result rounded once.
-/
namespace Sys2Proof.Proofs

open Sys2Proof Sys2Proof.Machine

/-- How far the magnitude `m` is from `num / den`, in units of `1 / den`. -/
def distance (num den m : Nat) : Nat := ((num : Int) - m * den).natAbs

/-- One of the two differences is cut off at 0. -/
theorem distance_eq (num den m : Nat) : distance num den m = (num - m * den) + (m * den - num) := by
  rw [distance, ← Nat.cast_mul]
  omega

/-! ### The nearest multiple of a step -/

/-- No multiple of the step is nearer than the chosen one, and on a tie the chosen one is even. -/
theorem nearestQuotient_nearest (num : Nat) {step : Nat} (hstep : 0 < step) (k : Nat) :
    distance num step (nearestQuotient num step) ≤ distance num step k ∧
      (distance num step (nearestQuotient num step) = distance num step k → k ≠ nearestQuotient num step →
        nearestQuotient num step % 2 = 0) := by
  have hdiv := Nat.div_add_mod num step
  have hmod := Nat.mod_lt num hstep
  rw [Nat.mul_comm] at hdiv
  generalize hq : num / step = q at hdiv
  have hk : k + 1 ≤ q ∧ k * step + step ≤ q * step ∨ k = q ∨ k = q + 1 ∨
      q + 2 ≤ k ∧ q * step + 2 * step ≤ k * step := by
    obtain hlt | rfl | hgt := Nat.lt_trichotomy k q
    · exact .inl ⟨hlt, by rw [← Nat.succ_mul]; exact Nat.mul_le_mul_right step hlt⟩
    · exact .inr (.inl rfl)
    · obtain rfl | hgt' := Nat.eq_or_lt_of_le (Nat.succ_le_of_lt hgt)
      · exact .inr (.inr (.inl rfl))
      · exact .inr (.inr (.inr ⟨hgt', by rw [← Nat.add_mul]; exact Nat.mul_le_mul_right step hgt'⟩))
  have hnext : (q + 1) * step = q * step + step := Nat.succ_mul q step
  have hchosen : nearestQuotient num step = q ∧ 2 * (num % step) < step ∨
      nearestQuotient num step = q + 1 ∧ step < 2 * (num % step) ∨
      2 * (num % step) = step ∧ (nearestQuotient num step = q ∨ nearestQuotient num step = q + 1) ∧
        nearestQuotient num step % 2 = 0 := by
    unfold nearestQuotient
    rw [hq]
    split_ifs <;> omega
  generalize nearestQuotient num step = c at hchosen ⊢
  have hc : c = q ∨ c = q + 1 := by omega
  rw [distance_eq, distance_eq]
  obtain rfl | rfl := hc <;> obtain hk | rfl | rfl | hk := hk <;> omega

theorem distance_mul (num den u k : Nat) : distance num (den * u) k = distance num den (k * u) := by
  rw [distance_eq, distance_eq, Nat.mul_assoc, Nat.mul_comm den u]

/-- A magnitude of 53 significant bits that is no multiple of the unit lies below the power of two under
`num / den`, which is a multiple and nearer. -/
theorem exists_multiple_as_near {num den m : Nat} (hden : 0 < den) (h : Representable m) :
    ∃ k, distance num den (k * ulpAt (num / den)) ≤ distance num den m ∧
      (distance num den (k * ulpAt (num / den)) = distance num den m → m = k * ulpAt (num / den)) := by
  by_cases hdvd : ulpAt (num / den) ∣ m
  · obtain ⟨k, rfl⟩ := hdvd
    exact ⟨k, by rw [Nat.mul_comm k], fun _ => Nat.mul_comm _ _⟩
  · have hlog : m.log2 < (num / den).log2 := by
      by_contra hge
      have hulp : ulpAt (num / den) ∣ ulpAt m := Nat.pow_dvd_pow 2 (by omega)
      exact hdvd (hulp.trans (ulpAt_dvd h))
    have hbelow : m < 2 ^ (num / den).log2 :=
      Nat.lt_log2_self.trans_le (Nat.pow_le_pow_right (by decide) hlog)
    have hne : num / den ≠ 0 := by
      intro hzero
      simp [hzero] at hlog
    have hpow : 2 ^ (num / den).log2 * den ≤ num :=
      (Nat.le_div_iff_mul_le hden).mp (Nat.log2_self_le hne)
    have hlt : m * den < 2 ^ (num / den).log2 * den := Nat.mul_lt_mul_of_pos_right hbelow hden
    obtain ⟨k, hk⟩ : ulpAt (num / den) ∣ 2 ^ (num / den).log2 := Nat.pow_dvd_pow 2 (Nat.sub_le _ _)
    rw [hk, Nat.mul_comm _ k] at hpow hlt
    refine ⟨k, ?_, ?_⟩ <;> rw [distance_eq, distance_eq] <;> omega

/-! ### The nearest representable magnitude -/

/-- An even multiple of the unit has an even significand; where it has 54 bits it is a power of two. -/
theorem roundMag_significand_even {num den : Nat}
    (h : nearestQuotient num (den * ulpAt (num / den)) % 2 = 0) :
    roundMag num den / ulpAt (roundMag num den) % 2 = 0 := by
  have heq := roundMag_eq_nearestQuotient num den
  generalize nearestQuotient num (den * ulpAt (num / den)) = c at h heq
  obtain hzero | hne := Nat.eq_zero_or_pos (roundMag num den)
  · simp [hzero]
  have hhi := roundMag_le_two_pow num den
  have hlo : 2 ^ (num / den).log2 ≤ roundMag num den := by
    by_cases hzero : num / den = 0
    · rw [hzero]
      exact hne
    · exact two_pow_le_roundMag hzero
  obtain hlt | htop := Nat.lt_or_eq_of_le hhi
  · have hlog : (roundMag num den).log2 = (num / den).log2 := (Nat.log2_eq_iff hne.ne').mpr ⟨hlo, hlt⟩
    have hulp : ulpAt (roundMag num den) = ulpAt (num / den) := by rw [ulpAt, ulpAt, hlog]
    rw [hulp, heq, Nat.mul_div_cancel _ (ulpAt_pos _)]
    exact h
  · rw [htop, ulpAt, Nat.log2_two_pow, Nat.pow_div (by omega) (by decide)]
    obtain ⟨j, hj⟩ := Nat.exists_eq_add_one.mpr
      (by omega : 0 < (num / den).log2 + 1 - ((num / den).log2 + 1 - 52))
    rw [hj, Nat.pow_succ, Nat.mul_mod_left]

theorem roundMag_nearestEven {num den : Nat} (hden : 0 < den) : NearestEven num den (roundMag num den) := by
  have hround := roundMag_eq_nearestQuotient num den
  have hstep : 0 < den * ulpAt (num / den) := Nat.mul_pos hden (ulpAt_pos _)
  have hnearest := nearestQuotient_nearest num hstep
  simp only [distance_mul, ← hround] at hnearest
  refine ⟨roundMag_representable num den, fun m' hm' => ?nearest, fun m' hm' hne hdist => ?tie⟩
  case nearest =>
    obtain ⟨k, hk, -⟩ := exists_multiple_as_near (num := num) hden hm'
    exact (hnearest k).1.trans hk
  case tie =>
    obtain ⟨k, hk, hmul⟩ := exists_multiple_as_near (num := num) hden hm'
    obtain ⟨hle, heven⟩ := hnearest k
    have hdist' : distance num den (roundMag num den) = distance num den m' := hdist
    have hm'k : m' = k * ulpAt (num / den) := hmul (by omega)
    refine roundMag_significand_even (heven (hm'k ▸ hdist') ?_)
    rintro rfl
    exact hne (hm'k.trans hround.symm)

theorem roundF64_roundsTo (neg : Bool) (num : Nat) {den : Nat} (hden : 0 < den) :
    RoundsTo neg num den (roundF64 neg num den) :=
  ⟨roundMag num den, roundMag_nearestEven hden, rfl⟩

/-! ### The operations -/

theorem fsub_fin (a b : Bool) (m n : Nat) : fsub (.fin a m) (.fin b n) = fadd (.fin a m) (.fin (!b) n) := rfl

theorem fdiv_fin (a b : Bool) (m : Nat) {n : Nat} (hn : n ≠ 0) :
    fdiv (.fin a m) (.fin b n) = roundF64 (a != b) (m * unitsPerOne) n := by
  simp only [fdiv, if_neg hn]

theorem fadd_roundsTo (a b : Bool) (m n : Nat) (h : signedUnits a m + signedUnits b n ≠ 0) :
    RoundsTo (decide (signedUnits a m + signedUnits b n < 0)) (signedUnits a m + signedUnits b n).natAbs 1
      (fadd (.fin a m) (.fin b n)) := by
  rw [fadd_rounds a b m n h]
  exact roundF64_roundsTo _ _ one_pos

/-- Settles O34. Each operation rounds its exact result once, and rounding answers the nearest magnitude. -/
theorem binary64OperationsRoundCorrectly : Obligations.Binary64OperationsRoundCorrectly := by
  refine ⟨fadd_roundsTo, fadd_zero_sum, fun a b m n h => ?equal, fun a b m n h => ?differ, fun a b m n => ?product,
    fun a b m n hn => ?quotient, fun n hn => ?integer⟩
  case equal =>
    rw [fsub_fin]
    exact fadd_zero_sum a (!b) m n (by rw [signedUnits_not]; omega)
  case differ =>
    have hsum : signedUnits a m + signedUnits (!b) n = signedUnits a m - signedUnits b n := by
      rw [signedUnits_not]; omega
    have hround := fadd_roundsTo a (!b) m n (by omega)
    rw [hsum, ← fsub_fin] at hround
    rwa [decide_eq_decide.mpr sub_neg] at hround
  case product =>
    rw [fmul_fin, ← unitsPerOne_eq]
    exact roundF64_roundsTo _ _ unitsPerOne_pos
  case quotient =>
    rw [fdiv_fin a b m hn, ← unitsPerOne_eq]
    exact roundF64_roundsTo _ _ (Nat.pos_of_ne_zero hn)
  case integer =>
    rw [← unitsPerOne_eq]
    exact toF64_exact hn

end Sys2Proof.Proofs
end

