-- ==== Sys2Proof/Proofs/Numbers.lean ====
section
/-!
PROOFS. Finite binary64 values as the numbers they stand for, in units of 2^-1074: their order, their rounded sums,
their floors (00_scope R9). The laws of the range samplers are proved over these numbers.
-/
namespace Sys2Proof.Proofs

open Sys2Proof Sys2Proof.Machine

/-- `x` is a finite value with a pattern, and stands for `z` units. -/
structure IsNumber (x : F64) (z : Int) : Prop where
  fin : ∃ neg, x = .fin neg z.natAbs ∧ signedUnits neg z.natAbs = z
  representable : Representable z.natAbs
  below : z.natAbs < overflowMag

theorem natAbs_signedUnits (neg : Bool) (m : Nat) : (signedUnits neg m).natAbs = m := by
  cases neg <;> simp

theorem isNumber_fin (neg : Bool) {m : Nat} (hrep : Representable m) (hlt : m < overflowMag) :
    IsNumber (.fin neg m) (signedUnits neg m) where
  fin := ⟨neg, by rw [natAbs_signedUnits], by rw [natAbs_signedUnits]⟩
  representable := by rwa [natAbs_signedUnits]
  below := by rwa [natAbs_signedUnits]

namespace IsNumber

variable {x y : F64} {z w : Int}

theorem isFinite (h : IsNumber x z) : isFinite x = true := by
  obtain ⟨neg, rfl, -⟩ := h.fin
  rfl

/-- `RES` holds such a value unchanged. -/
theorem f64_enc64 (h : IsNumber x z) : f64 (enc64 x) = x := by
  obtain ⟨neg, rfl, -⟩ := h.fin
  exact f64_enc64_fin neg h.representable h.below

theorem fle_iff (hx : IsNumber x z) (hy : IsNumber y w) : fle x y = true ↔ z ≤ w := by
  obtain ⟨a, rfl, hz⟩ := hx.fin
  obtain ⟨b, rfl, hw⟩ := hy.fin
  rw [fle_fin, hz, hw, decide_eq_true_eq]

theorem flt_iff (hx : IsNumber x z) (hy : IsNumber y w) : flt x y = true ↔ z < w := by
  obtain ⟨a, rfl, hz⟩ := hx.fin
  obtain ⟨b, rfl, hw⟩ := hy.fin
  rw [flt_fin, hz, hw, decide_eq_true_eq]

end IsNumber

/-! ### Patterns and integers -/

theorem representable_of_lt {m : Nat} (h : m < 2 ^ 53) : Representable m := ⟨m, 0, h, by rw [pow_zero, mul_one]⟩

theorem lt_overflowMag_of_lt {m : Nat} (h : m < 2 ^ 53) : m < overflowMag :=
  (Nat.le_mul_of_pos_right m unitsPerOne_pos).trans_lt (units_lt_overflowMag h)

/-- Every finite pattern stands for a number. -/
theorem exists_isNumber_f64 {b : DWord} (h : isFinite (f64 b) = true) : ∃ z, IsNumber (f64 b) z := by
  obtain ⟨neg, expo, frac, hexpo, hfrac, rfl⟩ := exists_packF64_of_isFinite h
  rw [f64_packF64 neg hexpo hfrac]
  split
  · exact ⟨_, isNumber_fin neg (representable_of_lt (by omega)) (lt_overflowMag_of_lt (by omega))⟩
  · refine ⟨_, isNumber_fin neg ⟨2 ^ 52 + frac, expo - 1, by omega, rfl⟩ ?_⟩
    calc (2 ^ 52 + frac) * 2 ^ (expo - 1) < 2 ^ 53 * 2 ^ (expo - 1) :=
          Nat.mul_lt_mul_of_pos_right (by omega) (Nat.two_pow_pos _)
      _ ≤ overflowMag := by
          rw [overflowMag_eq, ← pow_add]
          exact pow_le_pow_right₀ one_le_two (by omega)

/-- A whole number of at most 54 bits, 2^53 at the most, is representable. -/
theorem representable_units_of_le {k : Nat} (h : k ≤ 2 ^ 53) : Representable (k * unitsPerOne) := by
  obtain hlt | rfl := Nat.lt_or_eq_of_le h
  · exact representable_units hlt
  · exact ⟨2 ^ 52, 1075, by decide, by rw [unitsPerOne_eq, ← pow_add, ← pow_add]⟩

theorem units_lt_overflowMag_of_le {k : Nat} (h : k ≤ 2 ^ 53) : k * unitsPerOne < overflowMag := by
  rw [overflowMag_eq_mul]
  exact Nat.mul_lt_mul_of_pos_right (h.trans_lt (pow_lt_pow_right₀ (by decide) (by decide))) unitsPerOne_pos

section Integer

variable {n : Int} (h : n.natAbs ≤ 2 ^ 53)

include h

/-- An integer up to 2^53 converts exactly. -/
theorem toF64_exact_of_le : toF64 n = .fin (decide (n < 0)) (n.natAbs * unitsPerOne) := by
  have hround := roundF64_exact (decide (n < 0)) (representable_units_of_le h) (units_lt_overflowMag_of_le h)
    Nat.one_pos
  rwa [Nat.mul_one] at hround

theorem isNumber_toF64 : IsNumber (toF64 n) (n * unitsPerOne) := by
  have hsigned : signedUnits (decide (n < 0)) n.natAbs = n := by
    by_cases hneg : n < 0
    · rw [decide_eq_true hneg, signedUnits_true]; omega
    · rw [decide_eq_false hneg, signedUnits_false]; omega
  have hnumber := isNumber_fin (decide (n < 0)) (representable_units_of_le h) (units_lt_overflowMag_of_le h)
  rwa [← toF64_exact_of_le h, signedUnits_mul, hsigned] at hnumber

/-- The one value of the number `n` that is not −0.0 is `toF64 n`. -/
theorem IsNumber.eq_toF64 {x : F64} (hx : IsNumber x (n * unitsPerOne)) (hzero : x ≠ .fin true 0) :
    x = toF64 n := by
  obtain ⟨neg, rfl, hsigned⟩ := hx.fin
  have hunit : (0 : Int) < unitsPerOne := Int.natCast_pos.mpr unitsPerOne_pos
  have hmag : (n * unitsPerOne).natAbs = n.natAbs * unitsPerOne := by rw [Int.natAbs_mul, Int.natAbs_natCast]
  have hsign : neg = decide (n < 0) := by
    cases neg with
    | false =>
      have hnonneg : 0 ≤ n * (unitsPerOne : Int) := hsigned ▸ Int.natCast_nonneg _
      rw [decide_eq_false (not_lt.mpr (nonneg_of_mul_nonneg_left hnonneg hunit))]
    | true =>
      have hnonpos : n * (unitsPerOne : Int) ≤ 0 := by
        rw [← hsigned, signedUnits_true]
        exact Int.neg_nonpos_of_nonneg (Int.natCast_nonneg _)
      have hne : n ≠ 0 := by
        rintro rfl
        simp at hzero
      rw [decide_eq_true (lt_of_le_of_ne (nonpos_of_mul_nonpos_left hnonpos hunit) hne)]
  rw [toF64_exact_of_le h, hmag, hsign]

end Integer

/-! ### Rounded sums -/

/-- The number of a sum of `z` units, rounded once, the exponent unbounded above. -/
def roundInt (z : Int) : Int := signedUnits (decide (z < 0)) (roundMag z.natAbs 1)

theorem natAbs_roundInt (z : Int) : (roundInt z).natAbs = roundMag z.natAbs 1 := natAbs_signedUnits _ _

theorem roundInt_of_nonneg {z : Int} (h : 0 ≤ z) : roundInt z = roundMag z.natAbs 1 := by
  rw [roundInt, decide_eq_false (not_lt.mpr h), signedUnits_false]

theorem roundInt_of_neg {z : Int} (h : z < 0) : roundInt z = -(roundMag z.natAbs 1 : Int) := by
  rw [roundInt, decide_eq_true h, signedUnits_true]

theorem roundInt_mono {z w : Int} (h : z ≤ w) : roundInt z ≤ roundInt w := by
  obtain hz | hz := lt_or_ge z 0
  · obtain hw | hw := lt_or_ge w 0
    · have hmono := roundMag_mono 1 (by omega : w.natAbs ≤ z.natAbs)
      rw [roundInt_of_neg hz, roundInt_of_neg hw]
      omega
    · rw [roundInt_of_neg hz, roundInt_of_nonneg hw]
      omega
  · have hmono := roundMag_mono 1 (by omega : z.natAbs ≤ w.natAbs)
    rw [roundInt_of_nonneg hz, roundInt_of_nonneg (hz.trans h)]
    omega

theorem roundMag_one_exact {m : Nat} (h : Representable m) : roundMag m 1 = m := by
  have hexact := roundMag_exact h one_pos
  rwa [mul_one] at hexact

theorem roundInt_exact {z : Int} (h : Representable z.natAbs) : roundInt z = z := by
  rw [roundInt, roundMag_one_exact h]
  by_cases hz : z < 0
  · rw [decide_eq_true hz, signedUnits_true]; omega
  · rw [decide_eq_false hz, signedUnits_false]; omega

theorem representable_zero : Representable 0 := representable_of_lt (by decide)

section Sum

variable {x y : F64} {z w : Int} (hx : IsNumber x z) (hy : IsNumber y w)

include hx hy

/-- A sum whose rounded magnitude does not overflow is the rounded number. -/
theorem isNumber_fadd (hlt : (roundInt (z + w)).natAbs < overflowMag) : IsNumber (fadd x y) (roundInt (z + w)) := by
  obtain ⟨a, rfl, hz⟩ := hx.fin
  obtain ⟨b, rfl, hw⟩ := hy.fin
  rw [natAbs_roundInt] at hlt
  by_cases hzero : z + w = 0
  · rw [fadd_zero_sum a b _ _ (by rw [hz, hw, hzero]), hzero, roundInt_exact (z := 0) representable_zero]
    have hnumber := isNumber_fin (a && b) representable_zero (pos_of_gt hlt)
    rwa [show signedUnits (a && b) 0 = 0 by cases a && b <;> rfl] at hnumber
  · rw [fadd_rounds a b _ _ (by rwa [hz, hw]), hz, hw, roundF64, if_neg (not_le.mpr hlt)]
    exact isNumber_fin _ (roundMag_representable _ _) hlt

/-- A rounded sum between two numbers does not overflow. -/
theorem isNumber_fadd_of_mem {l u : F64} {lo hi : Int} (hl : IsNumber l lo) (hu : IsNumber u hi)
    (hlo : lo ≤ roundInt (z + w)) (hhi : roundInt (z + w) ≤ hi) : IsNumber (fadd x y) (roundInt (z + w)) := by
  have hbelow := hl.below
  have hbelow' := hu.below
  exact isNumber_fadd hx hy (by omega)

end Sum

/-! ### Floors -/

theorem floorUnits_eq_ediv {unit : Nat} (hunit : 0 < unit) (neg : Bool) (mag : Nat) :
    signedUnits neg (floorUnits unit neg mag) = signedUnits neg mag / unit := by
  have hunit' : (0 : Int) < unit := Int.natCast_pos.mpr hunit
  obtain ⟨hle, hlt⟩ := floorUnits_bounds hunit neg mag
  rw [signedUnits_mul] at hle
  exact le_antisymm ((Int.le_ediv_iff_mul_le hunit').mpr hle)
    (Int.lt_add_one_iff.mp ((Int.ediv_lt_iff_lt_mul hunit').mpr hlt))

theorem floorUnits_mul {unit : Nat} (hunit : 0 < unit) (neg : Bool) (k : Nat) :
    floorUnits unit neg (k * unit) = k := by
  cases neg with
  | false => rw [floorUnits, if_neg Bool.false_ne_true, Nat.mul_div_cancel _ hunit]
  | true =>
    have hpred : unit - 1 < unit := Nat.sub_lt hunit one_pos
    rw [floorUnits, if_pos rfl, Nat.add_sub_assoc (show 1 ≤ unit from hunit), Nat.mul_comm, Nat.mul_add_div hunit,
      Nat.div_eq_of_lt hpred, Nat.add_zero]

theorem floorUnits_le {unit : Nat} (hunit : 0 < unit) (neg : Bool) {mag k : Nat} (h : mag ≤ k * unit) :
    floorUnits unit neg mag ≤ k := by
  cases neg with
  | false =>
    rw [floorUnits, if_neg Bool.false_ne_true]
    exact Nat.div_le_of_le_mul (Nat.mul_comm k unit ▸ h)
  | true =>
    rw [floorUnits, if_pos rfl, ← Nat.lt_succ_iff, Nat.div_lt_iff_lt_mul hunit, Nat.succ_mul]
    omega

theorem le_log2_of_two_pow_le {m i : Nat} (hne : m ≠ 0) (h : 2 ^ i ≤ m) : i ≤ m.log2 := (Nat.le_log2 hne).mpr h

/-- A magnitude of 2^53 or more is a whole number, a smaller one has a floor of at most 2^53. -/
theorem floorUnits_cases (neg : Bool) {mag : Nat} (hrep : Representable mag) :
    floorUnits unitsPerOne neg mag ≤ 2 ^ 53 ∨ floorUnits unitsPerOne neg mag * unitsPerOne = mag := by
  obtain hle | hlt := le_or_gt mag (2 ^ 53 * unitsPerOne)
  · exact .inl (floorUnits_le unitsPerOne_pos neg hle)
  · have hne : mag ≠ 0 := (pos_of_gt hlt).ne'
    rw [unitsPerOne_eq, ← pow_add] at hlt
    have hlog : 53 + 1074 ≤ mag.log2 := le_log2_of_two_pow_le hne hlt.le
    obtain ⟨k, hk⟩ : unitsPerOne ∣ mag := by
      rw [unitsPerOne_eq]
      exact (pow_dvd_pow 2 (by omega)).trans (ulpAt_dvd hrep)
    rw [Nat.mul_comm] at hk
    exact .inr (by rw [hk, floorUnits_mul unitsPerOne_pos])

theorem isNumber_ffloor {x : F64} {z : Int} (hx : IsNumber x z) :
    IsNumber (ffloor x) (z / unitsPerOne * unitsPerOne) := by
  obtain ⟨neg, rfl, hsigned⟩ := hx.fin
  rw [ffloor_fin]
  have hvalue : signedUnits neg (floorUnits unitsPerOne neg z.natAbs * unitsPerOne) =
      z / unitsPerOne * unitsPerOne := by
    rw [signedUnits_mul, floorUnits_eq_ediv unitsPerOne_pos, hsigned]
  rw [← hvalue]
  obtain hsmall | hwhole := floorUnits_cases neg hx.representable
  · exact isNumber_fin neg (representable_units_of_le hsmall) (units_lt_overflowMag_of_le hsmall)
  · rw [hwhole]
    exact isNumber_fin neg hx.representable hx.below

end Sys2Proof.Proofs
end

