-- ==== Sys2Proof/Proofs/Ranges.lean ====
section
/-!
PROOFS. The range samplers (42_sampler R142 to R152): between accepted bounds the scaled draw never exceeds the
exact difference of the bounds, so every result lies between them, and for integer bounds strictly below the upper.
-/
namespace Sys2Proof.Proofs

open Sys2Proof Sys2Proof.Machine

/-! ### A draw times a magnitude -/

/-- The magnitude of `Unit(k)` times the magnitude `d`, rounded once. -/
def scaledMag (k d : Nat) : Nat := roundMag (unitMag k * d) unitsPerOne

theorem scaledMag_mono {k k' : Nat} (h : k ≤ k') (d : Nat) : scaledMag k d ≤ scaledMag k' d :=
  roundMag_mono _ (Nat.mul_le_mul_right d (unitMag_mono h))

/-- Rounding does not pass a representable magnitude that the exact quotient does not pass. -/
theorem roundMag_le_of_le_mul {num den c : Nat} (hden : 0 < den) (hc : Representable c) (h : num ≤ c * den) :
    roundMag num den ≤ c :=
  (roundMag_mono den h).trans_eq (roundMag_exact hc hden)

/-- 2^-31 is 2^1043 units. -/
theorem unitsPerOne_eq_mul : unitsPerOne = 2 ^ 1043 * 2147483648 := by
  rw [unitsPerOne_eq, show 2147483648 = 2 ^ 31 from rfl, ← pow_add]

/-- `UMAX` is 1 − 2^-31 (42_sampler R140). -/
theorem umaxMag_mul : umaxMag * 2147483648 = 2147483647 * unitsPerOne := by
  have humax : umaxMag = unitsPerOne - 2 ^ 1043 := by rw [umaxMag, unitsPerOne_eq]
  rw [humax, unitsPerOne_eq_mul]
  generalize 2 ^ 1043 = h
  omega

section Draw

variable {k d : Nat} (hk : k < 2147483647) (hd : Representable d)

include hk hd

/-- `Unit` is below 1, so it makes no magnitude larger. -/
theorem scaledMag_le : scaledMag k d ≤ d := by
  refine roundMag_le_of_le_mul unitsPerOne_pos hd ?_
  rw [Nat.mul_comm d]
  exact Nat.mul_le_mul_right d ((unitMag_le_umaxMag hk).trans umaxMag_lt_unitsPerOne.le)

/-- `Unit` takes off a normal magnitude at least 2^-31 of its leading bit, and rounding puts nothing back. -/
theorem scaledMag_le_sub (hnormal : 2 ^ 52 ≤ d) : scaledMag k d ≤ d - 2 ^ (d.log2 - 31) := by
  have hne : d ≠ 0 := by omega
  have hlog : 52 ≤ d.log2 := (Nat.le_log2 hne).mpr hnormal
  have hlead : 2 ^ (d.log2 - 31) * 2147483648 ≤ d := by
    have hpow : 2 ^ (d.log2 - 31) * 2147483648 = 2 ^ d.log2 := by
      rw [show 2147483648 = 2 ^ 31 from rfl, ← pow_add, Nat.sub_add_cancel (by omega)]
    rw [hpow]
    exact Nat.log2_self_le hne
  refine roundMag_le_of_le_mul unitsPerOne_pos ?representable ?product
  case representable =>
    obtain ⟨-, hsig⟩ := significand_bounds hnormal
    have hwhole : d / ulpAt d * 2 ^ (d.log2 - 52) = d := Nat.div_mul_cancel (ulpAt_dvd hd)
    have hstep : 2 ^ (d.log2 - 31) = 2 ^ 21 * 2 ^ (d.log2 - 52) := by
      rw [← pow_add]; congr 1; omega
    exact ⟨d / ulpAt d - 2 ^ 21, d.log2 - 52, by omega, by rw [Nat.sub_mul, hwhole, hstep]⟩
  case product =>
    have hle : unitMag k * d ≤ umaxMag * d := Nat.mul_le_mul_right d (unitMag_le_umaxMag hk)
    generalize 2 ^ (d.log2 - 31) = t at hlead
    refine hle.trans (Nat.le_of_mul_le_mul_right (c := 2147483648) ?_ (by decide))
    calc umaxMag * d * 2147483648 = 2147483647 * d * unitsPerOne := by
          rw [Nat.mul_right_comm, umaxMag_mul]; ring
      _ ≤ (d - t) * 2147483648 * unitsPerOne := Nat.mul_le_mul_right _ (by omega)
      _ = (d - t) * unitsPerOne * 2147483648 := Nat.mul_right_comm _ _ _

end Draw

/-- Rounding gains less than one unit in the last place. -/
theorem roundMag_le_add_ulpAt (n : Nat) : roundMag n 1 ≤ n + ulpAt n := by
  rw [roundMag_eq_nearestQuotient, Nat.div_one, Nat.one_mul]
  calc nearestQuotient n (ulpAt n) * ulpAt n ≤ (n / ulpAt n + 1) * ulpAt n :=
        Nat.mul_le_mul_right _ (nearestQuotient_le_div_add_one n _)
    _ ≤ n + ulpAt n := by
        rw [Nat.succ_mul]
        exact Nat.add_le_add_right (Nat.div_mul_le_self n _) _

/-- The scaled draw never exceeds the exact difference of the bounds, though their rounded difference may: where
the difference is rounded, the unit it may gain is less than what `Unit` takes off. -/
theorem scaledMag_roundMag_le {k n : Nat} (hk : k < 2147483647) : scaledMag k (roundMag n 1) ≤ n := by
  by_cases hrep : Representable n
  · rw [roundMag_one_exact hrep]
    exact scaledMag_le hk hrep
  · have hbig : 2 ^ 53 ≤ n := by
      by_contra hsmall
      exact hrep (representable_of_lt (by omega))
    have hne : n ≠ 0 := by omega
    have hlow : 2 ^ n.log2 ≤ roundMag n 1 := by
      have hpow := two_pow_le_roundMag (num := n) (den := 1) (by rwa [Nat.div_one])
      rwa [Nat.div_one] at hpow
    have hlog : n.log2 ≤ (roundMag n 1).log2 :=
      (Nat.le_log2 ((Nat.two_pow_pos _).trans_le hlow).ne').mpr hlow
    have hup := roundMag_le_add_ulpAt n
    have htaken : ulpAt n ≤ 2 ^ ((roundMag n 1).log2 - 31) :=
      Nat.pow_le_pow_right (by decide) (by omega)
    have hnormal : 2 ^ 52 ≤ roundMag n 1 :=
      (Nat.pow_le_pow_right (by decide) ((Nat.le_log2 hne).mpr (by omega))).trans hlow
    have hscaled := scaledMag_le_sub hk (roundMag_representable n 1) hnormal
    omega

/-! ### Products and differences -/

/-- A product with `Unit(k)` keeps the sign of the other factor. -/
theorem isNumber_fmul_unitOf {k d : Nat} (hk : k < 2147483647) (neg : Bool) (hd : Representable d)
    (hlt : d < overflowMag) :
    fmul (unitOf k) (.fin neg d) = .fin neg (scaledMag k d) ∧
      IsNumber (.fin neg (scaledMag k d)) (signedUnits neg (scaledMag k d)) := by
  have hbelow : scaledMag k d < overflowMag := (scaledMag_le hk hd).trans_lt hlt
  refine ⟨?_, isNumber_fin neg (roundMag_representable _ _) hbelow⟩
  rw [unitOf_natCast hk, fmul_fin, Bool.false_bne]
  exact if_neg (not_le.mpr hbelow)

section Difference

variable {x y : F64} {A B : Int} (hx : IsNumber x A) (hy : IsNumber y B) (hlt : A < B)

include hx hy hlt

/-- A difference of a number and a smaller one is rounded once. -/
theorem fsub_eq_roundF64 : fsub y x = roundF64 false (B - A).natAbs 1 := by
  obtain ⟨a, rfl, hA⟩ := hx.fin
  obtain ⟨b, rfl, hB⟩ := hy.fin
  have hsum : signedUnits b B.natAbs + signedUnits (!a) A.natAbs = B - A := by
    rw [signedUnits_not, hA, hB, Int.sub_eq_add_neg]
  rw [fsub_fin, fadd_rounds _ _ _ _ (by omega), hsum, decide_eq_false (by omega)]

theorem fsub_eq_fin (hfin : isFinite (fsub y x) = true) :
    fsub y x = .fin false (roundMag (B - A).natAbs 1) ∧ roundMag (B - A).natAbs 1 < overflowMag := by
  rw [fsub_eq_roundF64 hx hy hlt] at hfin ⊢
  obtain ⟨-, hinf⟩ | ⟨hbelow, hround⟩ := roundF64_cases false (B - A).natAbs 1
  · rw [hinf] at hfin
    cases hfin
  · exact ⟨hround, hbelow⟩

end Difference

/-- A rounded sum is -0.0 only where both addends are. -/
theorem fadd_nonneg_ne_negZero (m : Nat) {y : F64} {z : Int} (hy : IsNumber y z) :
    fadd (.fin false m) y ≠ .fin true 0 := by
  obtain ⟨b, rfl, hz⟩ := hy.fin
  by_cases hsum : signedUnits false m + signedUnits b z.natAbs = 0
  · rw [fadd_zero_sum _ _ _ _ hsum]
    simp
  · rw [fadd_rounds _ _ _ _ hsum]
    have hpos : 1 ≤ roundMag (signedUnits false m + signedUnits b z.natAbs).natAbs 1 := by
      have hmono := roundMag_mono (num := 1) 1 (by omega :
        1 ≤ (signedUnits false m + signedUnits b z.natAbs).natAbs)
      rwa [roundMag_one_exact (representable_of_lt (by decide))] at hmono
    intro hzero
    obtain ⟨-, h⟩ | ⟨-, h⟩ := roundF64_cases (decide (signedUnits false m + signedUnits b z.natAbs < 0))
      (signedUnits false m + signedUnits b z.natAbs).natAbs 1
    · cases h.symm.trans hzero
    · obtain ⟨-, hmag⟩ := F64.fin.inj (h.symm.trans hzero)
      omega

/-! ### Values between two bounds -/

/-- `x` and `y`, the numbers `A` and `B`, pass the checks of the both-bounds shapes (42_sampler R142). -/
structure AcceptedBounds (x y : F64) (A B : Int) : Prop where
  min : IsNumber x A
  max : IsNumber y B
  lt : A < B
  diff : isFinite (fsub y x) = true

/-- The formula of `NEXT.MM` and `NEXTI.MM` (42_sampler R146, R150); `betweenBounds` is its value at the operands. -/
def between (x y : F64) (r : Int) : F64 := fadd (fmul (unitOf r) (fsub y x)) x

/-- The number the formula stands for at the draw `k`. -/
def betweenUnits (A B : Int) (k : Nat) : Int := roundInt (scaledMag k (roundMag (B - A).natAbs 1) + A)

theorem betweenUnits_mono (A B : Int) {k k' : Nat} (h : k ≤ k') : betweenUnits A B k ≤ betweenUnits A B k' :=
  roundInt_mono (by have := scaledMag_mono h (roundMag (B - A).natAbs 1); omega)

namespace AcceptedBounds

variable {x y : F64} {A B : Int} (h : AcceptedBounds x y A B) {k : Nat} (hk : k < 2147483647)

include h

theorem le_betweenUnits : A ≤ betweenUnits A B k := by
  have hround := roundInt_exact h.min.representable
  have hmono := roundInt_mono (by omega : A ≤ scaledMag k (roundMag (B - A).natAbs 1) + A)
  rwa [hround] at hmono

include hk

theorem betweenUnits_le : betweenUnits A B k ≤ B := by
  have hlt := h.lt
  have hscaled := scaledMag_roundMag_le (n := (B - A).natAbs) hk
  have hround := roundInt_exact h.max.representable
  have hmono := roundInt_mono (by omega : scaledMag k (roundMag (B - A).natAbs 1) + A ≤ B)
  rwa [hround] at hmono

/-- The result is never −0.0: a draw is not negative, and a sum that is exactly zero is +0.0 (42_sampler R144). -/
theorem isNumber_between : IsNumber (between x y k) (betweenUnits A B k) ∧ between x y k ≠ .fin true 0 := by
  obtain ⟨hdiff, hbelow⟩ := fsub_eq_fin h.min h.max h.lt h.diff
  obtain ⟨hprod, hnumber⟩ := isNumber_fmul_unitOf hk false (roundMag_representable (B - A).natAbs 1) hbelow
  rw [between, hdiff, hprod]
  refine ⟨isNumber_fadd_of_mem hnumber h.min h.min h.max h.le_betweenUnits (h.betweenUnits_le hk), ?_⟩
  exact fadd_nonneg_ne_negZero _ h.min

end AcceptedBounds

end Sys2Proof.Proofs
end

