-- ==== Sys2Proof/Proofs/RangeLaws.lean ====
section
/-!
PROOFS. The laws of the binary64 samplers (42_sampler R149 to R152, 91_not_in_source N7): the bounds their results
keep, and that every result is finite.
-/
namespace Sys2Proof.Proofs

open Sys2Proof Sys2Proof.Machine

/-! ### A sampler at its draw -/

/-- Under R24 an accepted sampler delivers its value at some draw in [0, M). -/
theorem exec_at_draw {i : Instr} {s : State} {e : Engine} {f : Int → F64} (hf : sampleValue i s = some f)
    (hg : s.gen = .seeded e) (hinv : e.Inv) (hc : operandCheck i s = none) :
    ∃ k : Nat, k < 2147483647 ∧ exec i s = .next (afterDraw s e (enc64 (f k))) := by
  obtain ⟨hlo, hhi⟩ := isResidue_draw hinv.1
  obtain ⟨k, hk, hlt⟩ := exists_natCast_draw hlo hhi
  exact ⟨k, hlt, hk ▸ exec_eq_afterDraw hf hg hc⟩

@[simp] theorem afterDraw_res (s : State) (e : Engine) (res : DWord) : (afterDraw s e res).res = res := rfl

/-- The largest draw is `M - 1`. -/
theorem umax_eq_unitOf : umax = unitOf (2147483646 : Nat) := rfl

section BothBounds

variable {s : State} {A B : Int} (h : AcceptedBounds (minF s) (maxF s) A B)

include h

theorem checkF_accepted : checkF true true s = none :=
  checkF_both_passes s h.min.isFinite h.max.isFinite ((h.min.flt_iff h.max).mpr h.lt) h.diff

theorem execNextMm_at_draw {e : Engine} (hg : s.gen = .seeded e) (hinv : e.Inv) :
    ∃ k : Nat, k < 2147483647 ∧ exec .nextMm s = .next (afterDraw s e (enc64 (between (minF s) (maxF s) k))) :=
  exec_at_draw (i := .nextMm) (f := between (minF s) (maxF s)) rfl hg hinv (checkF_accepted h)

theorem execNextiMm_at_draw {e : Engine} (hg : s.gen = .seeded e) (hinv : e.Inv) :
    ∃ k : Nat, k < 2147483647 ∧
      exec .nextiMm s = .next (afterDraw s e (enc64 (ffloor (between (minF s) (maxF s) k)))) :=
  exec_at_draw (i := .nextiMm) (f := fun r => ffloor (between (minF s) (maxF s) r)) rfl hg hinv (checkF_accepted h)

end BothBounds

/-- Finite bounds in order with a finite difference are accepted. -/
theorem exists_acceptedBounds {a b : DWord} (ha : isFinite (f64 a) = true) (hb : isFinite (f64 b) = true)
    (hlt : fgt (f64 b) (f64 a) = true) (hdiff : isFinite (fsub (f64 b) (f64 a)) = true) :
    ∃ A B, AcceptedBounds (f64 a) (f64 b) A B := by
  obtain ⟨A, hA⟩ := exists_isNumber_f64 ha
  obtain ⟨B, hB⟩ := exists_isNumber_f64 hb
  exact ⟨A, B, hA, hB, (hA.flt_iff hB).mp hlt, hdiff⟩

theorem floorInUnits_mono {z w : Int} (h : z ≤ w) :
    z / unitsPerOne * unitsPerOne ≤ w / unitsPerOne * unitsPerOne :=
  Int.mul_le_mul_of_nonneg_right (Int.ediv_le_ediv (Int.natCast_pos.mpr unitsPerOne_pos) h) (Int.natCast_nonneg _)

/-- Settles O37. The results are numbers between the lower bound and the value at the largest draw; floors keep
the order. -/
theorem rangeSamplersStayWithinExactBounds : Obligations.RangeSamplersStayWithinExactBounds := by
  intro s e hg hinv hmin hmax hlt hdiff
  obtain ⟨A, B, h⟩ := exists_acceptedBounds hmin hmax hlt hdiff
  obtain ⟨k, hk, hnext⟩ := execNextMm_at_draw h hg hinv
  obtain ⟨l, hl, hnexti⟩ := execNextiMm_at_draw h hg hinv
  obtain ⟨hx, -⟩ := h.isNumber_between hk
  obtain ⟨hy, -⟩ := h.isNumber_between hl
  obtain ⟨hlargest, -⟩ := h.isNumber_between (k := 2147483646) (by decide)
  refine ⟨_, _, hnext, hnexti, ?_⟩
  rw [afterDraw_res, afterDraw_res, minF, maxF, hx.f64_enc64, (isNumber_ffloor hy).f64_enc64, umax_eq_unitOf]
  exact ⟨(h.min.fle_iff hx).mpr h.le_betweenUnits,
    (hx.fle_iff hlargest).mpr (betweenUnits_mono A B (by omega)),
    ((isNumber_ffloor h.min).fle_iff (isNumber_ffloor hy)).mpr (floorInUnits_mono h.le_betweenUnits),
    ((isNumber_ffloor hy).fle_iff (isNumber_ffloor hlargest)).mpr
      (floorInUnits_mono (betweenUnits_mono A B (by omega)))⟩

/-! ### When every result is below the upper bound -/

/-- An engine that meets R24 and whose next draw is the largest one. -/
def largestDrawEngine : Engine :=
  { sb := writeSlot (Vector.replicate 56 0#32) 1 0x7FFFFFFE#32, ca := caInit, cb := cbInit }

theorem largestDrawEngine_inv : largestDrawEngine.Inv := by decide

theorem draw_largestDrawEngine : (draw largestDrawEngine).1.toInt = (2147483646 : Nat) := by decide

/-- A seeded block with the two operands, about to make the largest draw. -/
def largestDrawState (a b : DWord) : State :=
  { State.reset with gen := .seeded largestDrawEngine, opa := a, opb := b }

/-- For a sampler whose value grows with the draw, every result is below `y` exactly when the one at the largest
draw is. -/
theorem forall_res_lt_iff {i : Instr} {a b : DWord} {y : F64} {f : Int → F64}
    (hf : ∀ s : State, s.opa = a → s.opb = b → sampleValue i s = some f ∧ operandCheck i s = none)
    (hres : ∀ k : Nat, k < 2147483647 → f64 (enc64 (f k)) = f k)
    (hmono : ∀ k : Nat, k < 2147483647 → flt (f (2147483646 : Nat)) y = true → flt (f k) y = true) :
    (∀ (s t : State) (e : Engine), s.gen = .seeded e → e.Inv → s.opa = a → s.opb = b → exec i s = .next t →
      flt (f64 t.res) y = true) ↔ flt (f (2147483646 : Nat)) y = true := by
  constructor
  · intro hall
    obtain ⟨hvalue, hcheck⟩ := hf (largestDrawState a b) rfl rfl
    have hexec := exec_eq_afterDraw hvalue (e := largestDrawEngine) rfl hcheck
    rw [draw_largestDrawEngine] at hexec
    have hlt := hall _ _ _ rfl largestDrawEngine_inv rfl rfl hexec
    rwa [afterDraw_res, hres _ (by decide)] at hlt
  · intro hlargest s t e hg hinv ha hb ht
    obtain ⟨hvalue, hcheck⟩ := hf s ha hb
    obtain ⟨k, hk, hexec⟩ := exec_at_draw hvalue hg hinv hcheck
    obtain rfl := eq_of_next ht hexec
    rw [afterDraw_res, hres k hk]
    exact hmono k hk hlargest

/-- Settles O60. Both formulas grow with the draw, and the largest draw is that of `largestDrawEngine`. -/
theorem belowMaxExactlyWhenLargestDrawIs : Obligations.BelowMaxExactlyWhenLargestDrawIs := by
  intro a b hmin hmax hlt hdiff
  obtain ⟨A, B, h⟩ := exists_acceptedBounds hmin hmax hlt hdiff
  obtain ⟨hg, -⟩ := h.isNumber_between (k := 2147483646) (by decide)
  rw [umax_eq_unitOf]
  constructor
  · refine forall_res_lt_iff (f := between (f64 a) (f64 b)) ?_ (fun k hk => ?_) fun k hk hlargest => ?_
    · rintro s rfl rfl
      exact ⟨rfl, checkF_accepted h⟩
    · exact (h.isNumber_between hk).1.f64_enc64
    · rw [(h.isNumber_between hk).1.flt_iff h.max]
      exact (betweenUnits_mono A B (by omega)).trans_lt ((hg.flt_iff h.max).mp hlargest)
  · refine forall_res_lt_iff (f := fun r => ffloor (between (f64 a) (f64 b) r)) ?_ (fun k hk => ?_)
      fun k hk hlargest => ?_
    · rintro s rfl rfl
      exact ⟨rfl, checkF_accepted h⟩
    · exact (isNumber_ffloor (h.isNumber_between hk).1).f64_enc64
    · rw [(isNumber_ffloor (h.isNumber_between hk).1).flt_iff h.max]
      exact (floorInUnits_mono (betweenUnits_mono A B (by omega))).trans_lt
        (((isNumber_ffloor hg).flt_iff h.max).mp hlargest)

/-! ### Integer bounds -/

/-- An operand that is the same number as a small integer stands for it, whichever zero it is. -/
theorem isNumber_of_sameNumber {b : DWord} {n : Int} (hn : n.natAbs ≤ 2 ^ 53)
    (h : SameNumber (f64 b) (toF64 n)) : IsNumber (f64 b) (n * unitsPerOne) := by
  have hnumber := isNumber_toF64 hn
  have hfin : isFinite (f64 b) = true :=
    isFinite_of_sameNumber_fin (f64 b) _ _ (toF64_exact_of_le hn ▸ h)
  obtain ⟨z, hz⟩ := exists_isNumber_f64 hfin
  obtain ⟨hle, hge⟩ := h
  rw [hz.fle_iff hnumber] at hle
  rw [hnumber.fle_iff hz] at hge
  exact le_antisymm hle hge ▸ hz

/-- A floor is −0.0 only where its argument is. -/
theorem ffloor_ne_negZero {x : F64} {z : Int} (hx : IsNumber x z) (hne : x ≠ .fin true 0) :
    ffloor x ≠ .fin true 0 := by
  obtain ⟨neg, rfl, -⟩ := hx.fin
  rw [ffloor_fin]
  intro hzero
  obtain ⟨rfl, hmag⟩ := F64.fin.inj hzero
  obtain ⟨hle, -⟩ := div_up_bounds z.natAbs unitsPerOne_pos
  rw [floorUnits, if_pos rfl] at hmag
  rw [hmag] at hle
  exact hne (by rw [Nat.le_zero.mp hle])

/-- The floor of a result in [a, b), in units, is an integer of that range. -/
theorem exists_ffloor_eq_toF64 {x : F64} {X a b : Int} (hx : IsNumber x X) (hne : x ≠ .fin true 0)
    (hlo : a * unitsPerOne ≤ X) (hhi : X < b * unitsPerOne) (ha : -9007199254740992 ≤ a)
    (hb : b ≤ 9007199254740992) : ∃ z, f64 (enc64 (ffloor x)) = toF64 z ∧ a ≤ z ∧ z < b := by
  have hunit : (0 : Int) < unitsPerOne := Int.natCast_pos.mpr unitsPerOne_pos
  have hle : a ≤ X / unitsPerOne := (Int.le_ediv_iff_mul_le hunit).mpr hlo
  have hlt : X / unitsPerOne < b := (Int.ediv_lt_iff_lt_mul hunit).mpr hhi
  refine ⟨X / unitsPerOne, ?_, hle, hlt⟩
  rw [(isNumber_ffloor hx).f64_enc64]
  exact (isNumber_ffloor hx).eq_toF64 (by omega) (ffloor_ne_negZero hx hne)

/-- A scaled whole number `n` stays 2^-31 below `n`. -/
theorem scaledMag_units_le {k n : Nat} (hk : k < 2147483647) (hpos : 0 < n) (hn : n ≤ 2 ^ 53) :
    scaledMag k (n * unitsPerOne) + 2 ^ 1043 ≤ n * unitsPerOne := by
  have hle : 2 ^ 1074 ≤ n * unitsPerOne := by
    rw [← unitsPerOne_eq]
    exact Nat.le_mul_of_pos_left _ hpos
  have hlog : 1074 ≤ (n * unitsPerOne).log2 :=
    le_log2_of_two_pow_le (Nat.mul_pos hpos unitsPerOne_pos).ne' hle
  have hnormal : 2 ^ 52 ≤ n * unitsPerOne := (pow_le_pow_right₀ one_le_two (by decide)).trans hle
  have htaken : 2 ^ 1043 ≤ 2 ^ ((n * unitsPerOne).log2 - 31) := pow_le_pow_right₀ one_le_two (by omega)
  have htop : 2 ^ ((n * unitsPerOne).log2 - 31) ≤ n * unitsPerOne :=
    (pow_le_pow_right₀ one_le_two (Nat.sub_le _ _)).trans
      (Nat.log2_self_le (Nat.mul_pos hpos unitsPerOne_pos).ne')
  have hscaled := scaledMag_le_sub hk (representable_units_of_le hn) hnormal
  generalize 2 ^ 1043 = h at htaken ⊢
  omega

theorem natAbs_units_sub (a b : Int) :
    (b * unitsPerOne - a * unitsPerOne).natAbs = (b - a).natAbs * unitsPerOne := by
  rw [← Int.sub_mul, Int.natAbs_mul, Int.natAbs_natCast]

section Band

variable {x y : F64} {a b : Int} (hx : IsNumber x (a * unitsPerOne)) (hy : IsNumber y (b * unitsPerOne))
  (ha : -4194304 ≤ a) (hlt : a < b) (hb : b ≤ 4194304)

include ha hlt hb

include hx hy in
theorem acceptedBounds_of_band : AcceptedBounds x y (a * unitsPerOne) (b * unitsPerOne) where
  min := hx
  max := hy
  lt := Int.mul_lt_mul_of_pos_right hlt (Int.natCast_pos.mpr unitsPerOne_pos)
  diff := by
    have hsmall : (b - a).natAbs ≤ 2 ^ 53 := by omega
    have hround := roundF64_exact false (representable_units_of_le hsmall)
      (units_lt_overflowMag_of_le hsmall) one_pos
    have hlt' := Int.mul_lt_mul_of_pos_right hlt (Int.natCast_pos.mpr unitsPerOne_pos)
    rw [mul_one] at hround
    rw [fsub_eq_roundF64 hx hy hlt', natAbs_units_sub, hround]
    rfl

/-- 2^-31 below an integer of the band is representable, and no result passes it (42_sampler R152(c)). -/
theorem betweenUnits_lt_of_band {k : Nat} (hk : k < 2147483647) :
    betweenUnits (a * unitsPerOne) (b * unitsPerOne) k < b * unitsPerOne := by
  have hsmall : (b - a).natAbs ≤ 2 ^ 53 := by omega
  have hscaled := scaledMag_units_le hk (by omega : 0 < (b - a).natAbs) hsmall
  have hdiff : ((b - a).natAbs * unitsPerOne : Nat) = b * (unitsPerOne : Int) - a * unitsPerOne := by
    rw [Nat.cast_mul, ← Int.sub_mul, Int.natAbs_of_nonneg (by omega)]
  have hrep : Representable (b * unitsPerOne - (2 ^ 1043 : Nat) : Int).natAbs := by
    have hfactor (h : Nat) : b * ((h * 2147483648 : Nat) : Int) - h = (b * 2147483648 - 1) * h := by
      push_cast
      ring
    refine ⟨(b * 2147483648 - 1).natAbs, 1043, by omega, ?_⟩
    rw [unitsPerOne_eq_mul, hfactor, Int.natAbs_mul, Int.natAbs_natCast]
  have hpos : (0 : Int) < (2 ^ 1043 : Nat) := Int.natCast_pos.mpr (pow_pos two_pos 1043)
  rw [betweenUnits, natAbs_units_sub, roundMag_one_exact (representable_units_of_le hsmall)]
  generalize 2 ^ 1043 = h at hscaled hrep hpos
  calc roundInt (scaledMag k ((b - a).natAbs * unitsPerOne) + a * unitsPerOne)
      ≤ roundInt (b * unitsPerOne - h) := roundInt_mono (by omega)
    _ = b * unitsPerOne - h := roundInt_exact hrep
    _ < b * unitsPerOne := by omega

end Band

/-- Settles O38. The bounds are exact, and so is their difference; the upper end is `betweenUnits_lt_of_band`. -/
theorem integerBandKeepsHalfOpenRange : Obligations.IntegerBandKeepsHalfOpenRange := by
  intro s e a b hg hinv ha hlt hb hopa hopb
  have hmin := isNumber_of_sameNumber (by omega) hopa
  have hmax := isNumber_of_sameNumber (by omega) hopb
  have h : AcceptedBounds (minF s) (maxF s) _ _ := acceptedBounds_of_band hmin hmax ha hlt hb
  obtain ⟨k, hk, hnext⟩ := execNextMm_at_draw h hg hinv
  obtain ⟨l, hl, hnexti⟩ := execNextiMm_at_draw h hg hinv
  obtain ⟨hx, -⟩ := h.isNumber_between hk
  obtain ⟨hy, hzero⟩ := h.isNumber_between hl
  obtain ⟨z, hz, hlo, hhi⟩ := exists_ffloor_eq_toF64 hy hzero h.le_betweenUnits
    (betweenUnits_lt_of_band ha hlt hb hl) (by omega) (by omega)
  refine ⟨_, _, z, hnext, hnexti, ?_, ?_, hz, hlo, hhi⟩
  · rw [afterDraw_res, hx.f64_enc64, (isNumber_toF64 (by omega)).fle_iff hx]
    exact h.le_betweenUnits
  · rw [afterDraw_res, hx.f64_enc64, hx.flt_iff (isNumber_toF64 (by omega))]
    exact betweenUnits_lt_of_band ha hlt hb hk

/-- Settles O39. A whole number of at most 2^53 loses 2^-31 at the least, so the floor of the product is below it. -/
theorem nextiMaxIntegerRange : Obligations.NextiMaxIntegerRange := by
  intro s e b hg hinv hlo hhi hopb
  have hsmall : b.natAbs ≤ 2 ^ 53 := by omega
  have hmax : IsNumber (maxF s) (b * unitsPerOne) := by
    rw [maxF, hopb]
    exact isNumber_toF64 hsmall
  have hvalue : maxF s = .fin false (b.natAbs * unitsPerOne) := by
    rw [maxF, hopb, toF64_exact_of_le hsmall, decide_eq_false (by omega)]
  have hzero : IsNumber fzero 0 := isNumber_fin false representable_zero (pos_of_gt hmax.below)
  have hpos : (0 : Int) < b * unitsPerOne :=
    Int.mul_pos (by omega) (Int.natCast_pos.mpr unitsPerOne_pos)
  have hcheck : operandCheck .nextiMax s = none :=
    checkF_max_passes s hmax.isFinite ((hzero.flt_iff hmax).mpr hpos)
  obtain ⟨k, hk, hexec⟩ := exec_at_draw rfl hg hinv hcheck
  obtain ⟨hprod, hx⟩ := isNumber_fmul_unitOf hk false (representable_units_of_le hsmall)
    (units_lt_overflowMag_of_le hsmall)
  have hscaled := scaledMag_units_le hk (by omega : 0 < b.natAbs) hsmall
  have hbelow : signedUnits false (scaledMag k (b.natAbs * unitsPerOne)) < b * unitsPerOne := by
    have hunits : ((b.natAbs * unitsPerOne : Nat) : Int) = b * unitsPerOne := by
      rw [Nat.cast_mul, Int.natAbs_of_nonneg (by omega)]
    have hstep : 0 < 2 ^ 1043 := pow_pos two_pos 1043
    rw [signedUnits_false, ← hunits]
    generalize 2 ^ 1043 = h at hscaled hstep
    omega
  obtain ⟨z, hz, hz0, hzb⟩ := exists_ffloor_eq_toF64 hx (by simp) (a := 0) (by simp) hbelow (by omega) hhi
  refine ⟨_, z, hexec, ?_, hz0, hzb⟩
  rw [afterDraw_res, ← hz, ← hprod, ← hvalue]

/-! ### No result is infinite -/

/-- `MAX`, the largest finite magnitude, is one unit in the last place below the overflow. -/
theorem add_ulp_le_overflowMag {m : Nat} (hrep : Representable m) (hlt : m < overflowMag) :
    m + 2 ^ 2045 ≤ overflowMag := by
  have htop : overflowMag = 2 ^ 2045 * 2 ^ 53 := by rw [overflowMag_eq, ← pow_add]
  obtain hsmall | hbig := Nat.lt_or_ge m (2 ^ 2045 * 2 ^ 52)
  · rw [htop]
    generalize 2 ^ 2045 = p at hsmall ⊢
    omega
  · have hne : m ≠ 0 := by
      rintro rfl
      exact absurd hbig (not_le.mpr (mul_pos (pow_pos two_pos 2045) (pow_pos two_pos 52)))
    rw [← pow_add] at hbig
    have hlog : 2045 + 52 ≤ m.log2 := le_log2_of_two_pow_le hne hbig
    have hdvd : 2 ^ 2045 ∣ m := (pow_dvd_pow 2 (by omega)).trans (ulpAt_dvd hrep)
    rw [htop] at hlt ⊢
    generalize 2 ^ 2045 = p at hdvd hlt ⊢
    obtain ⟨j, rfl⟩ := hdvd
    have hj : j + 1 ≤ 2 ^ 53 := Nat.lt_of_mul_lt_mul_left hlt
    exact (mul_add_one p j).ge.trans (Nat.mul_le_mul_left p hj)

/-- Adding less than 1 to a magnitude does not carry it over the overflow: the sum is nearer to the magnitude. -/
theorem roundMag_add_lt_overflowMag {m u : Nat} (hrep : Representable m) (hlt : m < overflowMag)
    (hu : u ≤ unitsPerOne) : roundMag (m + u) 1 < overflowMag := by
  have hnear := (roundMag_nearestEven (num := m + u) one_pos).nearest m hrep
  have hroom := add_ulp_le_overflowMag hrep hlt
  have hunit : 2 * unitsPerOne < 2 ^ 2045 := by
    rw [unitsPerOne_eq, ← pow_succ']
    exact pow_lt_pow_right₀ one_lt_two (by decide)
  generalize 2 ^ 2045 = p at hroom hunit
  omega

/-- A sum with a number in [0, 1] is a number (91_not_in_source N7). -/
theorem isNumber_fadd_unit {y : F64} {z : Int} {u : Nat} (hrep : Representable u) (hu : u ≤ unitsPerOne)
    (hy : IsNumber y z) : IsNumber (fadd (.fin false u) y) (roundInt (u + z)) := by
  have hone : unitsPerOne < overflowMag := by
    have h := units_lt_overflowMag (k := 1) (by decide)
    rwa [Nat.one_mul] at h
  have hx : IsNumber (.fin false u) u := isNumber_fin false hrep (hu.trans_lt hone)
  have hlo : z ≤ roundInt (u + z) := by
    have hmono := roundInt_mono (by omega : z ≤ u + z)
    rwa [roundInt_exact hy.representable] at hmono
  have hhi : roundInt (u + z) ≤ roundMag (z.natAbs + u) 1 := by
    have hmono := roundInt_mono (by omega : u + z ≤ ((z.natAbs + u : Nat) : Int))
    rwa [roundInt_of_nonneg (Int.natCast_nonneg (z.natAbs + u)), Int.natAbs_natCast] at hmono
  have hbelow := roundMag_add_lt_overflowMag hy.representable hy.below hu
  have hbelow' := hy.below
  exact isNumber_fadd hx hy (by omega)

section AcceptedSampler

variable {i : Instr} {s : State} (hoperand : ¬ OperandError i s)

include hoperand

theorem exists_isNumber_minF (hread : readsMinF i = true) : ∃ z, IsNumber (minF s) z :=
  exists_isNumber_f64 (by_contra fun h => hoperand (.inl ⟨hread, eq_false_of_ne_true h⟩))

theorem exists_isNumber_maxF (hread : readsMaxF i = true) : ∃ z, IsNumber (maxF s) z :=
  exists_isNumber_f64 (by_contra fun h => hoperand (.inr ⟨hread, eq_false_of_ne_true h⟩))

variable {k : Nat} (hk : k < 2147483647)

include hk

theorem exists_isNumber_sum (hread : readsMinF i = true) : ∃ z, IsNumber (fadd (unitOf k) (minF s)) z := by
  obtain ⟨z, hz⟩ := exists_isNumber_minF hoperand hread
  rw [unitOf_natCast hk]
  exact ⟨_, isNumber_fadd_unit (roundMag_representable _ _)
    ((unitMag_le_umaxMag hk).trans umaxMag_lt_unitsPerOne.le) hz⟩

theorem exists_isNumber_product (hread : readsMaxF i = true) : ∃ z, IsNumber (fmul (unitOf k) (maxF s)) z := by
  obtain ⟨z, hz⟩ := exists_isNumber_maxF hoperand hread
  obtain ⟨neg, hvalue, -⟩ := hz.fin
  obtain ⟨hprod, hnumber⟩ := isNumber_fmul_unitOf hk neg hz.representable hz.below
  rw [hvalue, hprod]
  exact ⟨_, hnumber⟩

theorem exists_isNumber_between (hmin : readsMinF i = true) (hmax : readsMaxF i = true)
    (hrange : fgt (maxF s) (minF s) = true ∧ isFinite (fsub (maxF s) (minF s)) = true) :
    ∃ z, IsNumber (betweenBounds s k) z := by
  obtain ⟨A, hA⟩ := exists_isNumber_minF hoperand hmin
  obtain ⟨B, hB⟩ := exists_isNumber_maxF hoperand hmax
  have h : AcceptedBounds (minF s) (maxF s) A B := ⟨hA, hB, (hA.flt_iff hB).mp hrange.1, hrange.2⟩
  exact ⟨_, (h.isNumber_between hk).1⟩

/-- An accepted sampler answers a number at every draw. -/
theorem exists_isNumber_sampleValue {f : Int → F64} (hf : sampleValue i s = some f) (hrange : ¬ RangeError i s) :
    ∃ z, IsNumber (f k) z := by
  have hdraw : IsNumber (toF64 k) ((k : Int) * unitsPerOne) := isNumber_toF64 (by omega)
  have hfloor {x : F64} (h : ∃ z, IsNumber x z) : ∃ z, IsNumber (ffloor x) z :=
    h.imp' _ fun _ hz => isNumber_ffloor hz
  have hbetween (hboth : i = .nextMm ∨ i = .nextiMm) : ∃ z, IsNumber (betweenBounds s k) z := by
    obtain rfl | rfl := hboth <;>
      exact exists_isNumber_between hoperand hk rfl rfl (by simpa [RangeError, minF, maxF] using hrange)
  cases i with
  | unit =>
    cases hf
    rw [unitOf_natCast hk]
    exact ⟨_, isNumber_fin false (roundMag_representable _ _) (unitMag_lt_overflowMag hk)⟩
  | next => cases hf; exact ⟨_, hdraw⟩
  | nextMin => cases hf; exact exists_isNumber_sum hoperand hk rfl
  | nextMax => cases hf; exact exists_isNumber_product hoperand hk rfl
  | nextMm => cases hf; exact hbetween (.inl rfl)
  | nexti => cases hf; exact hfloor ⟨_, hdraw⟩
  | nextiMin => cases hf; exact hfloor (exists_isNumber_sum hoperand hk rfl)
  | nextiMax => cases hf; exact hfloor (exists_isNumber_product hoperand hk rfl)
  | nextiMm => cases hf; exact hfloor (hbetween (.inr rfl))
  | _ => cases hf

end AcceptedSampler

/-- Settles O40. A sampler that completes has passed its checks, and then its value is a number. -/
theorem samplerResultsAreFinite : Obligations.SamplerResultsAreFinite := by
  intro i s t e hi hg hinv ht hok
  obtain ⟨f, hf⟩ : ∃ f, sampleValue i s = some f := by fin_cases hi <;> exact ⟨_, rfl⟩
  have hseeded : ¬ UnseededError i s := fun ⟨_, _, hgen⟩ => by simp [hg] at hgen
  obtain ⟨c, hc, hexec⟩ | ⟨hc, -⟩ := exec_of_not_unseededError hseeded
  · obtain rfl := eq_of_next ht hexec
    obtain rfl | rfl | rfl := operandCheck_codes hc <;> cases hok
  · have hoperand : ¬ OperandError i s := fun h => by simp [(operandCheck_operand i s).mpr h] at hc
    have hrange : ¬ RangeError i s := fun h => by simp [(operandCheck_range i s).mpr ⟨hoperand, h⟩] at hc
    obtain ⟨k, hk, hexec⟩ := exec_at_draw hf hg hinv hc
    obtain rfl := eq_of_next ht hexec
    obtain ⟨z, hz⟩ := exists_isNumber_sampleValue hoperand hk hf hrange
    rw [afterDraw_res, hz.f64_enc64]
    exact hz.isFinite

end Sys2Proof.Proofs
end
